-- ==== Sys2Proof/Word.lean ====
section
/-! DEFINITION. The two widths the spec gives a name (00_scope.md R9): a word is 32 bits, a byte is 8 bits. -/

namespace Sys2Proof

/-- A host register, a command word, an argument (R9, R24: every register is 32 bits wide). -/
abbrev Word := BitVec 32

/-- One byte of the buffer; one character of a string (R9, R14). -/
abbrev Byte := BitVec 8

end Sys2Proof
end

