-- ==== Sys2Proof/Syntax.lean ====
section
/-! DEFINITION. The 32 commands of the opcode map (30_encoding.md R70), one constructor per row, operands in the order of
the row's syntax column. -/

namespace Sys2Proof

/-- A value register number: V0 to V15 (10_state.md R18; R68: an unsigned number, never scaled or extended). -/
abbrev VReg := Fin 16

/-- One command of the block (R4, R70). A command that works on the buffer takes its offsets and lengths from the
latched arguments, not from the command word (R69). -/
inductive Instr where
  /-- R78 -/
  | nop
  /-- R79: `LDK vd, imm` -/
  | ldk (vd : VReg) (imm : BitVec 8)
  /-- R80: `MOV vd, vs` -/
  | mov (vd vs : VReg)
  /-- R81: `LDRAW vd, neg` -/
  | ldraw (vd : VReg) (neg : Bool)
  /-- R82: `STRAW vs` -/
  | straw (vs : VReg)
  /-- R83: `FROMBE vd` -/
  | frombe (vd : VReg)
  /-- R84: `TOBE vs` -/
  | tobe (vs : VReg)
  /-- R87: `PARSE vd, radix` -/
  | parse (vd : VReg) (radix : BitVec 8)
  /-- R89: `TOSTR vs, radix` -/
  | tostr (vs : VReg) (radix : BitVec 8)
  /-- R92: `ADD vd, va, vb` -/
  | add (vd va vb : VReg)
  /-- R93: `SUB vd, va, vb` -/
  | sub (vd va vb : VReg)
  /-- R94: `NEG vd, vs` -/
  | neg (vd vs : VReg)
  /-- R97: `MUL vd, va, vb` -/
  | mul (vd va vb : VReg)
  /-- R98: `SQR vd, vs` -/
  | sqr (vd vs : VReg)
  /-- R100: `DIVREM vq, vr, va, vb` -/
  | divrem (vq vr va vb : VReg)
  /-- R101: `DIV vd, va, vb` -/
  | div (vd va vb : VReg)
  /-- R102: `REM vd, va, vb` -/
  | rem (vd va vb : VReg)
  /-- R105: `POW vd, va, vn` -/
  | pow (vd va vn : VReg)
  /-- R106: `MODPOW vd, va, ve, vm` -/
  | modpow (vd va ve vm : VReg)
  /-- R108: `CMP va, vb` -/
  | cmp (va vb : VReg)
  /-- R109: `CMPABS va, vb` -/
  | cmpabs (va vb : VReg)
  /-- R110: `SGN va` -/
  | sgn (va : VReg)
  /-- R111: `ISZERO va` -/
  | iszero (va : VReg)
  /-- R112: `ISUNIT va` -/
  | isunit (va : VReg)
  /-- R113: `ISEVEN va` -/
  | iseven (va : VReg)
  /-- R114: `ISODD va` -/
  | isodd (va : VReg)
  /-- R115: `ISPOS va` -/
  | ispos (va : VReg)
  /-- R116: `ISNEG va` -/
  | isneg (va : VReg)
  /-- R124 -/
  | enc58
  /-- R125 -/
  | dec58
  /-- R122 -/
  | enc58b
  /-- R123 -/
  | dec58b
  deriving DecidableEq, Repr

end Sys2Proof
end

