-- ==== Sys2Proof/WellFormed.lean ====
section
/-! DEFINITION. Which terms of Instr are commands of the block. The field widths are in the types; one relation between
fields remains (30_encoding.md R71, R72): DIVREM names two different destinations. -/

namespace Sys2Proof

/-- A command some word encodes. Quotient and remainder of DIVREM must go to different registers (R71). An illegal
radix of PARSE or TOSTR is a legal word that completes with InvalidRadix (R68), so it is no matter of form. -/
def Instr.wf : Instr → Bool
  | .divrem vq vr _ _ => decide (vq ≠ vr)
  | .nop | .ldk _ _ | .mov _ _ | .ldraw _ _ | .straw _ | .frombe _ | .tobe _ | .parse _ _ | .tostr _ _
  | .add _ _ _ | .sub _ _ _ | .neg _ _ | .mul _ _ _ | .sqr _ _ | .div _ _ _ | .rem _ _ _ | .pow _ _ _
  | .modpow _ _ _ _ | .cmp _ _ | .cmpabs _ _ | .sgn _ | .iszero _ | .isunit _ | .iseven _ | .isodd _
  | .ispos _ | .isneg _ | .enc58 | .dec58 | .enc58b | .dec58b => true

end Sys2Proof
end

