-- ==== Sys2Proof/Decode.lean ====
section
/-! DEFINITION. The command word (30_encoding.md R65 to R73): its fields, the formats with their masks, the decoder, and
after it an encoder written from the same field table. -/

namespace Sys2Proof

/-- OP = w[7:0] (R66). -/
def opField (w : Word) : BitVec 8 := w.extractLsb' 0 8
/-- RD = w[11:8] (R66). -/
def rdField (w : Word) : VReg := (w.extractLsb' 8 4).toFin
/-- RS1 = w[15:12] (R66). -/
def rs1Field (w : Word) : VReg := (w.extractLsb' 12 4).toFin
/-- RS2 = w[19:16] (R66). -/
def rs2Field (w : Word) : VReg := (w.extractLsb' 16 4).toFin
/-- RS3, or RD2 for DIVREM = w[23:20] (R66). -/
def rs3Field (w : Word) : VReg := (w.extractLsb' 20 4).toFin
/-- IMM8 = w[31:24] (R66). -/
def immField (w : Word) : BitVec 8 := w.extractLsb' 24 8

/-- The formats of R67, named as the spec names them. -/
inductive Format where
  | N | K | KS | R2 | R3 | R4 | Q | D | S1 | S1I | S2 | B
  deriving DecidableEq, Repr

/-- A 1 at every bit that is in OP or must be zero (R67). -/
def Format.mask : Format → Word
  | .N => 0xFFFFFFFF
  | .K => 0x00FFF0FF
  | .KS => 0xFEFFF0FF
  | .R2 => 0xFFFF00FF
  | .R3 => 0xFFF000FF
  | .R4 => 0xFF0000FF
  | .Q => 0xFF0000FF
  | .D => 0xFFFFF0FF
  | .S1 => 0xFFFF0FFF
  | .S1I => 0x00FF0FFF
  | .S2 => 0xFFF00FFF
  | .B => 0xFFFFFFFF

/-- The test of R71 after the opcode has named the command: (w AND mask(C)) = match(C), where match(C) is the opcode in
bits 7 to 0 and zero elsewhere (R67). -/
def accept (f : Format) (op : BitVec 8) (w : Word) (i : Instr) : Option Instr :=
  if w &&& f.mask = op.setWidth 32 then some i else none

/-- The decoder (R71), total on the 2^32 words: `none` is IllegalCommand (R72). -/
def decode (w : Word) : Option Instr :=
  match (opField w).toNat with
  | 0x00 => accept .N 0x00 w .nop
  | 0x01 => accept .K 0x01 w (.ldk (rdField w) (immField w))
  | 0x02 => accept .R2 0x02 w (.mov (rdField w) (rs1Field w))
  | 0x04 => accept .KS 0x04 w (.ldraw (rdField w) ((immField w).getLsbD 0))
  | 0x05 => accept .S1 0x05 w (.straw (rs1Field w))
  | 0x06 => accept .D 0x06 w (.frombe (rdField w))
  | 0x07 => accept .S1 0x07 w (.tobe (rs1Field w))
  | 0x08 => accept .K 0x08 w (.parse (rdField w) (immField w))
  | 0x09 => accept .S1I 0x09 w (.tostr (rs1Field w) (immField w))
  | 0x10 => accept .R3 0x10 w (.add (rdField w) (rs1Field w) (rs2Field w))
  | 0x11 => accept .R3 0x11 w (.sub (rdField w) (rs1Field w) (rs2Field w))
  | 0x12 => accept .R2 0x12 w (.neg (rdField w) (rs1Field w))
  | 0x18 => accept .R3 0x18 w (.mul (rdField w) (rs1Field w) (rs2Field w))
  | 0x19 => accept .R2 0x19 w (.sqr (rdField w) (rs1Field w))
  | 0x20 =>
    if rdField w = rs3Field w then none
    else accept .Q 0x20 w (.divrem (rdField w) (rs3Field w) (rs1Field w) (rs2Field w))
  | 0x21 => accept .R3 0x21 w (.div (rdField w) (rs1Field w) (rs2Field w))
  | 0x22 => accept .R3 0x22 w (.rem (rdField w) (rs1Field w) (rs2Field w))
  | 0x28 => accept .R3 0x28 w (.pow (rdField w) (rs1Field w) (rs2Field w))
  | 0x29 => accept .R4 0x29 w (.modpow (rdField w) (rs1Field w) (rs2Field w) (rs3Field w))
  | 0x30 => accept .S2 0x30 w (.cmp (rs1Field w) (rs2Field w))
  | 0x31 => accept .S2 0x31 w (.cmpabs (rs1Field w) (rs2Field w))
  | 0x32 => accept .S1 0x32 w (.sgn (rs1Field w))
  | 0x33 => accept .S1 0x33 w (.iszero (rs1Field w))
  | 0x34 => accept .S1 0x34 w (.isunit (rs1Field w))
  | 0x35 => accept .S1 0x35 w (.iseven (rs1Field w))
  | 0x36 => accept .S1 0x36 w (.isodd (rs1Field w))
  | 0x37 => accept .S1 0x37 w (.ispos (rs1Field w))
  | 0x38 => accept .S1 0x38 w (.isneg (rs1Field w))
  | 0x40 => accept .B 0x40 w .enc58
  | 0x41 => accept .B 0x41 w .dec58
  | 0x42 => accept .B 0x42 w .enc58b
  | 0x43 => accept .B 0x43 w .dec58b
  | _ => none

/-- The six fields put together, most significant first (R66). -/
def pack (imm : BitVec 8) (rs3 rs2 rs1 rd : VReg) (op : BitVec 8) : Word :=
  imm ++ BitVec.ofFin (w := 4) rs3 ++ BitVec.ofFin (w := 4) rs2 ++ BitVec.ofFin (w := 4) rs1
    ++ BitVec.ofFin (w := 4) rd ++ op

/-- The word of a command, from the formats of R67 and the operand-to-field mapping of R70. A field the command does not
use is zero. -/
def encode : Instr → Word
  | .nop => pack 0 0 0 0 0 0x00
  | .ldk vd imm => pack imm 0 0 0 vd 0x01
  | .mov vd vs => pack 0 0 0 vs vd 0x02
  | .ldraw vd neg => pack (if neg then 1 else 0) 0 0 0 vd 0x04
  | .straw vs => pack 0 0 0 vs 0 0x05
  | .frombe vd => pack 0 0 0 0 vd 0x06
  | .tobe vs => pack 0 0 0 vs 0 0x07
  | .parse vd radix => pack radix 0 0 0 vd 0x08
  | .tostr vs radix => pack radix 0 0 vs 0 0x09
  | .add vd va vb => pack 0 0 vb va vd 0x10
  | .sub vd va vb => pack 0 0 vb va vd 0x11
  | .neg vd vs => pack 0 0 0 vs vd 0x12
  | .mul vd va vb => pack 0 0 vb va vd 0x18
  | .sqr vd vs => pack 0 0 0 vs vd 0x19
  | .divrem vq vr va vb => pack 0 vr vb va vq 0x20
  | .div vd va vb => pack 0 0 vb va vd 0x21
  | .rem vd va vb => pack 0 0 vb va vd 0x22
  | .pow vd va vn => pack 0 0 vn va vd 0x28
  | .modpow vd va ve vm => pack 0 vm ve va vd 0x29
  | .cmp va vb => pack 0 0 vb va 0 0x30
  | .cmpabs va vb => pack 0 0 vb va 0 0x31
  | .sgn va => pack 0 0 0 va 0 0x32
  | .iszero va => pack 0 0 0 va 0 0x33
  | .isunit va => pack 0 0 0 va 0 0x34
  | .iseven va => pack 0 0 0 va 0 0x35
  | .isodd va => pack 0 0 0 va 0 0x36
  | .ispos va => pack 0 0 0 va 0 0x37
  | .isneg va => pack 0 0 0 va 0 0x38
  | .enc58 => pack 0 0 0 0 0 0x40
  | .dec58 => pack 0 0 0 0 0 0x41
  | .enc58b => pack 0 0 0 0 0 0x42
  | .dec58b => pack 0 0 0 0 0 0x43

/-- The one word an instruction numbered as spec/opcode_table.json numbers it stands in: nbits bits of w, the bits above
them zero. A number of more than 32 bits is no command word (R65). -/
def tableWord (nbits w : Nat) : Option Word :=
  if w % 2 ^ nbits < 2 ^ 32 then some (BitVec.ofNat 32 (w % 2 ^ nbits)) else none

/-- What the decoder reads from an instruction whose bits are w, bit 0 the least significant bit of the word. -/
def decodeTableWord (nbits w : Nat) : Option Instr := (tableWord nbits w).bind decode

end Sys2Proof
end

