-- ==== Sys2Proof/Config.lean ====
section
/-! DEFINITION. What one instance of the block fixes (00_scope.md R7: the parameters), with the constraints the spec puts
on them, the suggested defaults, and the one free value of the model (20_memory.md R50).

The parameters are plain data that State carries and no step changes, so that every statement about every state is a
statement about every instance (log entry 1). -/

namespace Sys2Proof

/-- The parameters of R7 that a block rule depends on: `MAX_LIMBS`, `BUF_BYTES` and `B58_ALPHABET`.
`LATENCY(cmd)` is the position of the completion among the events of `State.inputs` (log entry 3); `BN58_BASE` and the
IRQ wiring are not visible to the block (I11). -/
structure Params where
  /-- `MAX_LIMBS`: how many base-10^7 limbs a value register holds (R7, R8). -/
  maxLimbs : Nat
  /-- `BUF_BYTES`: the size of the byte buffer (R7, R22). -/
  bufBytes : Nat
  /-- `B58_ALPHABET`: the symbol of digit value d stands at index d (R7, R117). -/
  alphabet : Vector Byte 58
  deriving DecidableEq, Repr

/-- The constraints of the parameter table: 4 ≤ MAX_LIMBS ≤ 15360; BUF_BYTES a multiple of 4 from 64 to 65536; 58
distinct symbols (R7, R117). -/
def Params.wf (p : Params) : Bool :=
  decide (4 ≤ p.maxLimbs) && decide (p.maxLimbs ≤ 15360)
    && decide (p.bufBytes % 4 = 0) && decide (64 ≤ p.bufBytes) && decide (p.bufBytes ≤ 65536)
    && decide p.alphabet.toList.Nodup

/-- The suggested default order of the symbols: the digits 1 to 9, the capitals without I and O, the small letters
without l (R117, G1; log entry 9). -/
def defaultAlphabet : Vector Byte 58 :=
  #v[0x31, 0x32, 0x33, 0x34, 0x35, 0x36, 0x37, 0x38, 0x39,
     0x41, 0x42, 0x43, 0x44, 0x45, 0x46, 0x47, 0x48, 0x4A, 0x4B, 0x4C, 0x4D, 0x4E,
     0x50, 0x51, 0x52, 0x53, 0x54, 0x55, 0x56, 0x57, 0x58, 0x59, 0x5A,
     0x61, 0x62, 0x63, 0x64, 0x65, 0x66, 0x67, 0x68, 0x69, 0x6A, 0x6B,
     0x6D, 0x6E, 0x6F, 0x70, 0x71, 0x72, 0x73, 0x74, 0x75, 0x76, 0x77, 0x78, 0x79, 0x7A]

/-- The suggested defaults of R7: 128 limbs, 4096 buffer bytes, the alphabet of R117. -/
def Params.default : Params := { maxLimbs := 128, bufBytes := 4096, alphabet := defaultAlphabet }

/-- FREE VALUE (R50, I2). The n-th word a host reads from a result register or window while a command is in flight. The
constant has no body: nothing in Lean can tell which word it is. -/
opaque Config.freeWord : Nat → Word

end Sys2Proof
end

