-- ==== Sys2Proof/Machine/State.lean ====
section
/-! DEFINITION. The state of the block as plain data (10_state.md, 70_reset_and_hazards.md R150), the events the outside
world presents to it, and the reasons a step can stop.

Each register has one home here. What the spec defines as a function of other state is computed, not stored: STATUS.BUSY,
STATUS.ERR, STATUS.IRQ, the IRQ output and the value window (Machine/Flags.lean, Machine/HostBus.lean). -/

namespace Sys2Proof.Machine

/-- The completion codes of R128 by name; `noError` is `None`. Their numbers are in Machine/Flags.lean. -/
inductive ErrCode where
  | noError
  | invalidRadix
  | invalidDigit
  | invalidFormat
  | divideByZero
  | exponentTooLarge
  | invalidBlockLength
  | invalidSymbol
  | overflow
  | illegalCommand
  | capacityExceeded
  | bufferBounds
  | outputSpace
  | negativeOperand
  deriving DecidableEq, Repr

/-- The three host-protocol violations of R49. -/
inductive Violation where
  /-- R49.1: an access that is not an aligned 32-bit access. -/
  | notAlignedWord
  /-- R49.2: a write to BUFWIN while STATUS.BUSY = 1. -/
  | bufferWriteWhileBusy
  /-- R49.3: an access while the hard reset is asserted. -/
  | accessDuringReset
  deriving DecidableEq, Repr

/-- The model faults of R138. Both are SAFE: the model stops where the chip does something the spec does not say. -/
inductive Fault where
  /-- Raised by a host access (Machine/HostBus.lean) that R49 forbids. Safe: the spec calls the effect UNPREDICTABLE. -/
  | hostProtocolViolation (why : Violation)
  /-- Raised by a command whose MemRead reaches a byte nothing has written, at its issue, and by a host read of a buffer
  word that contains one (R23). Safe: the spec calls the byte UNSPECIFIED and asks a model to give it no value. -/
  | uninitialisedBuffer
  deriving DecidableEq, Repr

/-- Why a step has no meaning. -/
inductive Refusal where
  /-- Raised by an arm of `exec` whose instruction has no meaning yet. Safe. No arm of this model raises it. -/
  | notModelled (mnemonic : String)
  /-- Raised by a meaning asked to complete a command while none is in flight. `step` never asks so. Safe. -/
  | nothingInFlight
  deriving DecidableEq, Repr

/-- The value register file V0..V15, each register one integer (R18: "a model may represent each register as a single
integer"). The limb form of R19 is a function of it (Machine/Operands.lean). -/
abbrev Regs := Vector Int 16

/-- The byte buffer (R22): the written bytes by offset, offsets strictly rising. An unlisted offset holds a byte nothing
has written; it reads as no value (R23, R149). -/
abbrev Memory := List Host.Cell

/-- The four argument registers A_SRC, A_LEN, A_DST and A_CAP, or a latched copy of them (R29). -/
structure Args where
  src : Word
  len : Word
  dst : Word
  cap : Word
  deriving DecidableEq, Repr

/-- The command in flight (R40): its word, its latched arguments, and the values read at issue. The snapshot holds the
whole register file and the whole buffer; a command looks only at its operands and its source range. -/
structure InFlight where
  word : Word
  args : Args
  v : Regs
  buf : Memory
  deriving DecidableEq, Repr

/-- What a host access asks for. -/
inductive HostOp where
  | read
  | write (w : Word)
  deriving DecidableEq, Repr

/-- One thing that happens at the block from outside, or a turn given to the sequencer (R17: a step is a host access or a
sequencer completion; R146: the hard-reset input). -/
inductive Event where
  /-- A host access of `width` bits at a byte offset of the 17-bit host address space (R44, R46). -/
  | access (width : Nat) (offset : BitVec 17) (op : HostOp)
  /-- The hard-reset input goes to this level (R146). -/
  | hardReset (level : Bool)
  /-- The sequencer takes its completion step, if a command is in flight (R133). -/
  | sequencer
  deriving DecidableEq, Repr

/-- Everything the spec gives the block, and three fields of the model's own at the end. -/
structure State where
  /-- The parameters and constant tables of the instance (R7, R34, R43). No step changes them. -/
  params : Params
  /-- V0..V15 (R18). -/
  v : Regs
  /-- The byte buffer (R22). -/
  buf : Memory
  /-- CTRL.IE (R26). -/
  ie : Bool
  /-- STATUS.DONE (R27). -/
  done : Bool
  /-- STATUS.OVR (R27). -/
  ovr : Bool
  /-- CMD: the last issued command word (R28). -/
  cmd : Word
  /-- A_SRC, A_LEN, A_DST, A_CAP (R29). -/
  args : Args
  /-- R_VAL (R30). -/
  rVal : Word
  /-- R_LEN (R31). -/
  rLen : Word
  /-- ERR_CODE (R32). -/
  errCode : ErrCode
  /-- ERR_INFO (R33). -/
  errInfo : Word
  /-- VSEL[3:0] (R35). -/
  vsel : VReg
  /-- The command in flight, if any (R40). STATUS.BUSY is 1 exactly when there is one (R27). -/
  inflight : Option InFlight
  /-- The level of the hard-reset input (R146). -/
  resetLine : Bool
  /-- MODEL'S OWN: the word the last host read returned (log entry 4). -/
  rdata : Word
  /-- MODEL'S OWN: how many free words have been drawn (R50; log entry 2). -/
  freeCount : Nat
  /-- MODEL'S OWN: the events still to come, in order (log entry 3). -/
  inputs : List Event
  deriving DecidableEq, Repr

/-- Right after a hard reset of an instance with parameters `p` (R146, R150). The three fields of the model's own stand at
values the log names (entries 2, 3 and 4). -/
def State.resetOf (p : Params) : State :=
  { params := p
    v := Vector.replicate 16 0
    buf := []
    ie := false
    done := false
    ovr := false
    cmd := 0
    args := { src := 0, len := 0, dst := 0, cap := 0 }
    rVal := 0
    rLen := 0
    errCode := .noError
    errInfo := 0
    vsel := 0
    inflight := none
    resetLine := false
    rdata := 0
    freeCount := 0
    inputs := [] }

/-- The block with the suggested default parameters right after a hard reset (R7, R150; log entry 1). -/
def State.reset : State := State.resetOf Params.default

end Sys2Proof.Machine
end

