-- ==== Sys2Proof/Machine/Ops.lean ====
section
/-! DEFINITION. The named operations every meaning is written over: reading and writing value registers and buffer bytes,
raising an error, the pending writes of a command, and the one completion step (00_scope.md R12, R13; 60_exceptions.md
R131 to R133). -/

namespace Sys2Proof.Machine

/-! ### Value registers (R12, R18) -/

/-- `V[r]`. -/
def Regs.read (v : Regs) (r : VReg) : Int := v[r.val]

/-- `V[r] <- x`. -/
def Regs.write (v : Regs) (r : VReg) (x : Int) : Regs := v.set r.val x

/-! ### The buffer (R12, R22, R23) -/

/-- The byte at an offset, or none where nothing has been written (R23). -/
def Memory.byteAt : Memory → Nat → Option Byte
  | [], _ => none
  | (k, b) :: m, a => if a = k then some b else Memory.byteAt m a

/-- Writes one byte and keeps the offsets strictly rising. -/
def Memory.put : Memory → Nat → Byte → Memory
  | [], a, b => [(a, b)]
  | (k, c) :: m, a, b =>
    if a < k then (a, b) :: (k, c) :: m
    else if a = k then (a, b) :: m
    else (k, c) :: Memory.put m a b

/-- `MemRead(a, n)`: the n bytes from offset a on, first byte at offset a; none if one of them is unwritten. -/
def Memory.read (m : Memory) (a : Nat) : Nat → Option (List Byte)
  | 0 => some []
  | n + 1 =>
    match m.byteAt a with
    | none => none
    | some b => (Memory.read m (a + 1) n).map (b :: ·)

/-- `MemWrite(a, n, bytes)`. -/
def Memory.write (m : Memory) (a : Nat) : List Byte → Memory
  | [] => m
  | b :: bs => Memory.write (m.put a b) (a + 1) bs

/-- The canonical form: offsets strictly rising, so equal buffers are equal lists. No entry equals what an unlisted offset
reads as, because that is no value. -/
def Memory.wf : Memory → Bool
  | [] => true
  | [_] => true
  | (k, _) :: (l, c) :: m => decide (k < l) && Memory.wf ((l, c) :: m)

/-- Every listed offset is a buffer offset, 0..BUF_BYTES − 1 (R22). -/
def Memory.below (m : Memory) (size : Nat) : Bool := m.all fun cell => decide (cell.1 < size)

/-! ### Errors and pending writes (R13, R131) -/

/-- How a command's pseudocode can end early: with an error of the block, or with a fault of the model. -/
inductive Halt where
  | raise (e : ErrCode) (info : Nat)
  | fault (f : Fault)
  deriving DecidableEq, Repr

/-- A command's pseudocode, run from top to bottom (R13). -/
abbrev Run (α : Type) := Except Halt α

/-- `raise E(info)` (R13). -/
def raise {α : Type} (e : ErrCode) (info : Nat) : Run α := .error (.raise e info)

/-- The pending writes of a command that raised nothing (R13): value registers in order, one buffer range, R_VAL, R_LEN. -/
structure Writes where
  regs : List (VReg × Int) := []
  dst : Nat := 0
  bytes : List Byte := []
  rVal : Option Word := none
  rLen : Option Word := none
  deriving DecidableEq, Repr

/-- `V[r] <- x` as the one pending write. -/
def setReg (r : VReg) (x : Int) : Run Writes := .ok { regs := [(r, x)] }

/-- `R_VAL <- x` as the one pending write. -/
def setVal (x : Word) : Run Writes := .ok { rVal := some x }

/-- The pending register writes applied in order. -/
def Regs.writeAll (v : Regs) (ws : List (VReg × Int)) : Regs := ws.foldl (fun v w => v.write w.1 w.2) v

/-! ### Completion (R133) -/

/-- The completion of a command that raised nothing: every pending write at once, no error, DONE set, nothing in flight. -/
def State.succeed (s : State) (w : Writes) : State :=
  { s with
    v := s.v.writeAll w.regs
    buf := s.buf.write w.dst w.bytes
    rVal := w.rVal.getD s.rVal
    rLen := w.rLen.getD s.rLen
    errCode := .noError
    errInfo := 0
    done := true
    inflight := none }

/-- TAKING AN EXCEPTION on this hardware: the error completion (R127, R131, R133). The pending writes are discarded; only
the error registers and STATUS change. There is no handler, no saved pc and no return from it (R134, R135). -/
def State.fail (s : State) (e : ErrCode) (info : Nat) : State :=
  { s with
    errCode := e
    errInfo := BitVec.ofNat 32 info
    done := true
    inflight := none }

/-- The one atomic completion step (R133), from what the command's pseudocode came to. -/
def State.complete (s : State) : Run Writes → Host.Outcome State Fault Refusal
  | .ok w => .next (s.succeed w)
  | .error (.raise e info) => .next (s.fail e info)
  | .error (.fault f) => .fault f

/-- The completion of the command in flight, whose pseudocode is `body`, computed from its snapshot alone (R40). -/
def State.command (s : State) (body : InFlight → Run Writes) : Host.Outcome State Fault Refusal :=
  match s.inflight with
  | none => .refused .nothingInFlight
  | some c => s.complete (body c)

/-- Issue of command word w (R28): CMD and the in-flight command hold it, the arguments are latched, the registers and the
buffer are read, and DONE is cleared. -/
def State.latch (s : State) (w : Word) : State :=
  { s with
    cmd := w
    done := false
    inflight := some { word := w, args := s.args, v := s.v, buf := s.buf } }

end Sys2Proof.Machine
end

