-- ==== Sys2Proof/Machine/Flags.lean ====
section
/-! DEFINITION. The flag-like state of the block: the STATUS bits that are functions of other state, the STATUS word, the
interrupt output, the numbers of the error codes, and the scalar results written to R_VAL (10_state.md R27, R30, R42;
60_exceptions.md R128, R137). -/

namespace Sys2Proof.Machine

/-- ERR_CODE[7:0] of each code (R128). -/
def ErrCode.number : ErrCode → BitVec 8
  | .noError => 0x00
  | .invalidRadix => 0x01
  | .invalidDigit => 0x02
  | .invalidFormat => 0x03
  | .divideByZero => 0x04
  | .exponentTooLarge => 0x05
  | .invalidBlockLength => 0x06
  | .invalidSymbol => 0x07
  | .overflow => 0x08
  | .illegalCommand => 0x10
  | .capacityExceeded => 0x11
  | .bufferBounds => 0x12
  | .outputSpace => 0x13
  | .negativeOperand => 0x14

/-- STATUS.BUSY: 1 from the issue of a command until its completion (R27). -/
def State.busy (s : State) : Bool := s.inflight.isSome

/-- STATUS.ERR equals (ERR_CODE ≠ 0) (R27). -/
def State.err (s : State) : Bool := decide (s.errCode.number ≠ 0)

/-- STATUS.IRQ and the IRQ output: DONE AND CTRL.IE (R27, R137). -/
def State.irq (s : State) : Bool := s.done && s.ie

/-- The STATUS word: BUSY [0], DONE [1], ERR [2], OVR [3], IRQ [4], the rest 0 (R27). -/
def State.statusWord (s : State) : Word :=
  BitVec.ofNat 32
    (s.busy.toNat + 2 * s.done.toNat + 4 * s.err.toNat + 8 * s.ovr.toNat + 16 * s.irq.toNat)

/-- The CTRL word: IE [0]; SRST and the reserved bits read 0 (R26). -/
def State.ctrlWord (s : State) : Word := BitVec.ofNat 32 s.ie.toNat

/-- sext_32 of an integer (R9, R30). -/
def sext32 (x : Int) : Word := BitVec.ofInt 32 x

/-- A predicate's result: 1 or 0 (R42). -/
def flagWord (b : Bool) : Word := if b then 1 else 0

end Sys2Proof.Machine
end

