-- ==== Sys2Proof/Machine/Operands.lean ====
section
/-! DEFINITION. The operand forms of the commands: positional numerals and limbs (00_scope.md R11), characters and digits
(R14, R15), the buffer ranges with their checks (20_memory.md R57, 30_encoding.md R69), and the value written to a
register with its capacity check (60_exceptions.md R132). -/

namespace Sys2Proof.Machine

/-! ### Positional numerals -/

/-- LIMB_BASE = 10^7 (R7). -/
def limbBase : Nat := 10000000

/-- The base-b digits of n, least significant first, with no leading zero digit; `fuel` bounds their number. -/
def digitsUpTo (b : Nat) : Nat → Nat → List Nat
  | 0, _ => []
  | fuel + 1, n => if n = 0 then [] else n % b :: digitsUpTo b fuel (n / b)

/-- The base-b digits of n, least significant first: the empty list for 0, no leading zero digit otherwise. A number has
no more digits in a base of 2 or more than it has bits. -/
def digits (b n : Nat) : List Nat := digitsUpTo b (n.log2 + 1) n

/-- The k lowest base-b digits of n, least significant first. -/
def lowDigits (b : Nat) : Nat → Nat → List Nat
  | 0, _ => []
  | k + 1, n => n % b :: lowDigits b k (n / b)

/-- The value of base-b digits read most significant first: value = value·b + digit. -/
def valueOf (b : Nat) (ds : List Nat) : Nat := ds.foldl (fun value d => value * b + d) 0

/-- a ^ n by square and multiply (R104); `fuel` bounds the bits of n. -/
def powerUpTo (a : Nat) : Nat → Nat → Nat
  | 0, _ => 1
  | fuel + 1, n =>
    if n = 0 then 1
    else
      let h := powerUpTo a fuel (n / 2)
      if n % 2 = 1 then h * h * a else h * h

/-- a ^ n. -/
def power (a n : Nat) : Nat := powerUpTo a (n.log2 + 1) n

/-! ### Limbs (R11) -/

/-- `limbs(v)`: the base-10^7 digits of |v|, least significant first, no leading zero limb (R11). -/
def limbs (v : Int) : List Nat := digits limbBase v.natAbs

/-- `nlimbs(v)` (R11). -/
def nlimbs (v : Int) : Nat := (limbs v).length

/-- `fits(v)` iff nlimbs(v) ≤ MAX_LIMBS (R11). -/
def fits (p : Params) (v : Int) : Bool := decide (nlimbs v ≤ p.maxLimbs)

/-- `V[r] <- v` after the capacity check: CapacityExceeded(0) if the exact result does not fit (R8, R132). -/
def storeValue (p : Params) (r : VReg) (v : Int) : Run Writes :=
  if fits p v then setReg r v else raise .capacityExceeded 0

/-- A magnitude with a requested sign; zero carries no sign (R20, R81, R87). -/
def signed (neg : Bool) (m : Nat) : Int := if neg then -(m : Int) else m

/-! ### Bytes -/

/-- The value of a big-endian byte sequence (R52). -/
def beValue (bs : List Byte) : Nat := valueOf 256 (bs.map (·.toNat))

/-- The n big-endian bytes of v, zero-padded, for v < 256^n (R52, R84). -/
def beBytes (n v : Nat) : List Byte := ((lowDigits 256 n v).map (BitVec.ofNat 8)).reverse

/-- The 4 little-endian bytes of a limb word (R55). -/
def limbBytes (limb : Nat) : List Byte := (lowDigits 256 4 limb).map (BitVec.ofNat 8)

/-- n limb words of 4 little-endian bytes each, limb 0 at the lowest offset (R55, R81). -/
def limbWords : Nat → List Byte → List Nat
  | 0, _ => []
  | n + 1, bs => beValue (bs.take 4).reverse :: limbWords n (bs.drop 4)

/-! ### Characters and digits (R14, R15) -/

/-- `digval(c)`, none for ⊥ (R15). -/
def digval (c : Byte) : Option Nat :=
  let n := c.toNat
  if 0x30 ≤ n ∧ n ≤ 0x39 then some (n - 0x30)
  else if 0x41 ≤ n ∧ n ≤ 0x5A then some (n - 0x41 + 10)
  else if 0x61 ≤ n ∧ n ≤ 0x7A then some (n - 0x61 + 10)
  else none

/-- `sym(d)`: '0'+d below 10, 'A'+(d−10) from 10 on (R89). -/
def sym (d : Nat) : Byte := if d < 10 then BitVec.ofNat 8 (0x30 + d) else BitVec.ofNat 8 (0x41 + (d - 10))

/-- A decimal digit character, '0'..'9' (R85: DIG). -/
def isDecimal (c : Byte) : Bool := decide (0x30 ≤ c.toNat) && decide (c.toNat ≤ 0x39)

/-! ### Buffer ranges (R57, R69) -/

/-- The source range check, in unbounded arithmetic: A_SRC + span ≤ BUF_BYTES, else BufferBounds(0) (R57, R130). -/
def withSource {α : Type} (p : Params) (c : InFlight) (span : Nat) (k : Run α) : Run α :=
  if c.args.src.toNat + span ≤ p.bufBytes then k else raise .bufferBounds 0

/-- The destination range check: A_DST + A_CAP ≤ BUF_BYTES, else BufferBounds(1) (R57, R130). -/
def withDest {α : Type} (p : Params) (c : InFlight) (k : Run α) : Run α :=
  if c.args.dst.toNat + c.args.cap.toNat ≤ p.bufBytes then k else raise .bufferBounds 1

/-- `MemRead(A_SRC, n)` from the buffer as it was at issue; an unwritten byte is the model fault of R23. -/
def readSource {α : Type} (c : InFlight) (n : Nat) (k : List Byte → Run α) : Run α :=
  match c.buf.read c.args.src.toNat n with
  | some bs => k bs
  | none => .error (.fault .uninitialisedBuffer)

/-- `MemWrite(A_DST, len, bytes)` with R_LEN <- len, after the capacity check OutputSpace(len) (R57, R128). -/
def emit (c : InFlight) (bytes : List Byte) : Run Writes :=
  if c.args.cap.toNat < bytes.length then raise .outputSpace bytes.length
  else .ok { dst := c.args.dst.toNat, bytes := bytes, rLen := some (BitVec.ofNat 32 bytes.length) }

end Sys2Proof.Machine
end

