-- ==== Sys2Proof/Machine/AddSub.lean ====
section
/-! DEFINITION. The adder/subtractor: ADD, SUB and NEG, specified by their exact results (42_add_sub.md R91 to R94). -/

namespace Sys2Proof.Machine

/-- ADD (R92): V[RD] <- V[RS1] + V[RS2]. -/
def execAdd (vd va vb : VReg) (s : State) : Host.Outcome State Fault Refusal :=
  s.command fun c => storeValue s.params vd (c.v.read va + c.v.read vb)

/-- SUB (R93): V[RD] <- V[RS1] − V[RS2]. -/
def execSub (vd va vb : VReg) (s : State) : Host.Outcome State Fault Refusal :=
  s.command fun c => storeValue s.params vd (c.v.read va - c.v.read vb)

/-- NEG (R94): V[RD] <- −V[RS1]; it always fits. -/
def execNeg (vd vs : VReg) (s : State) : Host.Outcome State Fault Refusal :=
  s.command fun c => setReg vd (-(c.v.read vs))

end Sys2Proof.Machine
end

