-- ==== Sys2Proof/Machine/Base58.lean ====
section
/-! DEFINITION. The Base58 block encoder/decoder: the symbol mapper, the block table, the per-block converters, and
ENC58B, DEC58B, ENC58 and DEC58 (47_base58.md R117 to R125). -/

namespace Sys2Proof.Machine

/-- B58_ALPHABET[d] (R117). -/
def symbolOf (p : Params) (d : Nat) : Byte := p.alphabet.toList.getD d 0

/-- index(c): the digit value of a symbol, none for ⊥ (R118). -/
def indexOf (p : Params) (c : Byte) : Option Nat := p.alphabet.toList.findIdx? (fun x => decide (x = c))

/-- B58_ENC_LEN[n], 0 ≤ n ≤ 8 (R119). -/
def encLen (n : Nat) : Nat := [0, 2, 3, 5, 6, 7, 9, 10, 11].getD n 0

/-- B58_DEC_LEN[k], none for ⊥ (R119). -/
def decLen : Nat → Option Nat
  | 0 => some 0
  | 2 => some 1
  | 3 => some 2
  | 5 => some 3
  | 6 => some 4
  | 7 => some 5
  | 9 => some 6
  | 10 => some 7
  | 11 => some 8
  | _ => none

/-- EncodeBlock (R120): the B58_ENC_LEN[n]-digit radix-58 numeral of the block's big-endian value, most significant digit
first, padded on the left with the zero symbol. -/
def encodeBlock (p : Params) (b : List Byte) : Run (List Byte) :=
  if b.length < 1 ∨ 8 < b.length then raise .invalidBlockLength b.length
  else .ok ((lowDigits 58 (encLen b.length) (beValue b)).map (symbolOf p)).reverse

/-- The symbol scan of DecodeBlock (R121), over the symbols from right to left: the symbol at the head stands at index
i = the number of symbols after it. It carries `sum` and `order`. -/
def scanSymbols (p : Params) (base : Nat) : List Byte → Nat → Nat → Run Nat
  | [], sum, _ => .ok sum
  | c :: cs, sum, order =>
    match indexOf p c with
    | none => raise .invalidSymbol (base + cs.length)
    | some d =>
      let sum' := order * d + sum
      if 2 ^ 64 - 1 < sum' then raise .overflow base else scanSymbols p base cs sum' (order * 58)

/-- DecodeBlock(t, base) (R121). -/
def decodeBlock (p : Params) (t : List Byte) (base : Nat) : Run (List Byte) :=
  match decLen t.length with
  | none => raise .invalidBlockLength t.length
  | some m =>
    if t.length = 0 then raise .invalidBlockLength t.length
    else
      match scanSymbols p base t.reverse 0 1 with
      | .error h => .error h
      | .ok sum => if m < 8 ∧ 2 ^ (8 * m) ≤ sum then raise .overflow base else .ok (beBytes m sum)

/-- The blocks of ENC58 one after another (R124): q full blocks of 8 bytes, then the rest if there is one. -/
def encodeBlocks (p : Params) : Nat → List Byte → Run (List Byte)
  | 0, b => if b = [] then .ok [] else encodeBlock p b
  | q + 1, b =>
    match encodeBlock p (b.take 8) with
    | .error h => .error h
    | .ok first =>
      match encodeBlocks p q (b.drop 8) with
      | .error h => .error h
      | .ok rest => .ok (first ++ rest)

/-- The blocks of DEC58 one after another (R125): q full blocks of 11 symbols, then the rest if there is one; `base` is
the offset of the next block from A_SRC. -/
def decodeBlocks (p : Params) : Nat → Nat → List Byte → Run (List Byte)
  | 0, base, t => if t = [] then .ok [] else decodeBlock p t base
  | q + 1, base, t =>
    match decodeBlock p (t.take 11) base with
    | .error h => .error h
    | .ok first =>
      match decodeBlocks p q (base + 11) (t.drop 11) with
      | .error h => .error h
      | .ok rest => .ok (first ++ rest)

/-- Gives the output of a codec run to A_DST (R122 to R125). -/
def emitRun (c : InFlight) : Run (List Byte) → Run Writes
  | .error h => .error h
  | .ok out => emit c out

/-- ENC58B (R122): exactly one raw block of 1 to 8 bytes. -/
def execEnc58b (s : State) : Host.Outcome State Fault Refusal :=
  s.command fun c =>
    let n := c.args.len.toNat
    withSource s.params c n <| withDest s.params c <|
      if n < 1 ∨ 8 < n then raise .invalidBlockLength n
      else readSource c n fun b => emitRun c (encodeBlock s.params b)

/-- DEC58B (R123): exactly one encoded block. -/
def execDec58b (s : State) : Host.Outcome State Fault Refusal :=
  s.command fun c =>
    let k := c.args.len.toNat
    withSource s.params c k <| withDest s.params c <|
      readSource c k fun t => emitRun c (decodeBlock s.params t 0)

/-- ENC58 (R124): a byte string of any length. -/
def execEnc58 (s : State) : Host.Outcome State Fault Refusal :=
  s.command fun c =>
    let n := c.args.len.toNat
    withSource s.params c n <| withDest s.params c <|
      readSource c n fun b => emitRun c (encodeBlocks s.params (n / 8) b)

/-- DEC58 (R125): an encoded string of any length; an illegal length of the last block is found before any symbol is
looked at. -/
def execDec58 (s : State) : Host.Outcome State Fault Refusal :=
  s.command fun c =>
    let n := c.args.len.toNat
    withSource s.params c n <| withDest s.params c <|
      if n % 11 = 1 ∨ n % 11 = 4 ∨ n % 11 = 8 then raise .invalidBlockLength (n % 11)
      else readSource c n fun t => emitRun c (decodeBlocks s.params (n / 11) 0 t)

end Sys2Proof.Machine
end

