-- ==== Sys2Proof/Machine/Compare.lean ====
section
/-! DEFINITION. Comparison and predicates; each writes R_VAL only (46_compare.md R107 to R116). -/

namespace Sys2Proof.Machine

/-- CMP (R108): sgn(V[RS1] − V[RS2]). -/
def execCmp (va vb : VReg) (s : State) : Host.Outcome State Fault Refusal :=
  s.command fun c => setVal (sext32 (c.v.read va - c.v.read vb).sign)

/-- CMPABS (R109): sgn(|V[RS1]| − |V[RS2]|). -/
def execCmpabs (va vb : VReg) (s : State) : Host.Outcome State Fault Refusal :=
  s.command fun c => setVal (sext32 (((c.v.read va).natAbs : Int) - ((c.v.read vb).natAbs : Int)).sign)

/-- SGN (R110): sgn(V[RS1]). -/
def execSgn (va : VReg) (s : State) : Host.Outcome State Fault Refusal :=
  s.command fun c => setVal (sext32 (c.v.read va).sign)

/-- ISZERO (R111): 1 if V[RS1] = 0. -/
def execIszero (va : VReg) (s : State) : Host.Outcome State Fault Refusal :=
  s.command fun c => setVal (flagWord (decide (c.v.read va = 0)))

/-- ISUNIT (R112): 1 if |V[RS1]| = 1. -/
def execIsunit (va : VReg) (s : State) : Host.Outcome State Fault Refusal :=
  s.command fun c => setVal (flagWord (decide ((c.v.read va).natAbs = 1)))

/-- ISEVEN (R113): 1 if V[RS1] is even; zero is. -/
def execIseven (va : VReg) (s : State) : Host.Outcome State Fault Refusal :=
  s.command fun c => setVal (flagWord (decide ((c.v.read va).natAbs % 2 = 0)))

/-- ISODD (R114): 1 if |V[RS1]| mod 2 = 1. -/
def execIsodd (va : VReg) (s : State) : Host.Outcome State Fault Refusal :=
  s.command fun c => setVal (flagWord (decide ((c.v.read va).natAbs % 2 = 1)))

/-- ISPOS (R115): 1 if V[RS1] > 0. -/
def execIspos (va : VReg) (s : State) : Host.Outcome State Fault Refusal :=
  s.command fun c => setVal (flagWord (decide (0 < c.v.read va)))

/-- ISNEG (R116): 1 if V[RS1] < 0. -/
def execIsneg (va : VReg) (s : State) : Host.Outcome State Fault Refusal :=
  s.command fun c => setVal (flagWord (decide (c.v.read va < 0)))

end Sys2Proof.Machine
end

