-- ==== Sys2Proof/Machine/DataMovement.lean ====
section
/-! DEFINITION. Value construction and data movement: NOP, LDK, MOV, LDRAW, STRAW, FROMBE and TOBE
(40_data_movement.md R77 to R84). -/

namespace Sys2Proof.Machine

/-- NOP (R78): writes nothing; its completion clears ERR_CODE and ERR_INFO. -/
def execNop (s : State) : Host.Outcome State Fault Refusal := s.command fun _ => .ok {}

/-- LDK (R79): V[RD] <- sext_8(IMM8). It always fits, since MAX_LIMBS ≥ 4. -/
def execLdk (vd : VReg) (imm : BitVec 8) (s : State) : Host.Outcome State Fault Refusal :=
  s.command fun _ => setReg vd imm.toInt

/-- MOV (R80): V[RD] <- V[RS1]. -/
def execMov (vd vs : VReg) (s : State) : Host.Outcome State Fault Refusal :=
  s.command fun c => setReg vd (c.v.read vs)

/-- LDRAW (R81): A_LEN limb words from A_SRC, each below 10^7, with the requested sign; leading zero limbs contribute
nothing and an all-zero array gives 0. -/
def execLdraw (vd : VReg) (neg : Bool) (s : State) : Host.Outcome State Fault Refusal :=
  s.command fun c =>
    let n := c.args.len.toNat
    withSource s.params c (4 * n) <|
      readSource c (4 * n) fun bs =>
        let ws := limbWords n bs
        match ws.findIdx? (fun w => decide (limbBase ≤ w)) with
        | some i => raise .invalidDigit i
        | none => storeValue s.params vd (signed neg (valueOf limbBase ws.reverse))

/-- STRAW (R82): the limbs of V[RS1] to A_DST, R_LEN the limb count, R_VAL the sign. -/
def execStraw (vs : VReg) (s : State) : Host.Outcome State Fault Refusal :=
  s.command fun c =>
    withDest s.params c <|
      let v := c.v.read vs
      let n := nlimbs v
      if c.args.cap.toNat < 4 * n then raise .outputSpace (4 * n)
      else
        .ok
          { dst := c.args.dst.toNat
            bytes := (limbs v).flatMap limbBytes
            rLen := some (BitVec.ofNat 32 n)
            rVal := some (sext32 v.sign) }

/-- FROMBE (R83): V[RD] <- the big-endian value of the A_LEN bytes at A_SRC. -/
def execFrombe (vd : VReg) (s : State) : Host.Outcome State Fault Refusal :=
  s.command fun c =>
    let n := c.args.len.toNat
    withSource s.params c n <|
      readSource c n fun bs => storeValue s.params vd (beValue bs)

/-- TOBE (R84): V[RS1] as exactly A_CAP big-endian bytes at A_DST. A value with more base-256 digits than that is one of
256^n or more. -/
def execTobe (vs : VReg) (s : State) : Host.Outcome State Fault Refusal :=
  s.command fun c =>
    withDest s.params c <|
      let v := c.v.read vs
      let n := c.args.cap.toNat
      if v < 0 then raise .negativeOperand 0
      else if n < (digits 256 v.natAbs).length then raise .overflow 0
      else
        .ok
          { dst := c.args.dst.toNat
            bytes := beBytes n v.natAbs
            rLen := some (BitVec.ofNat 32 n) }

end Sys2Proof.Machine
end

