-- ==== Sys2Proof/Machine/Divide.lean ====
section
/-! DEFINITION. The divider: DIVREM, DIV and REM, the quotient rounded toward zero and the remainder with the sign of the
dividend (44_divide.md R99 to R102; tdiv and trem of 00_scope.md R10). -/

namespace Sys2Proof.Machine

/-- tdiv(a, b): the quotient rounded toward zero, for b ≠ 0 (R10). -/
def tdiv (a b : Int) : Int := a.tdiv b

/-- trem(a, b) = a − b·tdiv(a, b) (R10). -/
def trem (a b : Int) : Int := a - b * tdiv a b

/-- DIVREM (R100): V[RD] <- quotient, V[RD2] <- remainder. The decoder gives no DIVREM with RD = RD2; asked for one, it is
the IllegalCommand that word is (R71). -/
def execDivrem (vq vr va vb : VReg) (s : State) : Host.Outcome State Fault Refusal :=
  s.command fun c =>
    let a := c.v.read va
    let b := c.v.read vb
    if vq = vr then raise .illegalCommand 0
    else if b = 0 then raise .divideByZero 0
    else .ok { regs := [(vq, tdiv a b), (vr, trem a b)] }

/-- DIV (R101): V[RD] <- tdiv(V[RS1], V[RS2]). -/
def execDiv (vd va vb : VReg) (s : State) : Host.Outcome State Fault Refusal :=
  s.command fun c =>
    if c.v.read vb = 0 then raise .divideByZero 0
    else setReg vd (tdiv (c.v.read va) (c.v.read vb))

/-- REM (R102): V[RD] <- trem(V[RS1], V[RS2]). -/
def execRem (vd va vb : VReg) (s : State) : Host.Outcome State Fault Refusal :=
  s.command fun c =>
    if c.v.read vb = 0 then raise .divideByZero 0
    else setReg vd (trem (c.v.read va) (c.v.read vb))

end Sys2Proof.Machine
end

