-- ==== Sys2Proof/Machine/Exponent.lean ====
section
/-! DEFINITION. Exponentiation: POW and MODPOW (45_exponent.md R104 to R106). Both are specified by their exact results;
the model computes them by square and multiply so that they can be evaluated for every exponent the spec admits. -/

namespace Sys2Proof.Machine

/-- MAX_EXP = 2^31 − 1 (R7). -/
def maxExp : Nat := 2147483647

/-- |a|^n if it has at most `limit` limbs, else none, by square and multiply: an intermediate with too many limbs means a
result with too many (R104). `fuel` bounds the bits of n. -/
def fittingPowerUpTo (limit a : Nat) : Nat → Nat → Option Nat
  | 0, _ => some 1
  | fuel + 1, n =>
    if n = 0 then some 1
    else
      match fittingPowerUpTo limit a fuel (n / 2) with
      | none => none
      | some h =>
        let m := if n % 2 = 1 then h * h * a else h * h
        if (digits limbBase m).length ≤ limit then some m else none

/-- a^n with the sign of a for odd n, if it fits, else CapacityExceeded(0) (R105, R132). -/
def storePower (p : Params) (r : VReg) (a : Int) (n : Nat) : Run Writes :=
  match fittingPowerUpTo p.maxLimbs a.natAbs (n.log2 + 1) n with
  | none => raise .capacityExceeded 0
  | some m => storeValue p r (signed (decide (a < 0) && decide (n % 2 = 1)) m)

/-- tdiv(1, a^k) for a ≠ 0 and k > 0: ±1 for a unit, by the parity of k, and 0 otherwise (R105). -/
def reciprocalPower (a : Int) (k : Nat) : Int :=
  if a = 1 then 1
  else if a = -1 then (if k % 2 = 1 then -1 else 1)
  else 0

/-- POW (R105): V[RD] <- V[RS1]^V[RS2], the checks in the spec's order. -/
def execPow (vd va vn : VReg) (s : State) : Host.Outcome State Fault Refusal :=
  s.command fun c =>
    let a := c.v.read va
    let n := c.v.read vn
    if maxExp < n.natAbs then raise .exponentTooLarge 0
    else if n = 0 then storeValue s.params vd 1
    else if n < 0 then
      if a = 0 then raise .divideByZero 0
      else storeValue s.params vd (reciprocalPower a n.natAbs)
    else storePower s.params vd a n.natAbs

/-- trem(a^n, m), reduced after every step (R104, R106); `fuel` bounds the bits of n. -/
def modularPowerUpTo (a m : Int) : Nat → Nat → Int
  | 0, _ => trem 1 m
  | fuel + 1, n =>
    if n = 0 then trem 1 m
    else
      let h := modularPowerUpTo a m fuel (n / 2)
      let q := trem (h * h) m
      if n % 2 = 1 then trem (q * a) m else q

/-- MODPOW (R106): V[RD] <- trem(V[RS1]^V[RS2], V[RS3]). -/
def execModpow (vd va ve vm : VReg) (s : State) : Host.Outcome State Fault Refusal :=
  s.command fun c =>
    let e := c.v.read ve
    let m := c.v.read vm
    if e < 0 then raise .negativeOperand 0
    else if m = 0 then raise .divideByZero 0
    else setReg vd (modularPowerUpTo (c.v.read va) m (e.natAbs.log2 + 1) e.natAbs)

end Sys2Proof.Machine
end

