-- ==== Sys2Proof/Machine/Multiply.lean ====
section
/-! DEFINITION. The multiplier: MUL and SQR, specified by their exact results (43_multiply.md R96 to R98). -/

namespace Sys2Proof.Machine

/-- MUL (R97): V[RD] <- V[RS1] · V[RS2]. -/
def execMul (vd va vb : VReg) (s : State) : Host.Outcome State Fault Refusal :=
  s.command fun c => storeValue s.params vd (c.v.read va * c.v.read vb)

/-- SQR (R98): V[RD] <- V[RS1] · V[RS1]. -/
def execSqr (vd vs : VReg) (s : State) : Host.Outcome State Fault Refusal :=
  s.command fun c => storeValue s.params vd (c.v.read vs * c.v.read vs)

end Sys2Proof.Machine
end

