-- ==== Sys2Proof/Machine/ParseFormat.lean ====
section
/-! DEFINITION. The base-conversion pipeline: PARSE and TOSTR (41_parse_format.md R85 to R89). -/

namespace Sys2Proof.Machine

/-! ### The exponential form (R85, R86) -/

/-- The parts of a string in exponential form: SIGN is '-', INT, FRAC, ESIGN is '-', EDIG (R85). -/
structure ExpForm where
  neg : Bool
  int : List Byte
  frac : List Byte
  expNeg : Bool
  exp : List Byte
  deriving DecidableEq, Repr

/-- An optional '+' or '-' taken off the front: whether it was '-', and the rest (R85: SIGN, ESIGN; R87: step 2). -/
def takeSign : List Byte → Bool × List Byte
  | [] => (false, [])
  | c :: cs => if c = 0x2D then (true, cs) else if c = 0x2B then (false, cs) else (false, c :: cs)

/-- MARK taken off the front: 'e', 'E' or '*10^' (R85). -/
def takeMark : List Byte → Option (List Byte)
  | [] => none
  | c :: cs =>
    if c = 0x65 ∨ c = 0x45 then some cs
    else if c = 0x2A ∧ cs.take 3 = [0x31, 0x30, 0x5E] then some (cs.drop 3)
    else none

/-- The optional '.' FRAC taken off the front (R85). -/
def takeFraction : List Byte → List Byte × List Byte
  | [] => ([], [])
  | c :: cs => if c = 0x2E then (cs.takeWhile isDecimal, cs.dropWhile isDecimal) else ([], c :: cs)

/-- The whole of s read as EXP, or none (R85). Runs of digits are taken as long as they go: what may follow one is never a
digit. -/
def expForm (s : List Byte) : Option ExpForm :=
  let sign := takeSign s
  let int := sign.2.takeWhile isDecimal
  let fraction := takeFraction (sign.2.dropWhile isDecimal)
  match takeMark fraction.2 with
  | none => none
  | some rest =>
    let esign := takeSign rest
    if int ≠ [] ∧ esign.2 ≠ [] ∧ esign.2.all isDecimal then
      some { neg := sign.1, int := int, frac := fraction.1, expNeg := esign.1, exp := esign.2 }
    else none

/-- The decimal value of a run of digit characters. -/
def decimalValue (s : List Byte) : Nat := valueOf 10 (s.map fun c => c.toNat - 0x30)

/-- k = E − len(F) (R86). -/
def ExpForm.shift (e : ExpForm) : Int :=
  (if e.expNeg then -(decimalValue e.exp : Int) else (decimalValue e.exp : Int)) - e.frac.length

/-- The magnitude of an exponential form (R86): M·10^k, or M / 10^(−k) where that is exact, else InvalidFormat(0).
A power of ten that alone needs more than MAX_LIMBS limbs is not computed: with M ≠ 0 the result does not fit
(CapacityExceeded), and 10^(−k) with −k above the number of digits of M does not divide M. -/
def expMagnitude (p : Params) (e : ExpForm) : Run Nat :=
  let m := decimalValue (e.int ++ e.frac)
  let k := e.shift
  if m = 0 then .ok 0
  else if 0 ≤ k then
    if k.toNat < 7 * p.maxLimbs then .ok (m * power 10 k.toNat) else raise .capacityExceeded 0
  else if (e.int ++ e.frac).length < (-k).toNat then raise .invalidFormat 0
  else if m % power 10 (-k).toNat = 0 then .ok (m / power 10 (-k).toNat)
  else raise .invalidFormat 0

/-! ### Plain numerals (R87, R88) -/

/-- Step 3 of R87, for an omitted base: the radix a prefix names (0x 16, 0c 8, 0b 2, either case), else 10; the digits
left; how many bytes the prefix took. -/
def detectRadix : List Byte → Nat × List Byte × Nat
  | z :: c :: rest =>
    if z = 0x30 ∧ (c = 0x78 ∨ c = 0x58) then (16, rest, 2)
    else if z = 0x30 ∧ (c = 0x63 ∨ c = 0x43) then (8, rest, 2)
    else if z = 0x30 ∧ (c = 0x62 ∨ c = 0x42) then (2, rest, 2)
    else (10, z :: c :: rest, 0)
  | s => (10, s, 0)

/-- Step 4 of R87: the digit values in radix r, or the error of the first offending byte; `i` is the offset of the first
byte of the list. -/
def scanDigits (r : Nat) : Nat → List Byte → Run (List Nat)
  | _, [] => .ok []
  | i, c :: cs =>
    if c = 0x2E then raise .invalidFormat i
    else
      match digval c with
      | none => raise .invalidDigit i
      | some d =>
        if d < r then
          match scanDigits r (i + 1) cs with
          | .ok ds => .ok (d :: ds)
          | .error h => .error h
        else raise .invalidDigit i

/-- Steps 2 to 5 of R87: the value of a plain numeral; r = 0 means the base is omitted. -/
def plainNumeral (r : Nat) (s : List Byte) : Run Int :=
  let sign := takeSign s
  let start := s.length - sign.2.length
  let form := if r = 0 then detectRadix sign.2 else (r, sign.2, 0)
  match scanDigits form.1 (start + form.2.2) form.2.1 with
  | .ok ds => .ok (signed sign.1 (valueOf form.1 ds))
  | .error h => .error h

/-- Steps 1 to 5 of R87: the exponential form where it applies (base omitted or 10), else a plain numeral. -/
def numeral (p : Params) (r : Nat) (s : List Byte) : Run Int :=
  match (if r = 0 ∨ r = 10 then expForm s else none) with
  | some e =>
    match expMagnitude p e with
    | .ok m => .ok (signed e.neg m)
    | .error h => .error h
  | none => plainNumeral r s

/-- PARSE (R87): the numeral of A_LEN bytes at A_SRC into V[RD]; radix 0 means the base is omitted. -/
def execParse (vd : VReg) (radix : BitVec 8) (s : State) : Host.Outcome State Fault Refusal :=
  s.command fun c =>
    let n := c.args.len.toNat
    let r := radix.toNat
    withSource s.params c n <|
      if r = 1 ∨ 36 < r then raise .invalidRadix r
      else
        readSource c n fun str =>
          match numeral s.params r str with
          | .ok v => storeValue s.params vd v
          | .error h => .error h

/-! ### Formatting (R89) -/

/-- The text of v in radix r: "0", or '-' if negative and the digits of |v|, most significant first (R89). -/
def text (r : Nat) (v : Int) : List Byte :=
  if v = 0 then [0x30]
  else (if v < 0 then [0x2D] else []) ++ ((digits r v.natAbs).map sym).reverse

/-- TOSTR (R89): the text of V[RS1] to A_DST, in radix IMM8, where 0 means 10. -/
def execTostr (vs : VReg) (radix : BitVec 8) (s : State) : Host.Outcome State Fault Refusal :=
  s.command fun c =>
    let r := if radix.toNat = 0 then 10 else radix.toNat
    withDest s.params c <|
      if r = 1 ∨ 36 < r then raise .invalidRadix radix.toNat
      else emit c (text r (c.v.read vs))

end Sys2Proof.Machine
end

