-- ==== Sys2Proof/Machine/Dispatch.lean ====
section
/-! DEFINITION. The meaning of every command, one arm per constructor: the completion step of the command in flight when
its word decodes to that instruction (60_exceptions.md R133). -/

namespace Sys2Proof.Machine

def exec (i : Instr) (s : State) : Host.Outcome State Fault Refusal :=
  match i with
  -- 40_data_movement.md
  | .nop => Sys2Proof.Machine.execNop s
  | .ldk vd imm => Sys2Proof.Machine.execLdk vd imm s
  | .mov vd vs => Sys2Proof.Machine.execMov vd vs s
  | .ldraw vd neg => Sys2Proof.Machine.execLdraw vd neg s
  | .straw vs => Sys2Proof.Machine.execStraw vs s
  | .frombe vd => Sys2Proof.Machine.execFrombe vd s
  | .tobe vs => Sys2Proof.Machine.execTobe vs s
  -- 41_parse_format.md
  | .parse vd radix => Sys2Proof.Machine.execParse vd radix s
  | .tostr vs radix => Sys2Proof.Machine.execTostr vs radix s
  -- 42_add_sub.md
  | .add vd va vb => Sys2Proof.Machine.execAdd vd va vb s
  | .sub vd va vb => Sys2Proof.Machine.execSub vd va vb s
  | .neg vd vs => Sys2Proof.Machine.execNeg vd vs s
  -- 43_multiply.md
  | .mul vd va vb => Sys2Proof.Machine.execMul vd va vb s
  | .sqr vd vs => Sys2Proof.Machine.execSqr vd vs s
  -- 44_divide.md
  | .divrem vq vr va vb => Sys2Proof.Machine.execDivrem vq vr va vb s
  | .div vd va vb => Sys2Proof.Machine.execDiv vd va vb s
  | .rem vd va vb => Sys2Proof.Machine.execRem vd va vb s
  -- 45_exponent.md
  | .pow vd va vn => Sys2Proof.Machine.execPow vd va vn s
  | .modpow vd va ve vm => Sys2Proof.Machine.execModpow vd va ve vm s
  -- 46_compare.md
  | .cmp va vb => Sys2Proof.Machine.execCmp va vb s
  | .cmpabs va vb => Sys2Proof.Machine.execCmpabs va vb s
  | .sgn va => Sys2Proof.Machine.execSgn va s
  | .iszero va => Sys2Proof.Machine.execIszero va s
  | .isunit va => Sys2Proof.Machine.execIsunit va s
  | .iseven va => Sys2Proof.Machine.execIseven va s
  | .isodd va => Sys2Proof.Machine.execIsodd va s
  | .ispos va => Sys2Proof.Machine.execIspos va s
  | .isneg va => Sys2Proof.Machine.execIsneg va s
  -- 47_base58.md
  | .enc58 => Sys2Proof.Machine.execEnc58 s
  | .dec58 => Sys2Proof.Machine.execDec58 s
  | .enc58b => Sys2Proof.Machine.execEnc58b s
  | .dec58b => Sys2Proof.Machine.execDec58b s

end Sys2Proof.Machine
end

