-- ==== Sys2Proof/Machine/Sequencer.lean ====
section
/-! DEFINITION. The sequencer: issue of a command word and the completion step of the command in flight (10_state.md R17,
R28; 30_encoding.md R71; 60_exceptions.md R133). -/

namespace Sys2Proof.Machine

/-- What the command word w does at the completion of the command in flight: the meaning of the command it names, or
IllegalCommand(0) if it names none (R71, R72). -/
def runWord (w : Word) (s : State) : Host.Outcome State Fault Refusal :=
  match decode w with
  | some i => exec i s
  | none => s.complete (raise .illegalCommand 0)

/-- The completion step (R133). With nothing in flight the sequencer is idle, and an idle block keeps all its state
(R145). -/
def completeInFlight (s : State) : Host.Outcome State Fault Refusal :=
  match s.inflight with
  | some c => runWord c.word s
  | none => .next s

/-- The issue of command word w in one step (R28). The command's buffer input is read now, so a read of an unwritten byte
is the model fault here (R23); whatever else the command comes to takes effect at its completion only. -/
def issue (w : Word) (s : State) : Host.Outcome State Fault Refusal :=
  match completeInFlight (s.latch w) with
  | .fault f => .fault f
  | .refused r => .refused r
  | .next _ => .next (s.latch w)

end Sys2Proof.Machine
end

