-- ==== Sys2Proof/Machine/HostBus.lean ====
section
/-! DEFINITION. What the outside world can do to the block: the host's reads and writes of the registers and windows
(10_state.md R24 to R39, 20_memory.md R44 to R50), the two resets (70_reset_and_hazards.md R146 to R150), and the turn
given to the sequencer. -/

namespace Sys2Proof.Machine

/-! ### The host address space (R24, R45) -/

/-- What stands at an offset of the host address space. -/
inductive HostReg where
  | id | ctrl | status | cmd
  | aSrc | aLen | aDst | aCap
  | rVal | rLen | errCode | errInfo
  | cfgNv | cfgMaxl | cfgBuf
  | vsel | vsign | vlen
  | vlimb (k : Nat)
  | bufWin (o : Nat)
  | unmapped
  deriving DecidableEq, Repr

/-- The register map (R24), for an offset that is a multiple of 4. -/
def regAt (p : Params) (offset : Nat) : HostReg :=
  if offset < 0x01000 then
    match offset with
    | 0x00 => .id
    | 0x04 => .ctrl
    | 0x08 => .status
    | 0x0C => .cmd
    | 0x10 => .aSrc
    | 0x14 => .aLen
    | 0x18 => .aDst
    | 0x1C => .aCap
    | 0x20 => .rVal
    | 0x24 => .rLen
    | 0x28 => .errCode
    | 0x2C => .errInfo
    | 0x30 => .cfgNv
    | 0x34 => .cfgMaxl
    | 0x38 => .cfgBuf
    | 0x40 => .vsel
    | 0x44 => .vsign
    | 0x48 => .vlen
    | _ => .unmapped
  else if offset < 0x10000 then
    if (offset - 0x01000) / 4 < p.maxLimbs then .vlimb ((offset - 0x01000) / 4) else .unmapped
  else if offset - 0x10000 < p.bufBytes then .bufWin (offset - 0x10000)
  else .unmapped

/-- The registers and windows whose read while BUSY = 1 returns an UNSPECIFIED word (R50). -/
def HostReg.volatile : HostReg → Bool
  | .rVal | .rLen | .errCode | .errInfo | .vsign | .vlen | .vlimb _ | .bufWin _ => true
  | .id | .ctrl | .status | .cmd | .aSrc | .aLen | .aDst | .aCap | .cfgNv | .cfgMaxl | .cfgBuf | .vsel
  | .unmapped => false

/-- The buffer word at offset o, buffer byte o in bits 7 to 0; none if one of its bytes is unwritten (R23, R39). -/
def bufferWord (m : Memory) (o : Nat) : Option Word :=
  match m.byteAt o, m.byteAt (o + 1), m.byteAt (o + 2), m.byteAt (o + 3) with
  | some b0, some b1, some b2, some b3 => some (b3 ++ b2 ++ b1 ++ b0)
  | _, _, _, _ => none

/-- The four buffer bytes of a word, in offset order (R39). -/
def wordBytes (w : Word) : List Byte :=
  [w.extractLsb' 0 8, w.extractLsb' 8 8, w.extractLsb' 16 8, w.extractLsb' 24 8]

/-- The exact value of a register or window word (R25 to R39); an unmapped offset reads 0 (R47). `none` only for a buffer
word with an unwritten byte. -/
def State.readReg (s : State) : HostReg → Option Word
  | .id => some 0x42353801
  | .ctrl => some s.ctrlWord
  | .status => some s.statusWord
  | .cmd => some s.cmd
  | .aSrc => some s.args.src
  | .aLen => some s.args.len
  | .aDst => some s.args.dst
  | .aCap => some s.args.cap
  | .rVal => some s.rVal
  | .rLen => some s.rLen
  | .errCode => some (s.errCode.number.setWidth 32)
  | .errInfo => some s.errInfo
  | .cfgNv => some 16
  | .cfgMaxl => some (BitVec.ofNat 32 s.params.maxLimbs)
  | .cfgBuf => some (BitVec.ofNat 32 s.params.bufBytes)
  | .vsel => some (BitVec.ofNat 32 s.vsel.val)
  | .vsign => some (sext32 (s.v.read s.vsel).sign)
  | .vlen => some (BitVec.ofNat 32 (nlimbs (s.v.read s.vsel)))
  | .vlimb k => some (BitVec.ofNat 32 ((limbs (s.v.read s.vsel)).getD k 0))
  | .bufWin o => bufferWord s.buf o
  | .unmapped => some 0

/-- A host read (R46, R48: no side effect; the word goes to `rdata`). While a command is in flight a volatile register
gives a free word (R50); otherwise a buffer word with an unwritten byte is the model fault of R23. -/
def hostRead (r : HostReg) (s : State) : Host.Outcome State Fault Refusal :=
  if s.busy && r.volatile then
    .next { s with rdata := Config.freeWord s.freeCount, freeCount := s.freeCount + 1 }
  else
    match s.readReg r with
    | some w => .next { s with rdata := w }
    | none => .fault .uninitialisedBuffer

/-! ### Resets (R146 to R150) -/

/-- Hard reset: every field at its hard-reset value, the buffer unwritten, the command in flight abandoned (R146, R148,
R150). The parameters stay, and so do the model's own fields: they are no block state. -/
def State.hardReset (s : State) : State :=
  { State.resetOf s.params with
    resetLine := s.resetLine
    rdata := s.rdata
    freeCount := s.freeCount
    inputs := s.inputs }

/-- Soft reset: the hard reset, but the buffer is unchanged and CTRL.IE takes the written bit 0 (R147, R149). -/
def State.softReset (s : State) (ie : Bool) : State := { s.hardReset with buf := s.buf, ie := ie }

/-! ### Host writes (R47, R48) -/

/-- A host write of word w. A write to a read-only register or an unmapped offset is ignored (R47). -/
def hostWrite (r : HostReg) (w : Word) (s : State) : Host.Outcome State Fault Refusal :=
  match r with
  | .ctrl =>
    if w.getLsbD 1 then .next (s.softReset (w.getLsbD 0)) else .next { s with ie := w.getLsbD 0 }
  | .status => .next { s with done := s.done && !w.getLsbD 1, ovr := s.ovr && !w.getLsbD 3 }
  | .cmd => if s.busy then .next { s with ovr := true } else issue w s
  | .aSrc => .next { s with args := { s.args with src := w } }
  | .aLen => .next { s with args := { s.args with len := w } }
  | .aDst => .next { s with args := { s.args with dst := w } }
  | .aCap => .next { s with args := { s.args with cap := w } }
  | .vsel => .next { s with vsel := (w.extractLsb' 0 4).toFin }
  | .bufWin o =>
    if s.busy then .fault (.hostProtocolViolation .bufferWriteWhileBusy)
    else .next { s with buf := s.buf.write o (wordBytes w) }
  | .id | .rVal | .rLen | .errCode | .errInfo | .cfgNv | .cfgMaxl | .cfgBuf | .vsign | .vlen | .vlimb _
  | .unmapped => .next s

/-! ### Events -/

/-- One host access (R46, R49): a violation faults; an aligned 32-bit access reaches what stands at its offset. -/
def hostAccess (width : Nat) (offset : BitVec 17) (op : HostOp) (s : State) : Host.Outcome State Fault Refusal :=
  if s.resetLine then .fault (.hostProtocolViolation .accessDuringReset)
  else if width ≠ 32 ∨ offset.toNat % 4 ≠ 0 then .fault (.hostProtocolViolation .notAlignedWord)
  else
    match op with
    | .read => hostRead (regAt s.params offset.toNat) s
    | .write w => hostWrite (regAt s.params offset.toNat) w s

/-- The hard-reset input goes to a level (R146): every field takes its reset value while it is asserted and at its release;
a level it already has low changes nothing. -/
def setResetLine (level : Bool) (s : State) : State :=
  if level || s.resetLine then { s.hardReset with resetLine := level } else s

/-- One event. -/
def handle (e : Event) (s : State) : Host.Outcome State Fault Refusal :=
  match e with
  | .access width offset op => hostAccess width offset op s
  | .hardReset level => .next (setResetLine level s)
  | .sequencer => completeInFlight s

end Sys2Proof.Machine
end

