-- ==== Sys2Proof/Machine/Step.lean ====
section
/-! DEFINITION. One step of the machine. -/

namespace Sys2Proof.Machine

/-- One step: the next event takes effect (R17, R59: host accesses in the host's order, the completion at one later step).
When no event is left the sequencer has the turn: a command in flight completes (R154: completion is weakly fair), and an
idle block keeps its state (R145). -/
def step (s : State) : Host.Outcome State Fault Refusal :=
  match s.inputs with
  | [] => completeInFlight s
  | e :: rest => handle e { s with inputs := rest }

/-- The state in which the next step runs the command numbered as spec/opcode_table.json numbers it. The block fetches
nothing (R41, R62): a command comes to run by the host's write of CMD, so this is that write's issue (R28) with the
sequencer's turn next (log entry 5). -/
def State.withFetchWord (s : State) (nbits w : Nat) : State :=
  { s.latch ((tableWord nbits w).getD 0) with
    resetLine := false
    inputs := .sequencer :: s.inputs }

end Sys2Proof.Machine
end

