-- ==== Sys2Proof/Safety.lean ====
section
/-! DEFINITION. The terms claims are stated in: what each command may write (10_state.md R42, the Writes lines of
40_data_movement.md to 47_base58.md), the bytes it reads and stores (30_encoding.md R69), and the invariant that every
step keeps. -/

namespace Sys2Proof

/-- The destination value registers of a command (R66, R70). -/
def Instr.dests : Instr → List VReg
  | .ldk vd _ | .mov vd _ | .ldraw vd _ | .frombe vd | .parse vd _ | .add vd _ _ | .sub vd _ _ | .neg vd _
  | .mul vd _ _ | .sqr vd _ | .div vd _ _ | .rem vd _ _ | .pow vd _ _ | .modpow vd _ _ _ => [vd]
  | .divrem vq vr _ _ => [vq, vr]
  | .nop | .straw _ | .tobe _ | .tostr _ _ | .cmp _ _ | .cmpabs _ _ | .sgn _ | .iszero _ | .isunit _
  | .iseven _ | .isodd _ | .ispos _ | .isneg _ | .enc58 | .dec58 | .enc58b | .dec58b => []

/-- The commands that write R_VAL (R42). -/
def Instr.writesVal : Instr → Bool
  | .straw _ | .cmp _ _ | .cmpabs _ _ | .sgn _ | .iszero _ | .isunit _ | .iseven _ | .isodd _ | .ispos _
  | .isneg _ => true
  | .nop | .ldk _ _ | .mov _ _ | .ldraw _ _ | .frombe _ | .tobe _ | .parse _ _ | .tostr _ _ | .add _ _ _
  | .sub _ _ _ | .neg _ _ | .mul _ _ _ | .sqr _ _ | .divrem _ _ _ _ | .div _ _ _ | .rem _ _ _ | .pow _ _ _
  | .modpow _ _ _ _ | .enc58 | .dec58 | .enc58b | .dec58b => false

/-- The commands that write R_LEN, which are the ones that store to the buffer (R42). -/
def Instr.storing : Instr → Bool
  | .straw _ | .tobe _ | .tostr _ _ | .enc58 | .dec58 | .enc58b | .dec58b => true
  | .nop | .ldk _ _ | .mov _ _ | .ldraw _ _ | .frombe _ | .parse _ _ | .add _ _ _ | .sub _ _ _ | .neg _ _
  | .mul _ _ _ | .sqr _ _ | .divrem _ _ _ _ | .div _ _ _ | .rem _ _ _ | .pow _ _ _ | .modpow _ _ _ _
  | .cmp _ _ | .cmpabs _ _ | .sgn _ | .iszero _ | .isunit _ | .iseven _ | .isodd _ | .ispos _
  | .isneg _ => false

/-- The span in bytes of the source range a command reads at A_SRC, none if it has no source range (R69). -/
def Instr.sourceSpan (args : Machine.Args) : Instr → Option Nat
  | .ldraw _ _ => some (4 * args.len.toNat)
  | .frombe _ | .parse _ _ | .enc58 | .dec58 | .enc58b | .dec58b => some args.len.toNat
  | .nop | .ldk _ _ | .mov _ _ | .straw _ | .tobe _ | .tostr _ _ | .add _ _ _ | .sub _ _ _ | .neg _ _
  | .mul _ _ _ | .sqr _ _ | .divrem _ _ _ _ | .div _ _ _ | .rem _ _ _ | .pow _ _ _ | .modpow _ _ _ _
  | .cmp _ _ | .cmpabs _ _ | .sgn _ | .iszero _ | .isunit _ | .iseven _ | .isodd _ | .ispos _
  | .isneg _ => none

/-- The register field of a command word that starts at bit k (R66). -/
def fieldAt (w : Word) (k : Nat) : VReg := (w.extractLsb' k 4).toFin

/-- The decoder's side of a row of the opcode map: a word that matches the row's mask is the command `mk` makes of its
fields, and any other word with the row's opcode in bits 7 to 0 names no command (R67, R71, R72). -/
def Encodes (mask pattern : Word) (mk : Word → Instr) : Prop :=
  ∀ w : Word, (w &&& mask = pattern → decode w = some (mk w)) ∧
    (w.extractLsb' 0 8 = pattern.extractLsb' 0 8 → w &&& mask ≠ pattern → decode w = none)

namespace Machine

/-! ### The states a completion leaves (R131, R133), written out for claims -/

/-- After an error completion: the error registers and STATUS, nothing else (R131). -/
def State.afterError (s : State) (e : ErrCode) (info : Nat) : State :=
  { s with errCode := e, errInfo := BitVec.ofNat 32 info, done := true, inflight := none }

/-- After a success that writes nothing else: no error, DONE, nothing in flight (R133). -/
def State.afterSuccess (s : State) : State :=
  { s with errCode := .noError, errInfo := 0, done := true, inflight := none }

/-- After a success that writes value register r and nothing else. -/
def State.afterWrite (s : State) (r : VReg) (x : Int) : State := { s.afterSuccess with v := s.v.write r x }

/-- After a command whose exact result is x: V[r] <- x if |x| < 10^(7·MAX_LIMBS), else CapacityExceeded(0) (R8, R132). -/
def State.afterResult (s : State) (r : VReg) (x : Int) : State :=
  if x.natAbs < 10 ^ (7 * s.params.maxLimbs) then s.afterWrite r x else s.afterError .capacityExceeded 0

/-- After a success that writes R_VAL and nothing else. -/
def State.afterVal (s : State) (x : Word) : State := { s.afterSuccess with rVal := x }

/-- After a success that stores bytes at offset a of the buffer and their number in R_LEN. -/
def State.afterStore (s : State) (a : Nat) (bs : List Byte) : State :=
  { s.afterSuccess with buf := s.buf.write a bs, rLen := BitVec.ofNat 32 bs.length }

/-! ### What claims say of integers -/

/-- tdiv(a, b) = sgn(a)·sgn(b)·floor(|a| / |b|) (R10). -/
def truncQuot (a b : Int) : Int := a.sign * b.sign * ((a.natAbs / b.natAbs : Nat) : Int)

/-- trem(a, b) = a − b·tdiv(a, b) (R10). -/
def truncRem (a b : Int) : Int := a - b * truncQuot a b

/-- The word of a sign: sext_32(sgn(x)) (R30). -/
def signWord (x : Int) : Word := if x < 0 then 0xFFFFFFFF else if x = 0 then 0 else 1

/-! ### What claims say of byte strings -/

/-- The n bytes of the in-flight command's buffer from A_SRC on are bs, each of them written (R12: MemRead). -/
def InFlight.Source (c : InFlight) (bs : List Byte) : Prop :=
  ∀ i, i < bs.length → c.buf.byteAt (c.args.src.toNat + i) = some (bs.getD i 0)

/-- The value of base-b digits, most significant first, as the sum the spec writes: Σ d_i·b^(n−1−i) (R52, R87). -/
def sumOf (b : Nat) (ds : List Nat) : Nat := ∑ i ∈ Finset.range ds.length, ds.getD i 0 * b ^ (ds.length - 1 - i)

/-- The little-endian word of 4 bytes that starts at index 4i of a byte string (R55). -/
def limbWordAt (bs : List Byte) (i : Nat) : Nat := ∑ j ∈ Finset.range 4, (bs.getD (4 * i + j) 0).toNat * 256 ^ j

/-- The length of the encoding of n ≤ 8 raw bytes: B58_ENC_LEN[n] (R119). -/
def encLenTable : List Nat := [0, 2, 3, 5, 6, 7, 9, 10, 11]

/-- Block j of a byte string cut into blocks of k bytes, the last one as long as what is left (R124, R125). -/
def blockAt (k j : Nat) (bs : List Byte) : List Byte := (bs.drop (k * j)).take k

/-- The symbols are those of these digit values (R117). -/
def SymbolsOf (p : Params) (ds : List Nat) (t : List Byte) : Prop :=
  (∀ d ∈ ds, d < 58) ∧ t = ds.map fun d => p.alphabet.toList.getD d 0

/-- `enc` is the fixed-length radix-58 numeral of the raw block, most significant symbol first (R119, R120): for 1 to 8 raw
bytes, B58_ENC_LEN symbols whose digit values sum to the block's big-endian value. -/
def EncodedBlock (p : Params) (raw enc : List Byte) : Prop :=
  1 ≤ raw.length ∧ raw.length ≤ 8 ∧
    ∃ ds : List Nat, ds.length = encLenTable.getD raw.length 0 ∧ SymbolsOf p ds enc ∧
      sumOf 58 ds = sumOf 256 (raw.map (·.toNat))

/-- Byte c is a symbol of the alphabet (R118). -/
def IsSymbol (p : Params) (c : Byte) : Prop := c ∈ p.alphabet.toList

/-- An optional sign (R85: SIGN, ESIGN; R87: step 2). -/
def IsSign (s : List Byte) : Prop := s = [] ∨ s = [0x2B] ∨ s = [0x2D]

/-- The value of magnitude m under an optional sign; zero carries none (R86, R87). -/
def valueUnder (sg : List Byte) (m : Nat) : Int := if sg = [0x2D] then -(m : Int) else m

/-- A run of decimal digit characters '0'..'9' (R85: DIG*). -/
def IsDigits (s : List Byte) : Prop := ∀ c ∈ s, 0x30 ≤ c.toNat ∧ c.toNat ≤ 0x39

/-- The decimal value of a run of digit characters. -/
def decimalOf (s : List Byte) : Nat := sumOf 10 (s.map fun c => c.toNat - 0x30)

/-- The string is SIGN? INT ( '.' FRAC )? MARK ESIGN? EDIG (R85), with these parts; `dot` says whether the '.' is
there. -/
structure ExpString (str sg int frac esg edig : List Byte) (dot : Bool) (mark : List Byte) : Prop where
  whole : str = sg ++ int ++ (if dot then 0x2E :: frac else []) ++ mark ++ esg ++ edig
  sign : IsSign sg
  intDigits : int ≠ [] ∧ IsDigits int
  fracDigits : IsDigits frac ∧ (dot = false → frac = [])
  markForm : mark = [0x65] ∨ mark = [0x45] ∨ mark = [0x2A, 0x31, 0x30, 0x5E]
  expSign : IsSign esg
  expDigits : edig ≠ [] ∧ IsDigits edig

/-- The string is in exponential form (R85). -/
def IsExponential (str : List Byte) : Prop :=
  ∃ sg int frac esg edig dot mark, ExpString str sg int frac esg edig dot mark

/-- The prefixes of R87 step 3, for an omitted base, with the radix each names. -/
def radixPrefixes : List (List Byte × Nat) :=
  [([0x30, 0x78], 16), ([0x30, 0x58], 16), ([0x30, 0x63], 8), ([0x30, 0x43], 8), ([0x30, 0x62], 2), ([0x30, 0x42], 2)]

/-- A plain numeral's layout (R87, steps 2 and 3): the string is a sign, a prefix and the rest; r is the radix the rest is
read in. With an explicit base there is no prefix. With base omitted, a prefix that stands there is taken. What follows an
absent sign does not begin with one. -/
structure PlainString (str : List Byte) (imm : Nat) (sg pre rest : List Byte) (r : Nat) : Prop where
  whole : str = sg ++ pre ++ rest
  sign : IsSign sg
  noSign : sg = [] → ∀ c tail, str = c :: tail → c ≠ 0x2B ∧ c ≠ 0x2D
  explicitBase : imm ≠ 0 → pre = [] ∧ r = imm
  omittedBase : imm = 0 →
    (pre, r) ∈ radixPrefixes ∨ (pre = [] ∧ r = 10 ∧ ∀ q ∈ radixPrefixes, ¬ q.1 <+: rest)

/-! ### The invariant -/

/-- What every step keeps, from any state that has it.
The parameters are legal (R7). Every value register fits (R18). The buffer is in its canonical form and inside
0..BUF_BYTES − 1 (R22). ERR_INFO is 0 after a completion without error (R33). A command in flight is the one in CMD, its
snapshot is what the registers and the buffer hold, DONE is 0 and no reset is asserted (R28, R40). The sequencer's step
always completes (R127). While the hard reset is asserted nothing is in flight and nothing is written (R146). -/
structure State.Inv (s : State) : Prop where
  params : s.params.wf = true
  fits : ∀ r : VReg, fits s.params (s.v.read r) = true
  bufWf : s.buf.wf = true
  bufBelow : s.buf.below s.params.bufBytes = true
  errInfo : s.errCode = .noError → s.errInfo = 0
  inflight : ∀ c, s.inflight = some c →
    c.word = s.cmd ∧ c.v = s.v ∧ c.buf = s.buf ∧ s.done = false ∧ s.resetLine = false
  completes : ∃ t, completeInFlight s = .next t
  inReset : s.resetLine = true → s.inflight = none ∧ s.buf = []

end Machine
end Sys2Proof
end

