-- ==== Sys2Proof/Certificates/Slice0/Obligations.lean ====
section
/-! DEFINITION. The statements for the provers. `c` is always the command in flight: its latched arguments and the registers
and buffer it read at issue (10_state.md R40). A statement about an instruction gives the whole next state, so that it is
its own frame; the statements about every command give the frames again for each kind of state. -/

open Sys2Proof Sys2Proof.Machine

/-! ### Encoding (30_encoding.md) -/

/-- (mask, match) of the 32 rows of the opcode map (R67, R70), as spec/opcode_table.json has them. -/
def Sys2Proof.opcodeRows : List (Word × Word) :=
  [(0xFFFFFFFF, 0x00), (0x00FFF0FF, 0x01), (0xFFFF00FF, 0x02), (0xFEFFF0FF, 0x04), (0xFFFF0FFF, 0x05),
   (0xFFFFF0FF, 0x06), (0xFFFF0FFF, 0x07), (0x00FFF0FF, 0x08), (0x00FF0FFF, 0x09)]
  ++ [(0xFFF000FF, 0x10), (0xFFF000FF, 0x11), (0xFFFF00FF, 0x12), (0xFFF000FF, 0x18), (0xFFFF00FF, 0x19),
   (0xFF0000FF, 0x20), (0xFFF000FF, 0x21), (0xFFF000FF, 0x22), (0xFFF000FF, 0x28), (0xFF0000FF, 0x29)]
  ++ [(0xFFF00FFF, 0x30), (0xFFF00FFF, 0x31), (0xFFFF0FFF, 0x32), (0xFFFF0FFF, 0x33), (0xFFFF0FFF, 0x34),
   (0xFFFF0FFF, 0x35), (0xFFFF0FFF, 0x36), (0xFFFF0FFF, 0x37), (0xFFFF0FFF, 0x38), (0xFFFFFFFF, 0x40),
   (0xFFFFFFFF, 0x41), (0xFFFFFFFF, 0x42), (0xFFFFFFFF, 0x43)]

/-- Every command's word decodes to the command again: no operand bit is dropped (R66, R67, R70, R71). -/
def Obligations.DecodeOfEncodeIsIdentity : Prop :=
  ∀ i : Instr, i.wf = true → decode (encode i) = some i

/-- Every word that names a command is that command's one word (R65, R66, R71). -/
def Obligations.EncodeOfDecodeIsIdentity : Prop :=
  ∀ (w : Word) (i : Instr), decode w = some i → i.wf = true ∧ encode i = w

/-- R72: the illegal words are the words no row matches, and a DIVREM with RD = RD2. Each completes with IllegalCommand and
ERR_INFO = 0, and has no other effect. -/
def Obligations.IllegalWordsCompleteWithIllegalCommand : Prop :=
  ∀ w : Word,
    (decode w = none ↔
      (∀ row ∈ opcodeRows, w &&& row.1 ≠ row.2) ∨
        (w &&& 0xFF0000FF = 0x20 ∧ w.extractLsb' 8 4 = w.extractLsb' 20 4)) ∧
    (decode w = none → ∀ (s : State) (c : InFlight), s.inflight = some c → c.word = w →
      completeInFlight s =
        .next { s with errCode := .illegalCommand, errInfo := 0, done := true, inflight := none })

/-- The words the spec writes out for one command of each family decode to it. -/
def Obligations.SpecExampleWordsDecode : Prop :=
  decode 0xFF000101 = some (.ldk 1 0xFF) ∧ decode 0x01000304 = some (.ldraw 3 true) ∧
  decode 0x00003005 = some (.straw 3) ∧ decode 0x10000108 = some (.parse 1 0x10) ∧
  decode 0x10001009 = some (.tostr 1 0x10) ∧ decode 0x00021310 = some (.add 3 1 2) ∧
  decode 0x00001219 = some (.sqr 2 1) ∧ decode 0x00421320 = some (.divrem 3 4 1 2) ∧
  decode 0x00321429 = some (.modpow 4 1 2 3) ∧ decode 0x00021031 = some (.cmpabs 1 2) ∧
  decode 0x00000043 = some .dec58b

/-! ### The sequencer and the step (10_state.md, 60_exceptions.md) -/

/-- When the sequencer has the turn, a step is the meaning of the command the in-flight word decodes to, at the state with
that turn taken off the events; for a word that decodes to none it is the IllegalCommand completion (R72). With no event
left the sequencer has the turn. The list of events is the model's own (log entry 3). R145: with nothing in flight that turn
changes no block state. Nor does the reset input set low when it is low already (log entry 12). -/
def Obligations.StepRunsInFlightCommand : Prop :=
  (∀ (s : State) (c : InFlight), s.inflight = some c →
    (∀ i, decode c.word = some i →
      (∀ rest, s.inputs = .sequencer :: rest → step s = exec i { s with inputs := rest }) ∧
      (s.inputs = [] → step s = exec i s)) ∧
    (decode c.word = none →
      (∀ rest, s.inputs = .sequencer :: rest →
        step s = .next (State.afterError { s with inputs := rest } .illegalCommand 0)) ∧
      (s.inputs = [] → step s = .next (s.afterError .illegalCommand 0)))) ∧
  (∀ s : State, s.inflight = none →
    (∀ rest, s.inputs = .sequencer :: rest → step s = .next { s with inputs := rest }) ∧
    (s.inputs = [] → step s = .next s)) ∧
  ∀ (s : State) (rest : List Event), s.resetLine = false → s.inputs = .hardReset false :: rest →
    step s = .next { s with inputs := rest }

/-- The placed word is the one the very next step runs, issued with the arguments, registers and buffer as they stand (the
model's own placing, log entry 5). -/
def Obligations.PlacedWordRunsNext : Prop :=
  ∀ (s : State) (nbits n : Nat) (i : Instr), decodeTableWord nbits n = some i →
    ∃ w : Word, tableWord nbits n = some w ∧
      step (s.withFetchWord nbits n) =
        exec i { s with
          cmd := w, done := false, resetLine := false
          inflight := some { word := w, args := s.args, v := s.v, buf := s.buf } }

/-- R28: a CMD write issues when no command is in flight (an illegal word too), and only sets OVR when one is. The issue
stores the word, latches the arguments, reads the registers and the buffer and clears DONE; ERR_CODE and ERR_INFO stay.
The first part leaves out exactly the issues that read an unwritten byte, which are those of UnwrittenSourceByteFaults:
where a check that comes before the read raises (a destination out of bounds, the radix of PARSE, the length of ENC58B or
DEC58), the command issues whatever bytes are unwritten (log entry 6). -/
def Obligations.CmdWriteIssuesOrSetsOverrun : Prop :=
  ∀ (s : State) (w : Word) (rest : List Event),
    s.inputs = .access 32 0x0000C (.write w) :: rest → s.resetLine = false →
    (s.inflight = none →
      (∀ i span, decode w = some i → i.sourceSpan s.args = some span →
        s.args.src.toNat + span ≤ s.params.bufBytes →
        (i.storing = true → s.args.dst.toNat + s.args.cap.toNat ≤ s.params.bufBytes) →
        (∀ vd radix, i = .parse vd radix → radix.toNat ≠ 1 ∧ radix.toNat ≤ 36) →
        (i = .enc58b → span ≤ 8) →
        (i = .dec58 → span % 11 ≠ 1 ∧ span % 11 ≠ 4 ∧ span % 11 ≠ 8) →
        ∀ a, s.args.src.toNat ≤ a → a < s.args.src.toNat + span → s.buf.byteAt a ≠ none) →
      step s = .next { s with
        inputs := rest, cmd := w, done := false
        inflight := some { word := w, args := s.args, v := s.v, buf := s.buf } }) ∧
    (∀ c, s.inflight = some c → step s = .next { s with inputs := rest, ovr := true })

/-- R23: a command whose read reaches a byte nothing has written is the model fault. That the fault comes at the issue, and
that the checks before the read come first, is the model's reading (log entry 6, DEDUCED from R28). The commands are the
seven with a source range; the last conditions are the checks that come before the read in their pseudocode. -/
def Obligations.UnwrittenSourceByteFaults : Prop :=
  ∀ (s : State) (w : Word) (i : Instr) (rest : List Event) (span a : Nat),
    s.inputs = .access 32 0x0000C (.write w) :: rest → s.resetLine = false → s.inflight = none →
    decode w = some i → i.sourceSpan s.args = some span →
    s.args.src.toNat + span ≤ s.params.bufBytes →
    (i.storing = true → s.args.dst.toNat + s.args.cap.toNat ≤ s.params.bufBytes) →
    s.args.src.toNat ≤ a → a < s.args.src.toNat + span → s.buf.byteAt a = none →
    (∀ vd radix, i = .parse vd radix → radix.toNat ≠ 1 ∧ radix.toNat ≤ 36) →
    (i = .enc58b → span ≤ 8) →
    (i = .dec58 → span % 11 ≠ 1 ∧ span % 11 ≠ 4 ∧ span % 11 ≠ 8) →
    step s = .fault .uninitialisedBuffer

/-- R29, R152: the argument registers, VSEL and IE may be written at any time; the write stores its word there and leaves a
command in flight with its latched copy. -/
def Obligations.ArgumentWritesLeaveTheRunningCommand : Prop :=
  ∀ (s : State) (w : Word) (rest : List Event), s.resetLine = false →
    (s.inputs = .access 32 0x00010 (.write w) :: rest →
      step s = .next { s with inputs := rest, args := { s.args with src := w } }) ∧
    (s.inputs = .access 32 0x00014 (.write w) :: rest →
      step s = .next { s with inputs := rest, args := { s.args with len := w } }) ∧
    (s.inputs = .access 32 0x00018 (.write w) :: rest →
      step s = .next { s with inputs := rest, args := { s.args with dst := w } }) ∧
    (s.inputs = .access 32 0x0001C (.write w) :: rest →
      step s = .next { s with inputs := rest, args := { s.args with cap := w } }) ∧
    (s.inputs = .access 32 0x00040 (.write w) :: rest →
      step s = .next { s with inputs := rest, vsel := (w.extractLsb' 0 4).toFin }) ∧
    (s.inputs = .access 32 0x00004 (.write w) :: rest → w.getLsbD 1 = false →
      step s = .next { s with inputs := rest, ie := w.getLsbD 0 })

/-- R40: what a completion does depends on the in-flight command and the parameters alone. Two states that agree in these
get the same completion code and the same results. -/
def Obligations.CompletionDependsOnTheSnapshotAlone : Prop :=
  ∀ (s s' t : State), s'.inflight = s.inflight → s.inflight ≠ none → s'.params = s.params →
    completeInFlight s = .next t →
    ∃ t', completeInFlight s' = .next t' ∧ t'.errCode = t.errCode ∧ t'.errInfo = t.errInfo ∧
      ∀ c i, s.inflight = some c → decode c.word = some i → t.errCode = .noError →
        (∀ r ∈ i.dests, t'.v.read r = t.v.read r) ∧
        (i.writesVal = true → t'.rVal = t.rVal) ∧ (i.storing = true → t'.rLen = t.rLen) ∧
        (s'.buf = s.buf → t'.buf = t.buf)

/-- From any state that meets the invariant, whatever the next event, a step that answers a next state keeps it: legal
parameters, values that fit, a canonical buffer inside its bounds, a snapshot equal to the registers and the buffer, and a
sequencer that can always complete. -/
def Obligations.StepKeepsTheInvariant : Prop :=
  ∀ s t : State, s.Inv → step s = .next t → t.Inv

/-- The invariant holds after a hard reset of every instance with legal parameters, the default one among them. -/
def Obligations.ResetMeetsTheInvariant : Prop :=
  (∀ p : Params, p.wf = true → (State.resetOf p).Inv) ∧ State.reset.Inv

/-- R43, R34: no step changes the parameters or the constant tables. -/
def Obligations.NoStepChangesTheParameters : Prop :=
  ∀ s t : State, step s = .next t → t.params = s.params

/-- R154: reads by the host do not delay a completion. If only aligned reads are still to come, the command in flight has
completed when they are done, with the result it has now. That it completes at the step after the last event is the model's
choice (log entry 3, DESIGN CHOICE); that a busy BUFWIN read of an unwritten byte is a free word and does not stop the run
is the model's reading (log entry 7, DEDUCED). -/
def Obligations.InFlightCommandCompletesAfterReads : Prop :=
  ∀ s u : State, s.resetLine = false → s.inflight ≠ none → completeInFlight s = .next u →
    (∀ e ∈ s.inputs, ∃ o : BitVec 17, o.toNat % 4 = 0 ∧ e = .access 32 o .read) →
    ∃ t, core.run (s.inputs.length + 1) s = .next t ∧ t.inflight = none ∧ t.inputs = [] ∧
      t.v = u.v ∧ t.buf = u.buf ∧ t.rVal = u.rVal ∧ t.rLen = u.rLen ∧
      t.errCode = u.errCode ∧ t.errInfo = u.errInfo ∧ t.done = true

/-! ### Resets (70_reset_and_hazards.md) -/

/-- R150: the value of every piece of state after each kind of reset. Hard reset: the input asserted, and its release. Soft
reset: a CTRL write with bit 1 set, at any time. The model's own fields (rdata, freeCount, inputs) are no block state. -/
def Obligations.ResetsLeaveTheTabledState : Prop :=
  ∀ (s : State) (rest : List Event),
    (∀ level : Bool, s.inputs = .hardReset level :: rest → (level = true ∨ s.resetLine = true) →
      step s = .next
        { params := s.params, v := Vector.replicate 16 0, buf := [], ie := false, done := false, ovr := false
          cmd := 0, args := { src := 0, len := 0, dst := 0, cap := 0 }, rVal := 0, rLen := 0
          errCode := .noError, errInfo := 0, vsel := 0, inflight := none, resetLine := level
          rdata := s.rdata, freeCount := s.freeCount, inputs := rest }) ∧
    (∀ w : Word, s.inputs = .access 32 0x00004 (.write w) :: rest → s.resetLine = false → w.getLsbD 1 = true →
      step s = .next
        { params := s.params, v := Vector.replicate 16 0, buf := s.buf, ie := w.getLsbD 0, done := false
          ovr := false, cmd := 0, args := { src := 0, len := 0, dst := 0, cap := 0 }, rVal := 0, rLen := 0
          errCode := .noError, errInfo := 0, vsel := 0, inflight := none, resetLine := false
          rdata := s.rdata, freeCount := s.freeCount, inputs := rest }) ∧
    (∀ t : State, t.errCode = .noError → t.inflight = none → t.done = false → t.ovr = false →
      t.v = Vector.replicate 16 0 →
      t.readReg .status = some 0 ∧ t.irq = false ∧ t.readReg .vsign = some 0 ∧ t.readReg .vlen = some 0 ∧
      (∀ k, t.readReg (.vlimb k) = some 0) ∧ t.readReg .id = some 0x42353801 ∧ t.readReg .cfgNv = some 16 ∧
      t.readReg .cfgMaxl = some (BitVec.ofNat 32 t.params.maxLimbs) ∧
      t.readReg .cfgBuf = some (BitVec.ofNat 32 t.params.bufBytes) ∧
      ∀ w, t.readReg .ctrl = some w → w.getLsbD 1 = false)

/-! ### The host interface (10_state.md, 20_memory.md) -/

/-- R49: each of the three host-protocol violations is the model fault of that name. Which one is named when several apply
(the reset first, then width and alignment, then the busy write) is the model's choice (log entry 19, DESIGN CHOICE), and
that the fault ends the run is its reading of "recorded and never cleared" (log entry 18, DEDUCED). -/
def Obligations.ProtocolViolationsFault : Prop :=
  ∀ (s : State) (width : Nat) (o : BitVec 17) (op : HostOp) (rest : List Event),
    s.inputs = .access width o op :: rest →
    (s.resetLine = true → step s = .fault (.hostProtocolViolation .accessDuringReset)) ∧
    (s.resetLine = false → (width ≠ 32 ∨ o.toNat % 4 ≠ 0) →
      step s = .fault (.hostProtocolViolation .notAlignedWord)) ∧
    (∀ w, s.resetLine = false → width = 32 → o.toNat % 4 = 0 → op = .write w → s.inflight ≠ none →
      0x10000 ≤ o.toNat → o.toNat < 0x10000 + s.params.bufBytes →
      step s = .fault (.hostProtocolViolation .bufferWriteWhileBusy))

/-- R50: while a command is in flight, a read of a result register or window returns a free word, and a read of any other
register its exact value. That the free word is freeWord drawn at freeCount is the model's choice (log entry 2, DESIGN
CHOICE), and that a busy BUFWIN read of an unwritten byte is a free word and not the fault of R23 is its reading (log entry
7, DEDUCED). -/
def Obligations.BusyReadsOfResultsAreFree : Prop :=
  ∀ (s : State) (o : BitVec 17) (rest : List Event),
    s.inputs = .access 32 o .read :: rest → s.resetLine = false → o.toNat % 4 = 0 → s.inflight ≠ none →
    ((o.toNat ∈ [0x20, 0x24, 0x28, 0x2C, 0x44, 0x48] ∨
        (0x1000 ≤ o.toNat ∧ o.toNat < 0x1000 + 4 * s.params.maxLimbs ∧ o.toNat < 0x10000) ∨
        (0x10000 ≤ o.toNat ∧ o.toNat < 0x10000 + s.params.bufBytes)) →
      step s = .next { s with
        inputs := rest, rdata := Config.freeWord s.freeCount, freeCount := s.freeCount + 1 }) ∧
    (∀ w : Word,
      (o.toNat, w) ∈
        [(0x00, 0x42353801), (0x04, s.ctrlWord), (0x08, s.statusWord), (0x0C, s.cmd), (0x10, s.args.src),
         (0x14, s.args.len), (0x18, s.args.dst), (0x1C, s.args.cap), (0x30, 16),
         (0x34, BitVec.ofNat 32 s.params.maxLimbs), (0x38, BitVec.ofNat 32 s.params.bufBytes),
         (0x40, BitVec.ofNat 32 s.vsel.val)] →
      step s = .next { s with inputs := rest, rdata := w })

/-- R24 to R35 (read column): with no command in flight, each register reads its exact value. CTRL is IE in bit 0 and 0
in bits 31 to 1 (R26); the bits of STATUS are StatusShowsAndClearsItsBits. -/
def Obligations.IdleReadsAreExact : Prop :=
  (∀ s : State, s.ctrlWord.getLsbD 0 = s.ie ∧ ∀ k, 1 ≤ k → s.ctrlWord.getLsbD k = false) ∧
  ∀ (s : State) (o : BitVec 17) (rest : List Event) (w : Word),
    s.inputs = .access 32 o .read :: rest → s.resetLine = false → s.inflight = none →
    (o.toNat, w) ∈
      [(0x00, 0x42353801), (0x04, s.ctrlWord), (0x08, s.statusWord), (0x0C, s.cmd), (0x10, s.args.src),
       (0x14, s.args.len), (0x18, s.args.dst), (0x1C, s.args.cap)]
      ++ [(0x20, s.rVal), (0x24, s.rLen), (0x28, s.errCode.number.setWidth 32), (0x2C, s.errInfo), (0x30, 16),
       (0x34, BitVec.ofNat 32 s.params.maxLimbs), (0x38, BitVec.ofNat 32 s.params.bufBytes),
       (0x40, BitVec.ofNat 32 s.vsel.val)] →
    step s = .next { s with inputs := rest, rdata := w }

/-- R48: no host read has a side effect. A read that answers changes nothing but the word it returns and, for a free word,
the model's own count of them. -/
def Obligations.HostReadsHaveNoSideEffect : Prop :=
  ∀ (s t : State) (width : Nat) (o : BitVec 17) (rest : List Event),
    s.inputs = .access width o .read :: rest → step s = .next t →
    t = { s with inputs := rest, rdata := t.rdata, freeCount := t.freeCount }

/-- R47: an unmapped offset reads 0; a write to one, or to a read-only register, is ignored; neither changes any status. -/
def Obligations.UnmappedAndReadOnlyAreInert : Prop :=
  ∀ (s : State) (o : BitVec 17) (rest : List Event), s.resetLine = false → o.toNat % 4 = 0 →
    (((0x3C = o.toNat ∨ (0x4C ≤ o.toNat ∧ o.toNat < 0x1000)) ∨
        (0x1000 + 4 * s.params.maxLimbs ≤ o.toNat ∧ o.toNat < 0x10000) ∨ 0x10000 + s.params.bufBytes ≤ o.toNat) →
      (s.inputs = .access 32 o .read :: rest → step s = .next { s with inputs := rest, rdata := 0 }) ∧
      (∀ w, s.inputs = .access 32 o (.write w) :: rest → step s = .next { s with inputs := rest })) ∧
    ((o.toNat ∈ [0x00, 0x20, 0x24, 0x28, 0x2C, 0x30, 0x34, 0x38, 0x44, 0x48] ∨
        (0x1000 ≤ o.toNat ∧ o.toNat < 0x10000)) →
      ∀ w, s.inputs = .access 32 o (.write w) :: rest → step s = .next { s with inputs := rest })

/-- R27: the bits of STATUS, and what a write of it does: 1 clears DONE or OVR, 0 leaves it, the other bits are ignored. -/
def Obligations.StatusShowsAndClearsItsBits : Prop :=
  (∀ s : State,
    s.statusWord.getLsbD 0 = s.inflight.isSome ∧ s.statusWord.getLsbD 1 = s.done ∧
    s.statusWord.getLsbD 2 = decide (s.errCode ≠ .noError) ∧ s.statusWord.getLsbD 3 = s.ovr ∧
    s.statusWord.getLsbD 4 = (s.done && s.ie) ∧ ∀ k, 5 ≤ k → s.statusWord.getLsbD k = false) ∧
  ∀ (s : State) (w : Word) (rest : List Event),
    s.inputs = .access 32 0x00008 (.write w) :: rest → s.resetLine = false →
    step s = .next { s with
      inputs := rest
      done := if w.getLsbD 1 then false else s.done
      ovr := if w.getLsbD 3 then false else s.ovr }

/-- R39: a BUFWIN read with no command in flight returns {buf[o+3], buf[o+2], buf[o+1], buf[o]}, or is the fault of R23 if
one of these is unwritten; a write sets these four bytes and no other. -/
def Obligations.BufferWindowIsLittleEndian : Prop :=
  ∀ (s : State) (off : BitVec 17) (o : Nat) (rest : List Event),
    s.resetLine = false → s.inflight = none → off.toNat = 0x10000 + o → o % 4 = 0 → o < s.params.bufBytes →
    (∀ b0 b1 b2 b3 : Byte, s.buf.byteAt o = some b0 → s.buf.byteAt (o + 1) = some b1 →
      s.buf.byteAt (o + 2) = some b2 → s.buf.byteAt (o + 3) = some b3 →
      s.inputs = .access 32 off .read :: rest → step s = .next { s with inputs := rest, rdata := b3 ++ b2 ++ b1 ++ b0 }) ∧
    (∀ j, j < 4 → s.buf.byteAt (o + j) = none → s.inputs = .access 32 off .read :: rest →
      step s = .fault .uninitialisedBuffer) ∧
    (∀ w : Word, s.inputs = .access 32 off (.write w) :: rest →
      ∃ m : Memory, step s = .next { s with inputs := rest, buf := m } ∧
        m.byteAt o = some (w.extractLsb' 0 8) ∧ m.byteAt (o + 1) = some (w.extractLsb' 8 8) ∧
        m.byteAt (o + 2) = some (w.extractLsb' 16 8) ∧ m.byteAt (o + 3) = some (w.extractLsb' 24 8) ∧
        ∀ x, (x < o ∨ o + 4 ≤ x) → m.byteAt x = s.buf.byteAt x)

/-- R36, R37, R38: with no command in flight the window shows V[VSEL]: VSIGN its sign, VLEN its limb count, VLIMB[k] limb k
where there is one and 0 above. -/
def Obligations.ValueWindowShowsTheSelectedRegister : Prop :=
  ∀ (s : State) (off : BitVec 17) (rest : List Event),
    s.resetLine = false → s.inflight = none → s.inputs = .access 32 off .read :: rest →
    (off.toNat = 0x44 →
      step s = .next { s with
        inputs := rest
        rdata := if s.v.read s.vsel < 0 then 0xFFFFFFFF else if s.v.read s.vsel = 0 then 0 else 1 }) ∧
    (off.toNat = 0x48 → step s = .next { s with inputs := rest, rdata := BitVec.ofNat 32 (nlimbs (s.v.read s.vsel)) }) ∧
    (∀ k, k < s.params.maxLimbs → k < 15360 → off.toNat = 0x1000 + 4 * k →
      step s = .next { s with
        inputs := rest
        rdata := BitVec.ofNat 32 ((s.v.read s.vsel).natAbs / 10 ^ (7 * k) % 10 ^ 7) })

/-- R11: the limbs of v are its base-10^7 digits, least significant first, without a leading zero limb; zero has none; v fits
iff its limb count is at most MAX_LIMBS, that is iff |v| < 10^(7·MAX_LIMBS). -/
def Obligations.LimbsAreCanonical : Prop :=
  ∀ v : Int,
    (∑ i ∈ Finset.range (nlimbs v), (limbs v).getD i 0 * 10 ^ (7 * i) = v.natAbs) ∧
    (∀ l ∈ limbs v, l < 10 ^ 7) ∧ (∀ k, nlimbs v = k + 1 → (limbs v).getD k 0 ≠ 0) ∧ limbs 0 = [] ∧
    ∀ p : Params, (fits p v = true ↔ nlimbs v ≤ p.maxLimbs) ∧ (fits p v = true ↔ v.natAbs < 10 ^ (7 * p.maxLimbs))

/-- R20: no host access writes a value register, a soft reset apart (R147). -/
def Obligations.NoHostAccessWritesAValueRegister : Prop :=
  ∀ (s t : State) (width : Nat) (o : BitVec 17) (op : HostOp) (rest : List Event),
    s.inputs = .access width o op :: rest → step s = .next t →
    (∀ w, op = .write w → o.toNat = 0x04 → w.getLsbD 1 = false) → t.v = s.v

/-- R137: after a step, the IRQ output is DONE AND CTRL.IE; a completion with IE = 1 raises it, clearing DONE, an issue, a
reset or IE = 0 drops it. -/
def Obligations.InterruptFollowsDoneAndEnable : Prop :=
  (∀ s : State, s.irq = (s.done && s.ie)) ∧
  (∀ s t : State, s.inflight ≠ none → s.ie = true → completeInFlight s = .next t → t.irq = true) ∧
  (∀ (s t : State) (w : Word) (rest : List Event), s.resetLine = false → step s = .next t →
    (s.inputs = .access 32 0x00008 (.write w) :: rest → w.getLsbD 1 = true → t.irq = false) ∧
    (s.inputs = .access 32 0x0000C (.write w) :: rest → s.inflight = none → t.irq = false) ∧
    (s.inputs = .access 32 0x00004 (.write w) :: rest → (w.getLsbD 0 = false ∨ w.getLsbD 1 = true) → t.irq = false) ∧
    (s.inputs = .access 32 0x00004 (.write w) :: rest → w.getLsbD 1 = false → t.done = s.done))

/-! ### Every command (00_scope.md R13, 60_exceptions.md R127 to R133) -/

/-- R131: an error completion changes exactly BUSY, DONE and ERR of STATUS, ERR_CODE and ERR_INFO: no value register, no
buffer byte, neither R_VAL nor R_LEN. -/
def Obligations.ErrorCompletionChangesOnlyStatus : Prop :=
  ∀ s t : State, s.inflight ≠ none → completeInFlight s = .next t → t.errCode ≠ .noError →
    t = { s with errCode := t.errCode, errInfo := t.errInfo, done := true, inflight := none } ∧
      ∀ x, t.buf.byteAt x = s.buf.byteAt x

/-- R133: every completion ends the command, sets DONE, leaves OVR, CTRL and CMD, and a success clears ERR_CODE and
ERR_INFO. -/
def Obligations.CompletionSetsStatus : Prop :=
  ∀ s t : State, s.inflight ≠ none → completeInFlight s = .next t →
    t.inflight = none ∧ t.done = true ∧ t.ovr = s.ovr ∧ t.ie = s.ie ∧ t.cmd = s.cmd ∧ t.args = s.args ∧
      t.vsel = s.vsel ∧ t.resetLine = s.resetLine ∧ t.inputs = s.inputs ∧ t.rdata = s.rdata ∧
      t.freeCount = s.freeCount ∧ (t.errCode = .noError → t.errInfo = 0)

/-- R42: R_VAL and R_LEN are written by the commands of the table and by no other; an error writes neither. -/
def Obligations.OnlyTabledCommandsWriteResults : Prop :=
  ∀ (i : Instr) (s t : State), exec i s = .next t →
    (i.writesVal = false → t.rVal = s.rVal) ∧ (i.storing = false → t.rLen = s.rLen) ∧
    (t.errCode ≠ .noError → t.rVal = s.rVal ∧ t.rLen = s.rLen) ∧
    (∀ va vb, (i = .cmp va vb ∨ i = .cmpabs va vb ∨ i = .sgn va ∨ i = .straw va) → t.errCode = .noError →
      t.rVal = 0xFFFFFFFF ∨ t.rVal = 0 ∨ t.rVal = 1) ∧
    (∀ va, i ∈ [.iszero va, .isunit va, .iseven va, .isodd va, .ispos va, .isneg va] → t.rVal = 0 ∨ t.rVal = 1)

/-- Register frame (R77, R131 and the Writes line of every command): every value register that is not a destination of the
command is unchanged. A register that is written reads as what was written, and none is hard-wired (R18). -/
def Obligations.CommandsKeepOtherRegisters : Prop :=
  (∀ (i : Instr) (s t : State) (r : VReg), exec i s = .next t → r ∉ i.dests → t.v.read r = s.v.read r) ∧
  ∀ (v : Regs) (r q : VReg) (x : Int), (v.write r x).read r = x ∧ (q ≠ r → (v.write r x).read q = v.read q)

/-- Memory frame (R57 and the Writes lines): a command that stores, stores at A_DST; every byte outside the stored ones
reads as before. STRAW stores 4 bytes for each limb it counts in R_LEN, the others the R_LEN bytes. A command that does not
store leaves every byte. The stored bytes read back from A_DST on. -/
def Obligations.CommandsKeepOtherBytes : Prop :=
  (∀ (s : State) (a : Nat) (bs : List Byte), (∀ i, i < bs.length → (s.afterStore a bs).buf.byteAt (a + i) = some (bs.getD i 0)) ∧
    ∀ x, (x < a ∨ a + bs.length ≤ x) → (s.afterStore a bs).buf.byteAt x = s.buf.byteAt x) ∧
  ∀ (i : Instr) (s t : State) (c : InFlight), s.inflight = some c → exec i s = .next t →
    (i.storing = false → ∀ x, t.buf.byteAt x = s.buf.byteAt x) ∧
    (t.errCode ≠ .noError → ∀ x, t.buf.byteAt x = s.buf.byteAt x) ∧
    (t.errCode = .noError → ∀ vs, i = .straw vs → ∀ x,
      (x < c.args.dst.toNat ∨ c.args.dst.toNat + 4 * t.rLen.toNat ≤ x) → t.buf.byteAt x = s.buf.byteAt x) ∧
    (t.errCode = .noError → i.storing = true → (∀ vs, i ≠ .straw vs) → ∀ x,
      (x < c.args.dst.toNat ∨ c.args.dst.toNat + t.rLen.toNat ≤ x) → t.buf.byteAt x = s.buf.byteAt x)

/-- R57: the source range is in bounds iff A_SRC + span ≤ BUF_BYTES and the destination range iff A_DST + A_CAP ≤ BUF_BYTES,
in unbounded arithmetic, even when span or A_CAP is 0. Out of bounds is BufferBounds, source first, and nothing is read or
written. A command writes at most A_CAP bytes from A_DST on. -/
def Obligations.BufferRangesAreChecked : Prop :=
  ∀ (i : Instr) (s : State) (c : InFlight), s.inflight = some c →
    (∀ span, i.sourceSpan c.args = some span → s.params.bufBytes < c.args.src.toNat + span →
      exec i s = .next (s.afterError .bufferBounds 0)) ∧
    ((∀ span, i.sourceSpan c.args = some span → c.args.src.toNat + span ≤ s.params.bufBytes) → i.storing = true →
      s.params.bufBytes < c.args.dst.toNat + c.args.cap.toNat → exec i s = .next (s.afterError .bufferBounds 1)) ∧
    ((∀ span, i.sourceSpan c.args = some span → c.args.src.toNat + span ≤ s.params.bufBytes) →
      (i.storing = true → c.args.dst.toNat + c.args.cap.toNat ≤ s.params.bufBytes) →
      ∀ t, exec i s = .next t → t.errCode ≠ .bufferBounds) ∧
    (∀ t, exec i s = .next t → ∀ x, (x < c.args.dst.toNat ∨ c.args.dst.toNat + c.args.cap.toNat ≤ x) →
      t.buf.byteAt x = s.buf.byteAt x)

/-- R128: the codes by number, the codes each command raises ("raised by"), and the thirteen commands that complete with no
error. -/
def Obligations.CommandsRaiseOnlyTabledErrors : Prop :=
  [ErrCode.noError, .invalidRadix, .invalidDigit, .invalidFormat, .divideByZero, .exponentTooLarge, .invalidBlockLength,
    .invalidSymbol, .overflow, .illegalCommand, .capacityExceeded, .bufferBounds, .outputSpace, .negativeOperand].map
      ErrCode.number = [0, 1, 2, 3, 4, 5, 6, 7, 8, 0x10, 0x11, 0x12, 0x13, 0x14] ∧
  ∀ (i : Instr) (s t : State), i.wf = true → exec i s = .next t →
    match i with
    | .nop | .ldk _ _ | .mov _ _ | .neg _ _ | .cmp _ _ | .cmpabs _ _ | .sgn _ | .iszero _ | .isunit _ | .iseven _
    | .isodd _ | .ispos _ | .isneg _ => t.errCode = .noError
    | .ldraw _ _ => t.errCode ∈ [.noError, .invalidDigit, .capacityExceeded, .bufferBounds]
    | .straw _ => t.errCode ∈ [.noError, .bufferBounds, .outputSpace]
    | .frombe _ => t.errCode ∈ [.noError, .capacityExceeded, .bufferBounds]
    | .tobe _ => t.errCode ∈ [.noError, .overflow, .bufferBounds, .negativeOperand]
    | .parse _ _ =>
      t.errCode ∈ [.noError, .invalidRadix, .invalidDigit, .invalidFormat, .capacityExceeded, .bufferBounds]
    | .tostr _ _ => t.errCode ∈ [.noError, .invalidRadix, .bufferBounds, .outputSpace]
    | .add _ _ _ | .sub _ _ _ | .mul _ _ _ | .sqr _ _ => t.errCode ∈ [.noError, .capacityExceeded]
    | .divrem _ _ _ _ | .div _ _ _ | .rem _ _ _ => t.errCode ∈ [.noError, .divideByZero]
    | .pow _ _ _ => t.errCode ∈ [.noError, .divideByZero, .exponentTooLarge, .capacityExceeded]
    | .modpow _ _ _ _ => t.errCode ∈ [.noError, .divideByZero, .negativeOperand]
    | .enc58 => t.errCode ∈ [.noError, .bufferBounds, .outputSpace]
    | .enc58b => t.errCode ∈ [.noError, .invalidBlockLength, .bufferBounds, .outputSpace]
    | .dec58 | .dec58b =>
      t.errCode ∈ [.noError, .invalidBlockLength, .invalidSymbol, .overflow, .bufferBounds, .outputSpace]

/-! ### Data movement (40_data_movement.md) -/

/-- R78, R79, R80: the words and the completions of NOP, LDK and MOV. -/
def Obligations.MoveResults : Prop :=
  Encodes 0xFFFFFFFF 0x00 (fun _ => .nop) ∧
  Encodes 0x00FFF0FF 0x01 (fun w => .ldk (fieldAt w 8) (w.extractLsb' 24 8)) ∧
  Encodes 0xFFFF00FF 0x02 (fun w => .mov (fieldAt w 8) (fieldAt w 12)) ∧
  ∀ (s : State) (c : InFlight), s.inflight = some c →
    exec .nop s = .next s.afterSuccess ∧
    (∀ vd imm, exec (.ldk vd imm) s =
      .next (s.afterWrite vd (if imm.toNat < 128 then (imm.toNat : Int) else (imm.toNat : Int) - 256))) ∧
    (∀ vd vs, exec (.mov vd vs) s = .next (s.afterWrite vd (c.v.read vs)))

/-- R81: LDRAW makes a value of A_LEN little-endian limb words and a requested sign; the lowest word of 10^7 or more is
InvalidDigit. -/
def Obligations.LdrawResult : Prop :=
  Encodes 0xFEFFF0FF 0x04 (fun w => .ldraw (fieldAt w 8) (w.getLsbD 24)) ∧
  ∀ (s : State) (c : InFlight) (vd : VReg) (neg : Bool) (bs : List Byte), s.inflight = some c →
    c.Source bs → bs.length = 4 * c.args.len.toNat → c.args.src.toNat + 4 * c.args.len.toNat ≤ s.params.bufBytes →
    ((∀ i, i < c.args.len.toNat → limbWordAt bs i < 10 ^ 7) →
      exec (.ldraw vd neg) s =
        .next (s.afterResult vd
          ((if neg then -1 else 1) * ((∑ i ∈ Finset.range c.args.len.toNat, limbWordAt bs i * 10 ^ (7 * i) : Nat) : Int)))) ∧
    (∀ i, i < c.args.len.toNat → 10 ^ 7 ≤ limbWordAt bs i → (∀ j, j < i → limbWordAt bs j < 10 ^ 7) →
      exec (.ldraw vd neg) s = .next (s.afterError .invalidDigit i))

/-- R82: STRAW stores the limbs of a value, 4 little-endian bytes each, with the limb count in R_LEN and the sign in R_VAL;
too small a capacity is OutputSpace(4n). -/
def Obligations.StrawResult : Prop :=
  Encodes 0xFFFF0FFF 0x05 (fun w => .straw (fieldAt w 12)) ∧
  ∀ (s : State) (c : InFlight) (vs : VReg), s.inflight = some c →
    c.args.dst.toNat + c.args.cap.toNat ≤ s.params.bufBytes →
    (c.args.cap.toNat < 4 * nlimbs (c.v.read vs) →
      exec (.straw vs) s = .next (s.afterError .outputSpace (4 * nlimbs (c.v.read vs)))) ∧
    (4 * nlimbs (c.v.read vs) ≤ c.args.cap.toNat →
      ∃ bs : List Byte, bs.length = 4 * nlimbs (c.v.read vs) ∧
        (∀ i j, i < nlimbs (c.v.read vs) → j < 4 →
          (bs.getD (4 * i + j) 0).toNat = (c.v.read vs).natAbs / 10 ^ (7 * i) % 10 ^ 7 / 256 ^ j % 256) ∧
        exec (.straw vs) s =
          .next { s.afterStore c.args.dst.toNat bs with
            rLen := BitVec.ofNat 32 (nlimbs (c.v.read vs)), rVal := signWord (c.v.read vs) })

/-- R82, corner case: LDRAW of STRAW's output, with neg = (R_VAL = −1), gives back the value. -/
def Obligations.LdrawInvertsStraw : Prop :=
  ∀ (s t s' : State) (c c' : InFlight) (vs vd : VReg), s.inflight = some c → exec (.straw vs) s = .next t →
    t.errCode = .noError → s'.inflight = some c' → s'.params = s.params → c'.buf = t.buf →
    c'.args.src = c.args.dst → c'.args.len = t.rLen → fits s.params (c.v.read vs) = true →
    exec (.ldraw vd (decide (t.rVal = 0xFFFFFFFF))) s' = .next (s'.afterWrite vd (c.v.read vs))

/-- R83: FROMBE is the big-endian value of A_LEN bytes. -/
def Obligations.FrombeResult : Prop :=
  Encodes 0xFFFFF0FF 0x06 (fun w => .frombe (fieldAt w 8)) ∧
  ∀ (s : State) (c : InFlight) (vd : VReg) (bs : List Byte), s.inflight = some c →
    c.Source bs → bs.length = c.args.len.toNat → c.args.src.toNat + c.args.len.toNat ≤ s.params.bufBytes →
    exec (.frombe vd) s = .next (s.afterResult vd (sumOf 256 (bs.map (·.toNat))))

/-- R84: TOBE stores a value as exactly A_CAP big-endian bytes; a negative one is NegativeOperand, one of 256^A_CAP or more
is Overflow. -/
def Obligations.TobeResult : Prop :=
  Encodes 0xFFFF0FFF 0x07 (fun w => .tobe (fieldAt w 12)) ∧
  ∀ (s : State) (c : InFlight) (vs : VReg), s.inflight = some c →
    c.args.dst.toNat + c.args.cap.toNat ≤ s.params.bufBytes →
    (c.v.read vs < 0 → exec (.tobe vs) s = .next (s.afterError .negativeOperand 0)) ∧
    (256 ^ c.args.cap.toNat ≤ c.v.read vs → exec (.tobe vs) s = .next (s.afterError .overflow 0)) ∧
    (0 ≤ c.v.read vs → c.v.read vs < 256 ^ c.args.cap.toNat →
      ∃ bs : List Byte, bs.length = c.args.cap.toNat ∧ ((sumOf 256 (bs.map (·.toNat)) : Nat) : Int) = c.v.read vs ∧
        exec (.tobe vs) s = .next (s.afterStore c.args.dst.toNat bs))

/-! ### Parsing and formatting (41_parse_format.md) -/

/-- R15, R88: the characters each radix accepts: in the radixes 2, 8, 10, 16 and 36 the sets the spec lists, in every
radix the characters whose digit value is below it. -/
def Obligations.DigitSets : Prop :=
  ∀ ch : Byte,
    ((∃ d, digval ch = some d ∧ d < 2) ↔ ch ∈ [0x30, 0x31]) ∧
    ((∃ d, digval ch = some d ∧ d < 8) ↔ 0x30 ≤ ch.toNat ∧ ch.toNat ≤ 0x37) ∧
    ((∃ d, digval ch = some d ∧ d < 10) ↔ 0x30 ≤ ch.toNat ∧ ch.toNat ≤ 0x39) ∧
    ((∃ d, digval ch = some d ∧ d < 16) ↔
      (0x30 ≤ ch.toNat ∧ ch.toNat ≤ 0x39) ∨ (0x41 ≤ ch.toNat ∧ ch.toNat ≤ 0x46) ∨
        (0x61 ≤ ch.toNat ∧ ch.toNat ≤ 0x66)) ∧
    ((∃ d, digval ch = some d ∧ d < 36) ↔
      (0x30 ≤ ch.toNat ∧ ch.toNat ≤ 0x39) ∨ (0x41 ≤ ch.toNat ∧ ch.toNat ≤ 0x5A) ∨
        (0x61 ≤ ch.toNat ∧ ch.toNat ≤ 0x7A)) ∧
    (∀ d, digval ch = some d →
      (d < 10 ∧ ch.toNat = 0x30 + d) ∨ (10 ≤ d ∧ d < 36 ∧ (ch.toNat = 0x41 + (d - 10) ∨ ch.toNat = 0x61 + (d - 10))))

/-- R87, R68: the word of PARSE, and the radixes that are InvalidRadix: 1 and 37 to 255, before anything of the string is
looked at. -/
def Obligations.ParseRejectsIllegalRadix : Prop :=
  Encodes 0x00FFF0FF 0x08 (fun w => .parse (fieldAt w 8) (w.extractLsb' 24 8)) ∧
  ∀ (s : State) (c : InFlight) (vd : VReg) (radix : BitVec 8), s.inflight = some c →
    c.args.src.toNat + c.args.len.toNat ≤ s.params.bufBytes → (radix.toNat = 1 ∨ 36 < radix.toNat) →
    exec (.parse vd radix) s = .next (s.afterError .invalidRadix radix.toNat)

/-- R87, steps 2 to 5: a string that is not expanded is a sign, a prefix (base omitted only) and digits; its value is the
sum of its digits; the first byte that is no digit is InvalidDigit, or InvalidFormat if it is a '.'. Every string has such
a layout. -/
def Obligations.ParsePlainNumeral : Prop :=
  (∀ (str : List Byte) (radix : Nat), ∃ sg pre rest r, PlainString str radix sg pre rest r) ∧
  ∀ (s : State) (c : InFlight) (vd : VReg) (radix : BitVec 8) (str sg pre rest : List Byte) (r : Nat),
    s.inflight = some c → c.Source str → str.length = c.args.len.toNat →
    c.args.src.toNat + c.args.len.toNat ≤ s.params.bufBytes → radix.toNat ≠ 1 → radix.toNat ≤ 36 →
    ¬((radix.toNat = 0 ∨ radix.toNat = 10) ∧ IsExponential str) → PlainString str radix.toNat sg pre rest r →
    (∀ ds : List Nat, rest.map digval = ds.map some → (∀ d ∈ ds, d < r) →
      exec (.parse vd radix) s = .next (s.afterResult vd (valueUnder sg (sumOf r ds)))) ∧
    (∀ (good : List Byte) (bad : Byte) (tail : List Byte), rest = good ++ bad :: tail →
      (∀ ch ∈ good, ∃ d, digval ch = some d ∧ d < r) → (∀ d, digval bad = some d → r ≤ d) →
      exec (.parse vd radix) s =
        .next (s.afterError (if bad = 0x2E then .invalidFormat else .invalidDigit)
          (sg.length + pre.length + good.length)))

/-- R85, R86, R87 step 1: with base omitted or 10, an exponential string is ±M·10^k, with k = E − len(FRAC); for k < 0 the
division by 10^(−k) must be exact, else InvalidFormat(0). -/
def Obligations.ParseExponentialNumeral : Prop :=
  ∀ (s : State) (c : InFlight) (vd : VReg) (radix : BitVec 8) (str sg int frac esg edig : List Byte) (dot : Bool)
    (mark : List Byte) (k : Int),
    s.inflight = some c → c.Source str → str.length = c.args.len.toNat →
    c.args.src.toNat + c.args.len.toNat ≤ s.params.bufBytes → (radix.toNat = 0 ∨ radix.toNat = 10) →
    ExpString str sg int frac esg edig dot mark → k = valueUnder esg (decimalOf edig) - frac.length →
    (0 ≤ k →
      exec (.parse vd radix) s =
        .next (s.afterResult vd (valueUnder sg (decimalOf (int ++ frac) * 10 ^ k.toNat)))) ∧
    (k < 0 → 10 ^ (-k).toNat ∣ decimalOf (int ++ frac) →
      exec (.parse vd radix) s =
        .next (s.afterResult vd (valueUnder sg (decimalOf (int ++ frac) / 10 ^ (-k).toNat)))) ∧
    (k < 0 → ¬ 10 ^ (-k).toNat ∣ decimalOf (int ++ frac) →
      exec (.parse vd radix) s = .next (s.afterError .invalidFormat 0))

/-- R89: TOSTR stores '-' for a negative value and the radix-r digits of the magnitude, most significant first, letters
uppercase, "0" for zero; InvalidRadix and OutputSpace where they apply. -/
def Obligations.TostrResult : Prop :=
  Encodes 0x00FF0FFF 0x09 (fun w => .tostr (fieldAt w 12) (w.extractLsb' 24 8)) ∧
  ∀ (s : State) (c : InFlight) (vs : VReg) (radix : BitVec 8), s.inflight = some c →
    c.args.dst.toNat + c.args.cap.toNat ≤ s.params.bufBytes →
    ((radix.toNat = 1 ∨ 36 < radix.toNat) →
      exec (.tostr vs radix) s = .next (s.afterError .invalidRadix radix.toNat)) ∧
    ∀ r : Nat, radix.toNat ≠ 1 → radix.toNat ≤ 36 → r = (if radix.toNat = 0 then 10 else radix.toNat) →
      ∃ (ds : List Nat) (t : List Byte),
        (∀ d ∈ ds, d < r) ∧ sumOf r ds = (c.v.read vs).natAbs ∧
        (c.v.read vs = 0 → ds = [0]) ∧ (c.v.read vs ≠ 0 → ∃ d tail, ds = d :: tail ∧ d ≠ 0) ∧
        t.map (·.toNat) =
          (if c.v.read vs < 0 then [0x2D] else []) ++ ds.map (fun d => if d < 10 then 0x30 + d else 0x41 + (d - 10)) ∧
        (c.args.cap.toNat < t.length → exec (.tostr vs radix) s = .next (s.afterError .outputSpace t.length)) ∧
        (t.length ≤ c.args.cap.toNat → exec (.tostr vs radix) s = .next (s.afterStore c.args.dst.toNat t))

/-- R90: PARSE in radix r of what TOSTR wrote in radix r gives back the value, for every r in 2..36 and every value that
fits. -/
def Obligations.ParseInvertsTostr : Prop :=
  ∀ (s t s' : State) (c c' : InFlight) (vs vd : VReg) (radix : BitVec 8), s.inflight = some c →
    2 ≤ radix.toNat → radix.toNat ≤ 36 → exec (.tostr vs radix) s = .next t → t.errCode = .noError →
    s'.inflight = some c' → s'.params = s.params → c'.buf = t.buf → c'.args.src = c.args.dst →
    c'.args.len = t.rLen → fits s.params (c.v.read vs) = true →
    exec (.parse vd radix) s' = .next (s'.afterWrite vd (c.v.read vs))

/-! ### Arithmetic (42_add_sub.md to 45_exponent.md) -/

/-- R92, R93, R94: ADD, SUB and NEG give the exact sum, difference and negation; a sum or difference that does not fit is
CapacityExceeded, and of operands that fit it needs one limb more, SUB's of opposite signs. NEG always fits. -/
def Obligations.AddSubNegResults : Prop :=
  Encodes 0xFFF000FF 0x10 (fun w => .add (fieldAt w 8) (fieldAt w 12) (fieldAt w 16)) ∧
  Encodes 0xFFF000FF 0x11 (fun w => .sub (fieldAt w 8) (fieldAt w 12) (fieldAt w 16)) ∧
  Encodes 0xFFFF00FF 0x12 (fun w => .neg (fieldAt w 8) (fieldAt w 12)) ∧
  ∀ (s : State) (c : InFlight), s.inflight = some c →
    (∀ vd va vb, exec (.add vd va vb) s = .next (s.afterResult vd (c.v.read va + c.v.read vb)) ∧
      exec (.sub vd va vb) s = .next (s.afterResult vd (c.v.read va - c.v.read vb)) ∧
      (fits s.params (c.v.read va) = true → fits s.params (c.v.read vb) = true →
        (fits s.params (c.v.read va + c.v.read vb) = false →
          nlimbs (c.v.read va + c.v.read vb) = s.params.maxLimbs + 1) ∧
        (fits s.params (c.v.read va - c.v.read vb) = false → (c.v.read va).sign * (c.v.read vb).sign = -1))) ∧
    (∀ vd vs, exec (.neg vd vs) s = .next (s.afterWrite vd (-(c.v.read vs))) ∧
      fits s.params (-(c.v.read vs)) = fits s.params (c.v.read vs))

/-- R95: where no command raises CapacityExceeded, ADD t, a, b then SUB u, t, b gives u = a; and SUB equals NEG followed by
ADD. Each later command reads the registers the one before it left. -/
def Obligations.AddSubLaws : Prop :=
  (∀ (s t s' u : State) (c c' : InFlight) (vt va vb vu : VReg), s.inflight = some c → c.v = s.v → vt ≠ vb →
    exec (.add vt va vb) s = .next t → t.errCode = .noError → s'.inflight = some c' → c'.v = t.v →
    exec (.sub vu vt vb) s' = .next u → u.errCode = .noError → u.v.read vu = s.v.read va) ∧
  (∀ (s t s' u w : State) (c c' : InFlight) (vn va vb vu : VReg), s.inflight = some c → c.v = s.v → vn ≠ va →
    exec (.neg vn vb) s = .next t → s'.inflight = some c' → c'.v = t.v →
    exec (.add vu va vn) s' = .next u → u.errCode = .noError → exec (.sub vu va vb) s = .next w →
    w.errCode = .noError → u.v.read vu = w.v.read vu)

/-- R97, R98: MUL and SQR give the exact product and square. -/
def Obligations.MulSqrResults : Prop :=
  Encodes 0xFFF000FF 0x18 (fun w => .mul (fieldAt w 8) (fieldAt w 12) (fieldAt w 16)) ∧
  Encodes 0xFFFF00FF 0x19 (fun w => .sqr (fieldAt w 8) (fieldAt w 12)) ∧
  ∀ (s : State) (c : InFlight), s.inflight = some c →
    (∀ vd va vb, exec (.mul vd va vb) s = .next (s.afterResult vd (c.v.read va * c.v.read vb))) ∧
    (∀ vd vs, exec (.sqr vd vs) s = .next (s.afterResult vd (c.v.read vs * c.v.read vs)))

/-- R100, R101, R102: DIVREM, DIV and REM give the quotient rounded toward zero and the remainder of R10; a zero divisor is
DivideByZero. A DIVREM word names different destinations. -/
def Obligations.DivideResults : Prop :=
  (∀ w : Word, w &&& 0xFF0000FF = 0x20 →
    (fieldAt w 8 ≠ fieldAt w 20 →
      decode w = some (.divrem (fieldAt w 8) (fieldAt w 20) (fieldAt w 12) (fieldAt w 16))) ∧
    (fieldAt w 8 = fieldAt w 20 → decode w = none)) ∧
  Encodes 0xFFF000FF 0x21 (fun w => .div (fieldAt w 8) (fieldAt w 12) (fieldAt w 16)) ∧
  Encodes 0xFFF000FF 0x22 (fun w => .rem (fieldAt w 8) (fieldAt w 12) (fieldAt w 16)) ∧
  ∀ (s : State) (c : InFlight) (va vb : VReg), s.inflight = some c →
    (c.v.read vb = 0 →
      (∀ vq vr, vq ≠ vr → exec (.divrem vq vr va vb) s = .next (s.afterError .divideByZero 0)) ∧
      (∀ vd, exec (.div vd va vb) s = .next (s.afterError .divideByZero 0)) ∧
      (∀ vd, exec (.rem vd va vb) s = .next (s.afterError .divideByZero 0))) ∧
    (c.v.read vb ≠ 0 →
      (∀ vq vr, vq ≠ vr →
        exec (.divrem vq vr va vb) s =
          .next { s.afterSuccess with
            v := (s.v.write vq (truncQuot (c.v.read va) (c.v.read vb))).write vr
              (truncRem (c.v.read va) (c.v.read vb)) }) ∧
      (∀ vd, exec (.div vd va vb) s = .next (s.afterWrite vd (truncQuot (c.v.read va) (c.v.read vb)))) ∧
      (∀ vd, exec (.rem vd va vb) s = .next (s.afterWrite vd (truncRem (c.v.read va) (c.v.read vb)))))

/-- R99, R10: what a successful DIVREM leaves satisfies a = b·q + r and |r| < |b|, with r = 0 or of the sign of a; no other
pair does. DIV and REM leave the same two values. -/
def Obligations.DivisionLaw : Prop :=
  ∀ (s t : State) (c : InFlight) (vq vr va vb : VReg), s.inflight = some c → vq ≠ vr →
    exec (.divrem vq vr va vb) s = .next t → t.errCode = .noError →
    c.v.read va = c.v.read vb * t.v.read vq + t.v.read vr ∧ (t.v.read vr).natAbs < (c.v.read vb).natAbs ∧
    (t.v.read vr = 0 ∨ (t.v.read vr).sign = (c.v.read va).sign) ∧
    (∀ q r : Int, c.v.read va = c.v.read vb * q + r → r.natAbs < (c.v.read vb).natAbs →
      (r = 0 ∨ r.sign = (c.v.read va).sign) → q = t.v.read vq ∧ r = t.v.read vr) ∧
    ∀ vd : VReg, exec (.div vd va vb) s = .next (s.afterWrite vd (t.v.read vq)) ∧
      exec (.rem vd va vb) s = .next (s.afterWrite vd (t.v.read vr))

/-- R105: POW gives a^n for n ≥ 0 (0^0 = 1), tdiv(1, a^(−n)) for n < 0; its errors in the spec's order. -/
def Obligations.PowResult : Prop :=
  Encodes 0xFFF000FF 0x28 (fun w => .pow (fieldAt w 8) (fieldAt w 12) (fieldAt w 16)) ∧
  ∀ (s : State) (c : InFlight) (vd va vn : VReg), s.inflight = some c →
    (2 ^ 31 - 1 < (c.v.read vn).natAbs → exec (.pow vd va vn) s = .next (s.afterError .exponentTooLarge 0)) ∧
    ((c.v.read vn).natAbs ≤ 2 ^ 31 - 1 →
      (c.v.read vn < 0 → c.v.read va = 0 → exec (.pow vd va vn) s = .next (s.afterError .divideByZero 0)) ∧
      (c.v.read vn < 0 → c.v.read va ≠ 0 →
        exec (.pow vd va vn) s = .next (s.afterResult vd (truncQuot 1 (c.v.read va ^ (c.v.read vn).natAbs)))) ∧
      (0 ≤ c.v.read vn →
        exec (.pow vd va vn) s = .next (s.afterResult vd (c.v.read va ^ (c.v.read vn).natAbs))))

/-- R106: MODPOW gives trem(a^e, m), for an exponent of any size; a negative exponent is NegativeOperand, then a zero
modulus is DivideByZero. -/
def Obligations.ModpowResult : Prop :=
  Encodes 0xFF0000FF 0x29 (fun w => .modpow (fieldAt w 8) (fieldAt w 12) (fieldAt w 16) (fieldAt w 20)) ∧
  ∀ (s : State) (c : InFlight) (vd va ve vm : VReg), s.inflight = some c →
    (c.v.read ve < 0 → exec (.modpow vd va ve vm) s = .next (s.afterError .negativeOperand 0)) ∧
    (0 ≤ c.v.read ve → c.v.read vm = 0 → exec (.modpow vd va ve vm) s = .next (s.afterError .divideByZero 0)) ∧
    (0 ≤ c.v.read ve → c.v.read vm ≠ 0 →
      exec (.modpow vd va ve vm) s =
        .next (s.afterWrite vd (truncRem (c.v.read va ^ (c.v.read ve).natAbs) (c.v.read vm))))

/-! ### Comparison (46_compare.md) -/

/-- R108, R109, R110: CMP, CMPABS and SGN write the sign of a difference, of a difference of magnitudes, and of a value to
R_VAL, and nothing else. -/
def Obligations.CompareResults : Prop :=
  Encodes 0xFFF00FFF 0x30 (fun w => .cmp (fieldAt w 12) (fieldAt w 16)) ∧
  Encodes 0xFFF00FFF 0x31 (fun w => .cmpabs (fieldAt w 12) (fieldAt w 16)) ∧
  Encodes 0xFFFF0FFF 0x32 (fun w => .sgn (fieldAt w 12)) ∧
  ∀ (s : State) (c : InFlight) (va vb : VReg), s.inflight = some c →
    exec (.cmp va vb) s = .next (s.afterVal (signWord (c.v.read va - c.v.read vb))) ∧
    exec (.cmpabs va vb) s = .next (s.afterVal (signWord (|c.v.read va| - |c.v.read vb|))) ∧
    exec (.sgn va) s = .next (s.afterVal (signWord (c.v.read va)))

/-- R111 to R116: each predicate writes 1 to R_VAL where it holds of the value and 0 where not, and nothing else. -/
def Obligations.PredicateResults : Prop :=
  Encodes 0xFFFF0FFF 0x33 (fun w => .iszero (fieldAt w 12)) ∧
  Encodes 0xFFFF0FFF 0x34 (fun w => .isunit (fieldAt w 12)) ∧
  Encodes 0xFFFF0FFF 0x35 (fun w => .iseven (fieldAt w 12)) ∧
  Encodes 0xFFFF0FFF 0x36 (fun w => .isodd (fieldAt w 12)) ∧
  Encodes 0xFFFF0FFF 0x37 (fun w => .ispos (fieldAt w 12)) ∧
  Encodes 0xFFFF0FFF 0x38 (fun w => .isneg (fieldAt w 12)) ∧
  ∀ (s : State) (c : InFlight) (va : VReg), s.inflight = some c →
    exec (.iszero va) s = .next (s.afterVal (if c.v.read va = 0 then 1 else 0)) ∧
    exec (.isunit va) s = .next (s.afterVal (if |c.v.read va| = 1 then 1 else 0)) ∧
    exec (.iseven va) s = .next (s.afterVal (if 2 ∣ c.v.read va then 1 else 0)) ∧
    exec (.isodd va) s = .next (s.afterVal (if 2 ∣ c.v.read va then 0 else 1)) ∧
    exec (.ispos va) s = .next (s.afterVal (if 0 < c.v.read va then 1 else 0)) ∧
    exec (.isneg va) s = .next (s.afterVal (if c.v.read va < 0 then 1 else 0))

/-! ### Base58 (47_base58.md) -/

/-- R122, R120, R119: ENC58B stores the fixed-length encoding of one raw block of 1 to 8 bytes; any other length is
InvalidBlockLength(A_LEN), too small a capacity OutputSpace. -/
def Obligations.Enc58bResult : Prop :=
  Encodes 0xFFFFFFFF 0x42 (fun _ => .enc58b) ∧
  ∀ (s : State) (c : InFlight), s.inflight = some c →
    c.args.src.toNat + c.args.len.toNat ≤ s.params.bufBytes → c.args.dst.toNat + c.args.cap.toNat ≤ s.params.bufBytes →
    ((c.args.len.toNat < 1 ∨ 8 < c.args.len.toNat) →
      exec .enc58b s = .next (s.afterError .invalidBlockLength c.args.len.toNat)) ∧
    (∀ raw : List Byte, c.Source raw → raw.length = c.args.len.toNat → 1 ≤ raw.length → raw.length ≤ 8 →
      ∃ enc : List Byte, EncodedBlock s.params raw enc ∧
        (c.args.cap.toNat < enc.length → exec .enc58b s = .next (s.afterError .outputSpace enc.length)) ∧
        (enc.length ≤ c.args.cap.toNat → exec .enc58b s = .next (s.afterStore c.args.dst.toNat enc)))

/-- R123, R121, R119: DEC58B decodes one block. A length that is no encoded length is InvalidBlockLength(A_LEN); the
rightmost byte that is no symbol is InvalidSymbol; a value that needs more bytes than the length stands for is Overflow;
else the block's bytes are stored. -/
def Obligations.Dec58bResult : Prop :=
  Encodes 0xFFFFFFFF 0x43 (fun _ => .dec58b) ∧
  ∀ (s : State) (c : InFlight) (t : List Byte), s.inflight = some c → s.params.wf = true →
    c.args.src.toNat + c.args.len.toNat ≤ s.params.bufBytes → c.args.dst.toNat + c.args.cap.toNat ≤ s.params.bufBytes →
    c.Source t → t.length = c.args.len.toNat →
    (t.length ∉ [2, 3, 5, 6, 7, 9, 10, 11] →
      exec .dec58b s = .next (s.afterError .invalidBlockLength t.length)) ∧
    (t.length ∈ [2, 3, 5, 6, 7, 9, 10, 11] →
      (∀ (head : List Byte) (bad : Byte) (tail : List Byte), t = head ++ bad :: tail → ¬ IsSymbol s.params bad →
        (∀ ch ∈ tail, IsSymbol s.params ch) → exec .dec58b s = .next (s.afterError .invalidSymbol head.length)) ∧
      (∀ (ds : List Nat) (m : Nat), SymbolsOf s.params ds t → m ≤ 8 → encLenTable.getD m 0 = t.length →
        (256 ^ m ≤ sumOf 58 ds → exec .dec58b s = .next (s.afterError .overflow 0)) ∧
        (sumOf 58 ds < 256 ^ m →
          ∃ raw : List Byte, raw.length = m ∧ sumOf 256 (raw.map (·.toNat)) = sumOf 58 ds ∧
            (c.args.cap.toNat < m → exec .dec58b s = .next (s.afterError .outputSpace m)) ∧
            (m ≤ c.args.cap.toNat → exec .dec58b s = .next (s.afterStore c.args.dst.toNat raw)))))

/-- R124, R126.1: ENC58 stores the encodings of the 8-byte blocks of its input and of the rest, one after another; their
length is 11·(n div 8) + B58_ENC_LEN[n mod 8]; too small a capacity is OutputSpace of it. -/
def Obligations.Enc58Result : Prop :=
  Encodes 0xFFFFFFFF 0x40 (fun _ => .enc58) ∧
  ∀ (s : State) (c : InFlight) (raw : List Byte), s.inflight = some c →
    c.args.src.toNat + c.args.len.toNat ≤ s.params.bufBytes → c.args.dst.toNat + c.args.cap.toNat ≤ s.params.bufBytes →
    c.Source raw → raw.length = c.args.len.toNat →
    ∃ encs : List (List Byte), encs.length = (raw.length + 7) / 8 ∧
      (∀ j, j < encs.length → EncodedBlock s.params (blockAt 8 j raw) (encs.getD j [])) ∧
      encs.flatten.length = 11 * (raw.length / 8) + encLenTable.getD (raw.length % 8) 0 ∧
      (c.args.cap.toNat < encs.flatten.length →
        exec .enc58 s = .next (s.afterError .outputSpace encs.flatten.length)) ∧
      (encs.flatten.length ≤ c.args.cap.toNat →
        exec .enc58 s = .next (s.afterStore c.args.dst.toNat encs.flatten))

/-- R125: DEC58 decodes 11-symbol blocks and the rest. An illegal last length is InvalidBlockLength(A_LEN mod 11) before
any symbol is looked at. Where every block is an encoding, the raw blocks are stored one after another. The lowest block
that is none gives the error: InvalidSymbol at its rightmost byte that is no symbol, else Overflow at its first. -/
def Obligations.Dec58Result : Prop :=
  Encodes 0xFFFFFFFF 0x41 (fun _ => .dec58) ∧
  ∀ (s : State) (c : InFlight), s.inflight = some c → s.params.wf = true →
    c.args.src.toNat + c.args.len.toNat ≤ s.params.bufBytes → c.args.dst.toNat + c.args.cap.toNat ≤ s.params.bufBytes →
    (c.args.len.toNat % 11 ∈ [1, 4, 8] →
      exec .dec58 s = .next (s.afterError .invalidBlockLength (c.args.len.toNat % 11))) ∧
    ∀ t : List Byte, c.Source t → t.length = c.args.len.toNat → t.length % 11 ∉ [1, 4, 8] →
      (∀ raws : List (List Byte), raws.length = (t.length + 10) / 11 →
        (∀ j, j < raws.length → EncodedBlock s.params (raws.getD j []) (blockAt 11 j t)) →
        (c.args.cap.toNat < raws.flatten.length →
          exec .dec58 s = .next (s.afterError .outputSpace raws.flatten.length)) ∧
        (raws.flatten.length ≤ c.args.cap.toNat →
          exec .dec58 s = .next (s.afterStore c.args.dst.toNat raws.flatten))) ∧
      (∀ j, j < (t.length + 10) / 11 → (∀ j', j' < j → ∃ raw, EncodedBlock s.params raw (blockAt 11 j' t)) →
        (∀ (head : List Byte) (bad : Byte) (tail : List Byte), blockAt 11 j t = head ++ bad :: tail →
          ¬ IsSymbol s.params bad → (∀ ch ∈ tail, IsSymbol s.params ch) →
          exec .dec58 s = .next (s.afterError .invalidSymbol (11 * j + head.length))) ∧
        (∀ (ds : List Nat) (m : Nat), SymbolsOf s.params ds (blockAt 11 j t) → m ≤ 8 →
          encLenTable.getD m 0 = (blockAt 11 j t).length → 256 ^ m ≤ sumOf 58 ds →
          exec .dec58 s = .next (s.afterError .overflow (11 * j))))

/-- R126.2: for every byte string, DEC58 of what ENC58 stored gives the byte string back. -/
def Obligations.Dec58InvertsEnc58 : Prop :=
  ∀ (s t s' : State) (c c' : InFlight) (raw : List Byte), s.inflight = some c → s.params.wf = true →
    c.Source raw → raw.length = c.args.len.toNat → exec .enc58 s = .next t → t.errCode = .noError →
    s'.inflight = some c' → s'.params = s.params → c'.buf = t.buf → c'.args.src = c.args.dst →
    c'.args.len = t.rLen → c'.args.dst.toNat + c'.args.cap.toNat ≤ s'.params.bufBytes →
    raw.length ≤ c'.args.cap.toNat →
    exec .dec58 s' = .next (s'.afterStore c'.args.dst.toNat raw)

/-- R126.3: for every symbol string on which DEC58 succeeds, ENC58 of what it stored gives the symbol string back. -/
def Obligations.Enc58InvertsDec58 : Prop :=
  ∀ (s t s' : State) (c c' : InFlight) (syms : List Byte), s.inflight = some c → s.params.wf = true →
    c.Source syms → syms.length = c.args.len.toNat → exec .dec58 s = .next t → t.errCode = .noError →
    s'.inflight = some c' → s'.params = s.params → c'.buf = t.buf → c'.args.src = c.args.dst →
    c'.args.len = t.rLen → c'.args.dst.toNat + c'.args.cap.toNat ≤ s'.params.bufBytes →
    syms.length ≤ c'.args.cap.toNat →
    exec .enc58 s' = .next (s'.afterStore c'.args.dst.toNat syms)
end

