-- ==== Sys2Proof/Laws/Numerals.lean ====
section
/-! SUPPORT. The laws of positional numerals: digits and value are inverse, how long a numeral is, and the computed power is
the power (00_scope.md R10, R11; 45_exponent.md R104). -/

namespace Sys2Proof.Machine

/-! ### valueOf -/

@[simp] theorem valueOf_nil (b : Nat) : valueOf b [] = 0 := rfl

theorem valueOf_append_single (b : Nat) (ds : List Nat) (d : Nat) : valueOf b (ds ++ [d]) = valueOf b ds * b + d := by
  simp [valueOf, List.foldl_append]

theorem valueOf_reverse_cons (b d : Nat) (ds : List Nat) :
    valueOf b (d :: ds).reverse = valueOf b ds.reverse * b + d := by
  rw [List.reverse_cons, valueOf_append_single]

theorem foldl_value (b : Nat) (ds : List Nat) (x : Nat) :
    ds.foldl (fun value d => value * b + d) x = x * b ^ ds.length + valueOf b ds := by
  induction ds generalizing x with
  | nil => simp
  | cons d ds ih =>
    simp only [List.foldl_cons, List.length_cons, valueOf]
    rw [ih (x * b + d), ih (0 * b + d)]
    ring

theorem valueOf_cons (b d : Nat) (ds : List Nat) : valueOf b (d :: ds) = d * b ^ ds.length + valueOf b ds := by
  have := foldl_value b ds (0 * b + d)
  simpa [valueOf] using this

theorem valueOf_append (b : Nat) (xs ys : List Nat) :
    valueOf b (xs ++ ys) = valueOf b xs * b ^ ys.length + valueOf b ys := by
  have := foldl_value b ys (valueOf b xs)
  simpa [valueOf, List.foldl_append] using this

theorem valueOf_lt (b : Nat) (ds : List Nat) (h : ∀ d ∈ ds, d < b) : valueOf b ds < b ^ ds.length := by
  induction ds with
  | nil => simp
  | cons d ds ih =>
    have hd : d < b := h d (by simp)
    have := ih fun x hx => h x (by simp [hx])
    rw [valueOf_cons, List.length_cons, Nat.pow_succ]
    have : (d + 1) * b ^ ds.length ≤ b * b ^ ds.length := Nat.mul_le_mul_right _ hd
    nlinarith

/-- A value is the sum of its digits, each times the power of the base its place has. -/
theorem valueOf_eq_sum (b : Nat) (ds : List Nat) :
    valueOf b ds = ∑ i ∈ Finset.range ds.length, ds.getD i 0 * b ^ (ds.length - 1 - i) := by
  induction ds with
  | nil => simp
  | cons d ds ih =>
    rw [valueOf_cons, List.length_cons, Finset.sum_range_succ', ih, Nat.add_comm]
    congr 1
    refine Finset.sum_congr rfl fun i _ => ?_
    rw [List.getD_cons_succ, show ds.length + 1 - 1 - (i + 1) = ds.length - 1 - i by omega]

/-! ### lowDigits -/

@[simp] theorem lowDigits_length (b k n : Nat) : (lowDigits b k n).length = k := by
  induction k generalizing n with
  | zero => rfl
  | succ k ih => simp [lowDigits, ih]

theorem lowDigits_lt {b : Nat} (hb : 0 < b) (k n d : Nat) (h : d ∈ lowDigits b k n) : d < b := by
  induction k generalizing n with
  | zero => simp [lowDigits] at h
  | succ k ih =>
    rcases List.mem_cons.mp h with rfl | h
    · exact Nat.mod_lt _ hb
    · exact ih _ h

theorem valueOf_lowDigits (b k n : Nat) (h : n < b ^ k) : valueOf b (lowDigits b k n).reverse = n := by
  induction k generalizing n with
  | zero =>
    have : n = 0 := by simpa using h
    subst this
    rfl
  | succ k ih =>
    have hb : 0 < b := by
      rcases Nat.eq_zero_or_pos b with rfl | hb
      · simp at h
      · exact hb
    rw [lowDigits, valueOf_reverse_cons, ih (n / b) (by rw [Nat.div_lt_iff_lt_mul hb, ← Nat.pow_succ]; exact h)]
    exact Nat.div_add_mod' n b

/-- The k-digit numeral of a value is the one list of k digits that has it. -/
theorem lowDigits_valueOf (b : Nat) (ds : List Nat) (h : ∀ d ∈ ds, d < b) :
    lowDigits b ds.length (valueOf b ds.reverse) = ds := by
  induction ds with
  | nil => rfl
  | cons d ds ih =>
    have hd : d < b := h d (by simp)
    have hb : 0 < b := by omega
    have hmod : (valueOf b ds.reverse * b + d) % b = d := by
      rw [Nat.mul_comm, Nat.mul_add_mod, Nat.mod_eq_of_lt hd]
    have hdiv : (valueOf b ds.reverse * b + d) / b = valueOf b ds.reverse := by
      rw [Nat.add_comm, Nat.add_mul_div_right _ _ hb, Nat.div_eq_of_lt hd, Nat.zero_add]
    rw [List.length_cons, lowDigits, valueOf_reverse_cons, hmod, hdiv, ih fun x hx => h x (by simp [hx])]

/-! ### digits -/

theorem digitsUpTo_lt {b : Nat} (hb : 0 < b) (fuel n d : Nat) (h : d ∈ digitsUpTo b fuel n) : d < b := by
  induction fuel generalizing n with
  | zero => simp [digitsUpTo] at h
  | succ fuel ih =>
    unfold digitsUpTo at h
    split at h
    · simp at h
    · rcases List.mem_cons.mp h with rfl | h
      · exact Nat.mod_lt _ hb
      · exact ih _ h

theorem digits_lt {b : Nat} (hb : 0 < b) (n d : Nat) (h : d ∈ digits b n) : d < b := digitsUpTo_lt hb _ n d h

theorem valueOf_digitsUpTo (b fuel n : Nat) (h : n < b ^ fuel) : valueOf b (digitsUpTo b fuel n).reverse = n := by
  induction fuel generalizing n with
  | zero =>
    have : n = 0 := by simpa using h
    subst this
    rfl
  | succ fuel ih =>
    have hb : 0 < b := by
      rcases Nat.eq_zero_or_pos b with rfl | hb
      · simp at h
      · exact hb
    unfold digitsUpTo
    split
    · next h0 => simp [h0]
    · rw [valueOf_reverse_cons, ih (n / b) (by rw [Nat.div_lt_iff_lt_mul hb, ← Nat.pow_succ]; exact h)]
      exact Nat.div_add_mod' n b

theorem lt_pow_log2_succ {b : Nat} (hb : 2 ≤ b) (n : Nat) : n < b ^ (n.log2 + 1) :=
  Nat.lt_of_lt_of_le Nat.lt_log2_self (Nat.pow_le_pow_left hb _)

/-- The digits of n have the value n. -/
theorem valueOf_digits {b : Nat} (hb : 2 ≤ b) (n : Nat) : valueOf b (digits b n).reverse = n :=
  valueOf_digitsUpTo b _ n (lt_pow_log2_succ hb n)

theorem digitsUpTo_length_le (b fuel n k : Nat) (hb : 2 ≤ b) (hf : n < b ^ fuel) :
    (digitsUpTo b fuel n).length ≤ k ↔ n < b ^ k := by
  induction fuel generalizing n k with
  | zero =>
    have : n = 0 := by simpa using hf
    subst this
    simpa [digitsUpTo] using Nat.pow_pos (n := k) (by omega : 0 < b)
  | succ fuel ih =>
    have hb0 : 0 < b := by omega
    unfold digitsUpTo
    split
    · next h0 => subst h0; simpa using Nat.pow_pos (n := k) hb0
    · next h0 =>
      cases k with
      | zero => simp; omega
      | succ k =>
        rw [List.length_cons, Nat.add_le_add_iff_right,
          ih (n / b) k (by rw [Nat.div_lt_iff_lt_mul hb0, ← Nat.pow_succ]; exact hf),
          Nat.div_lt_iff_lt_mul hb0, ← Nat.pow_succ]

/-- A number has at most k digits exactly when it is below b^k. -/
theorem digits_length_le {b : Nat} (hb : 2 ≤ b) (n k : Nat) : (digits b n).length ≤ k ↔ n < b ^ k :=
  digitsUpTo_length_le b _ n k hb (lt_pow_log2_succ hb n)

theorem digitsUpTo_getLast_ne_zero (b fuel n : Nat) (hb : 2 ≤ b) (hf : n < b ^ fuel) (h : digitsUpTo b fuel n ≠ []) :
    (digitsUpTo b fuel n).getLast h ≠ 0 := by
  induction fuel generalizing n with
  | zero => simp [digitsUpTo] at h
  | succ fuel ih =>
    have hb0 : 0 < b := by omega
    by_cases h0 : n = 0
    · exact absurd (by simp [digitsUpTo, h0]) h
    · have hlt : n / b < b ^ fuel := by rw [Nat.div_lt_iff_lt_mul hb0, ← Nat.pow_succ]; exact hf
      simp only [digitsUpTo, h0, if_false]
      by_cases hr : digitsUpTo b fuel (n / b) = []
      · have hz : n / b = 0 := by
          have := valueOf_digitsUpTo b fuel (n / b) hlt
          rw [hr] at this
          simpa using this.symm
        have hnb : n < b := by
          rcases (Nat.div_eq_zero_iff).mp hz with h | h
          · omega
          · exact h
        simpa [hr, Nat.mod_eq_of_lt hnb] using h0
      · rw [List.getLast_cons hr]
        exact ih (n / b) hlt hr

/-- No leading zero digit. -/
theorem digits_getLast_ne_zero {b : Nat} (hb : 2 ≤ b) (n : Nat) (h : digits b n ≠ []) : (digits b n).getLast h ≠ 0 :=
  digitsUpTo_getLast_ne_zero b _ n hb (lt_pow_log2_succ hb n) h

theorem digits_eq_nil {b : Nat} (hb : 2 ≤ b) (n : Nat) : digits b n = [] ↔ n = 0 := by
  constructor
  · intro h
    have := valueOf_digits hb n
    rw [h] at this
    simpa using this.symm
  · rintro rfl
    simp [digits, digitsUpTo]

/-! ### Powers -/

theorem square_step (x n : Nat) :
    (if n % 2 = 1 then x ^ (n / 2) * x ^ (n / 2) * x else x ^ (n / 2) * x ^ (n / 2)) = x ^ n := by
  split
  · rw [← pow_add, ← pow_succ]; congr 1; omega
  · rw [← pow_add]; congr 1; omega

theorem powerUpTo_eq (a fuel n : Nat) (h : n < 2 ^ fuel) : powerUpTo a fuel n = a ^ n := by
  induction fuel generalizing n with
  | zero =>
    have : n = 0 := by simpa using h
    simp [this, powerUpTo]
  | succ fuel ih =>
    unfold powerUpTo
    split
    · next h0 => simp [h0]
    · simp only [ih (n / 2) (by omega)]
      exact square_step a n

@[simp] theorem power_eq (a n : Nat) : power a n = a ^ n := powerUpTo_eq a _ n Nat.lt_log2_self

/-! ### Limbs and capacity (R11) -/

theorem limbBase_eq : limbBase = 10 ^ 7 := by norm_num [limbBase]

theorem nlimbs_le (v : Int) (k : Nat) : nlimbs v ≤ k ↔ v.natAbs < 10 ^ (7 * k) := by
  rw [nlimbs, limbs, digits_length_le (by norm_num [limbBase]), limbBase_eq, ← pow_mul]

/-- `fits(v)` iff |v| < 10^(7·MAX_LIMBS) (R11). -/
theorem fits_iff (p : Params) (v : Int) : fits p v = true ↔ v.natAbs < 10 ^ (7 * p.maxLimbs) := by
  rw [fits, decide_eq_true_eq, nlimbs_le]

theorem valueOf_limbs (v : Int) : valueOf limbBase (limbs v).reverse = v.natAbs :=
  valueOf_digits (by norm_num [limbBase]) _

theorem limbs_lt (v : Int) (l : Nat) (h : l ∈ limbs v) : l < 10 ^ 7 := by
  have := digits_lt (by norm_num [limbBase]) _ l h
  rwa [limbBase_eq] at this

theorem fits_neg (p : Params) (v : Int) : fits p (-v) = fits p v := by
  unfold fits nlimbs limbs
  rw [Int.natAbs_neg]

/-- A value no larger in magnitude than one that fits, fits. -/
theorem fits_of_natAbs_le {p : Params} {v x : Int} (h : fits p v = true) (hx : x.natAbs ≤ v.natAbs) : fits p x = true := by
  rw [fits_iff] at *
  omega

theorem signed_natAbs (neg : Bool) (m : Nat) : (signed neg m).natAbs = m := by
  cases neg <;> simp [signed]

/-! ### Bytes -/

theorem byte_toNat_lt (b : Byte) : b.toNat < 256 := b.isLt

theorem map_ofNat_toNat (bs : List Byte) : (bs.map (·.toNat)).map (BitVec.ofNat 8) = bs := by
  simp [List.map_map, Function.comp_def]

theorem map_toNat_ofNat (ds : List Nat) (h : ∀ d ∈ ds, d < 256) :
    ((ds.map (BitVec.ofNat 8)).map (·.toNat)) = ds := by
  rw [List.map_map]
  refine (List.map_congr_left fun d hd => ?_).trans (List.map_id ds)
  simp only [Function.comp_apply, BitVec.toNat_ofNat, id_eq]
  exact Nat.mod_eq_of_lt (h d hd)

@[simp] theorem beBytes_length (n v : Nat) : (beBytes n v).length = n := by simp [beBytes]

theorem beValue_lt (bs : List Byte) : beValue bs < 256 ^ bs.length := by
  have := valueOf_lt 256 (bs.map (·.toNat)) (by
    intro d hd
    obtain ⟨b, -, rfl⟩ := List.mem_map.mp hd
    exact byte_toNat_lt b)
  simpa [beValue] using this

theorem beValue_beBytes (n v : Nat) (h : v < 256 ^ n) : beValue (beBytes n v) = v := by
  have : (beBytes n v).map (·.toNat) = (lowDigits 256 n v).reverse := by
    rw [beBytes, List.map_reverse, map_toNat_ofNat _ fun d hd => lowDigits_lt (by norm_num) n v d hd]
  rw [beValue, this, valueOf_lowDigits 256 n v h]

theorem beBytes_beValue (bs : List Byte) : beBytes bs.length (beValue bs) = bs := by
  have h := lowDigits_valueOf 256 (bs.map (·.toNat)).reverse (by
    intro d hd
    obtain ⟨b, -, rfl⟩ := List.mem_map.mp (List.mem_reverse.mp hd)
    exact byte_toNat_lt b)
  rw [List.reverse_reverse, List.length_reverse, List.length_map] at h
  rw [beBytes, beValue, h, ← List.map_reverse, List.reverse_reverse, map_ofNat_toNat]

/-- The value of a big-endian byte sequence is the sum the spec writes (R52). -/
theorem beValue_eq_sum (bs : List Byte) :
    beValue bs = ∑ i ∈ Finset.range bs.length, (bs.getD i 0).toNat * 256 ^ (bs.length - 1 - i) := by
  rw [beValue, valueOf_eq_sum, List.length_map]
  refine Finset.sum_congr rfl fun i _ => ?_
  congr 1
  simp only [List.getD_eq_getElem?_getD, List.getElem?_map]
  cases bs[i]? <;> simp

theorem beValue_append (xs ys : List Byte) : beValue (xs ++ ys) = beValue xs * 256 ^ ys.length + beValue ys := by
  simp [beValue, valueOf_append]

end Sys2Proof.Machine
end

