-- ==== Sys2Proof/Laws/Exponent.lean ====
section
/-! SUPPORT. What the model computes by square and multiply is the exact result the spec writes: the truncated quotient and
remainder (00_scope.md R10, 44_divide.md R99), POW (45_exponent.md R105) and MODPOW (R106). -/

namespace Sys2Proof.Machine

/-! ### Truncated division (R10, R99) -/

theorem trem_eq_tmod (a b : Int) : trem a b = a.tmod b := (Int.tmod_def a b).symm

theorem tdiv_add_trem (a b : Int) : a = tdiv a b * b + trem a b := by
  unfold trem; ring

theorem trem_natAbs_lt (a : Int) {b : Int} (hb : b ≠ 0) : (trem a b).natAbs < b.natAbs := by
  rw [trem_eq_tmod, Int.natAbs_tmod]
  exact Nat.mod_lt _ (Int.natAbs_pos.mpr hb)

theorem tdiv_natAbs_le (a b : Int) : (tdiv a b).natAbs ≤ a.natAbs := by
  rw [tdiv, Int.natAbs_tdiv]
  exact Nat.div_le_self _ _

theorem trem_natAbs_le (a b : Int) : (trem a b).natAbs ≤ a.natAbs := by
  rw [trem_eq_tmod, Int.natAbs_tmod]
  exact Nat.mod_le _ _

/-- tdiv is sgn(a)·sgn(b)·floor(|a| / |b|) (R10). -/
theorem tdiv_eq_sign_mul (a b : Int) : tdiv a b = a.sign * b.sign * ((a.natAbs / b.natAbs : Nat) : Int) := by
  rw [tdiv]
  rcases Int.natAbs_eq a with ha | ha <;> rcases Int.natAbs_eq b with hb | hb <;>
    (rw [ha, hb]; generalize a.natAbs = m; generalize b.natAbs = n) <;>
    (rcases Nat.eq_zero_or_pos m with rfl | hm <;> rcases Nat.eq_zero_or_pos n with rfl | hn <;> simp_all [Int.sign_eq_one_of_pos])

/-! ### POW (R105) -/

theorem signed_pow (a : Int) (n : Nat) :
    signed (decide (a < 0) && decide (n % 2 = 1)) (a.natAbs ^ n) = a ^ n := by
  rcases lt_or_ge a 0 with h | h
  · have ha : a = -(a.natAbs : Int) := by omega
    rcases Nat.even_or_odd n with he | ho
    · have : n % 2 = 0 := Nat.even_iff.mp he
      simp only [h, this, decide_true, signed]
      conv_rhs => rw [ha, he.neg_pow]
      simp
    · have : n % 2 = 1 := Nat.odd_iff.mp ho
      simp only [h, this, decide_true, Bool.and_self, signed]
      conv_rhs => rw [ha, ho.neg_pow]
      simp
  · have ha : a = (a.natAbs : Int) := by omega
    have hn : ¬ a < 0 := by omega
    simp only [hn, decide_false, Bool.false_and, signed]
    conv_rhs => rw [ha]
    simp

theorem fittingPowerUpTo_eq (limit a fuel n : Nat) (h : n < 2 ^ fuel) :
    fittingPowerUpTo limit a fuel n =
      if n = 0 ∨ (digits limbBase (a ^ n)).length ≤ limit then some (a ^ n) else none := by
  have hb : 2 ≤ limbBase := by norm_num [limbBase]
  induction fuel generalizing n with
  | zero =>
    have : n = 0 := by simpa using h
    simp [this, fittingPowerUpTo]
  | succ fuel ih =>
    unfold fittingPowerUpTo
    by_cases h0 : n = 0
    · simp [h0]
    · rw [if_neg h0, ih (n / 2) (by omega)]
      by_cases hs : n / 2 = 0 ∨ (digits limbBase (a ^ (n / 2))).length ≤ limit
      · simp only [hs, if_true, square_step, h0, false_or]
      · have hs' : ¬ (digits limbBase (a ^ (n / 2))).length ≤ limit := fun x => hs (Or.inr x)
        have hn : ¬ (digits limbBase (a ^ n)).length ≤ limit := by
          rw [digits_length_le hb] at hs' ⊢
          have ha : 0 < a := by
            rcases Nat.eq_zero_or_pos a with rfl | ha
            · exfalso
              apply hs'
              rw [Nat.zero_pow (by omega)]
              exact Nat.pow_pos (by omega)
            · exact ha
          have := Nat.pow_le_pow_right ha (Nat.div_le_self n 2)
          omega
        rw [if_neg hs]
        simp [h0, hn]

/-- POW for a positive exponent stores the exact power, with the capacity check on the result alone (R105, R132). -/
theorem storePower_eq (p : Params) (r : VReg) (a : Int) {n : Nat} (hn : n ≠ 0) :
    storePower p r a n = storeValue p r (a ^ n) := by
  unfold storePower
  rw [fittingPowerUpTo_eq _ _ _ _ Nat.lt_log2_self]
  by_cases h : (digits limbBase (a.natAbs ^ n)).length ≤ p.maxLimbs
  · simp only [hn, h, or_true, if_true, signed_pow]
  · have hf : fits p (a ^ n) = false := by
      rw [Bool.eq_false_iff]
      intro hf
      rw [fits, decide_eq_true_eq, nlimbs, limbs, Int.natAbs_pow] at hf
      exact h hf
    simp [hn, h, storeValue, hf]

/-- The reciprocal is the truncated quotient 1 / a^k (R105). -/
theorem reciprocalPower_eq {a : Int} {k : Nat} (ha : a ≠ 0) (hk : 0 < k) : reciprocalPower a k = tdiv 1 (a ^ k) := by
  unfold reciprocalPower
  split
  · next h => subst h; simp [tdiv]
  · next h1 =>
    split
    · next h2 =>
      subst h2
      rcases Nat.even_or_odd k with he | ho
      · have : ¬ k % 2 = 1 := by have := Nat.even_iff.mp he; omega
        rw [if_neg this, he.neg_one_pow]; rfl
      · rw [if_pos (Nat.odd_iff.mp ho), ho.neg_one_pow]; rfl
    · next h2 =>
      have h3 : 2 ≤ a.natAbs := by omega
      have h4 : 1 < (a ^ k).natAbs := by
        rw [Int.natAbs_pow]
        exact Nat.one_lt_pow (by omega) (by omega)
      have : (tdiv 1 (a ^ k)).natAbs = 0 := by
        rw [tdiv, Int.natAbs_tdiv]
        exact Nat.div_eq_of_lt h4
      omega

/-! ### MODPOW (R106) -/

/-- trem has the sign of the dividend and the magnitude |a| mod |b| (R10). -/
theorem trem_eq_sign_mul (a b : Int) : trem a b = a.sign * ((a.natAbs % b.natAbs : Nat) : Int) := by
  rw [trem_eq_tmod, ← Int.natAbs_tmod]
  rcases lt_trichotomy a 0 with h | h | h
  · have := Int.tmod_nonneg b (a := -a) (by omega)
    rw [Int.neg_tmod] at this
    rw [Int.sign_eq_neg_one_of_neg h]
    omega
  · subst h; simp
  · have := Int.tmod_nonneg b h.le
    rw [Int.sign_eq_one_of_pos h]
    omega

theorem trem_mul_left (x y m : Int) : trem (trem x m * y) m = trem (x * y) m := by
  rw [trem_eq_sign_mul (trem x m * y), trem_eq_sign_mul (x * y), Int.natAbs_mul, Int.natAbs_mul, Int.sign_mul,
    Int.sign_mul]
  have habs : (trem x m).natAbs = x.natAbs % m.natAbs := by rw [trem_eq_tmod, Int.natAbs_tmod]
  have hmod : x.natAbs % m.natAbs * y.natAbs % m.natAbs = x.natAbs * y.natAbs % m.natAbs := by
    rw [Nat.mod_mul_mod]
  rw [habs, hmod]
  by_cases h0 : x.natAbs % m.natAbs = 0
  · have : x.natAbs * y.natAbs % m.natAbs = 0 := by rw [← hmod, h0, Nat.zero_mul, Nat.zero_mod]
    rw [this]
    simp
  · have hs : (trem x m).sign = x.sign := by
      rw [trem_eq_sign_mul, Int.sign_mul, Int.sign_sign, Int.sign_natCast_of_ne_zero h0, mul_one]
    rw [hs]

theorem trem_mul_both (x y m : Int) : trem (trem x m * trem y m) m = trem (x * y) m := by
  rw [trem_mul_left, mul_comm, trem_mul_left, mul_comm]

/-- Reducing after every step gives the remainder of the exact power (R106). -/
theorem modularPowerUpTo_eq (a m : Int) (fuel n : Nat) (h : n < 2 ^ fuel) :
    modularPowerUpTo a m fuel n = trem (a ^ n) m := by
  induction fuel generalizing n with
  | zero =>
    have : n = 0 := by simpa using h
    simp [this, modularPowerUpTo]
  | succ fuel ih =>
    unfold modularPowerUpTo
    split
    · next h0 => simp [h0]
    · simp only [ih (n / 2) (by omega), trem_mul_both]
      split
      · rw [trem_mul_left, ← pow_add, ← pow_succ]; congr 2; omega
      · rw [← pow_add]; congr 2; omega

end Sys2Proof.Machine
end

