-- ==== Sys2Proof/Laws/State.lean ====
section
/-! SUPPORT. One lemma per field of State for each named update of it, true by rfl, so that no proof unfolds an update; and
the two laws of the register file. -/

namespace Sys2Proof.Machine

/-! ### The register file -/

@[simp] theorem Regs.read_write_same (v : Regs) (r : VReg) (x : Int) : (v.write r x).read r = x := by
  simp [Regs.read, Regs.write]

theorem Regs.read_write_other (v : Regs) {r q : VReg} (x : Int) (h : q ≠ r) : (v.write r x).read q = v.read q := by
  have h' : r.val ≠ q.val := fun e => h (Fin.ext e.symm)
  simp [Regs.read, Regs.write, Vector.getElem_set_ne, h']

theorem Regs.read_write (v : Regs) (r q : VReg) (x : Int) :
    (v.write r x).read q = if q = r then x else v.read q := by
  split
  · next h => subst h; simp
  · next h => exact Regs.read_write_other v x h

@[simp] theorem Regs.writeAll_nil (v : Regs) : v.writeAll [] = v := rfl

@[simp] theorem Regs.writeAll_cons (v : Regs) (w : VReg × Int) (ws : List (VReg × Int)) :
    v.writeAll (w :: ws) = (v.write w.1 w.2).writeAll ws := rfl

@[simp] theorem Regs.read_replicate (x : Int) (r : VReg) : Regs.read (Vector.replicate 16 x) r = x := by
  simp [Regs.read]

@[simp] theorem Memory.write_nil (m : Memory) (a : Nat) : m.write a [] = m := rfl

/-! ### Success completion (R133) -/

@[simp] theorem State.succeed_params (s : State) (w : Writes) :
    (s.succeed w).params = s.params := rfl
@[simp] theorem State.succeed_v (s : State) (w : Writes) :
    (s.succeed w).v = s.v.writeAll w.regs := rfl
@[simp] theorem State.succeed_buf (s : State) (w : Writes) :
    (s.succeed w).buf = s.buf.write w.dst w.bytes := rfl
@[simp] theorem State.succeed_ie (s : State) (w : Writes) :
    (s.succeed w).ie = s.ie := rfl
@[simp] theorem State.succeed_done (s : State) (w : Writes) :
    (s.succeed w).done = true := rfl
@[simp] theorem State.succeed_ovr (s : State) (w : Writes) :
    (s.succeed w).ovr = s.ovr := rfl
@[simp] theorem State.succeed_cmd (s : State) (w : Writes) :
    (s.succeed w).cmd = s.cmd := rfl
@[simp] theorem State.succeed_args (s : State) (w : Writes) :
    (s.succeed w).args = s.args := rfl
@[simp] theorem State.succeed_rVal (s : State) (w : Writes) :
    (s.succeed w).rVal = w.rVal.getD s.rVal := rfl
@[simp] theorem State.succeed_rLen (s : State) (w : Writes) :
    (s.succeed w).rLen = w.rLen.getD s.rLen := rfl
@[simp] theorem State.succeed_errCode (s : State) (w : Writes) :
    (s.succeed w).errCode = .noError := rfl
@[simp] theorem State.succeed_errInfo (s : State) (w : Writes) :
    (s.succeed w).errInfo = 0 := rfl
@[simp] theorem State.succeed_vsel (s : State) (w : Writes) :
    (s.succeed w).vsel = s.vsel := rfl
@[simp] theorem State.succeed_inflight (s : State) (w : Writes) :
    (s.succeed w).inflight = none := rfl
@[simp] theorem State.succeed_resetLine (s : State) (w : Writes) :
    (s.succeed w).resetLine = s.resetLine := rfl
@[simp] theorem State.succeed_rdata (s : State) (w : Writes) :
    (s.succeed w).rdata = s.rdata := rfl
@[simp] theorem State.succeed_freeCount (s : State) (w : Writes) :
    (s.succeed w).freeCount = s.freeCount := rfl
@[simp] theorem State.succeed_inputs (s : State) (w : Writes) :
    (s.succeed w).inputs = s.inputs := rfl

/-! ### Error completion (R131, R133) -/

@[simp] theorem State.fail_params (s : State) (e : ErrCode) (info : Nat) :
    (s.fail e info).params = s.params := rfl
@[simp] theorem State.fail_v (s : State) (e : ErrCode) (info : Nat) :
    (s.fail e info).v = s.v := rfl
@[simp] theorem State.fail_buf (s : State) (e : ErrCode) (info : Nat) :
    (s.fail e info).buf = s.buf := rfl
@[simp] theorem State.fail_ie (s : State) (e : ErrCode) (info : Nat) :
    (s.fail e info).ie = s.ie := rfl
@[simp] theorem State.fail_done (s : State) (e : ErrCode) (info : Nat) :
    (s.fail e info).done = true := rfl
@[simp] theorem State.fail_ovr (s : State) (e : ErrCode) (info : Nat) :
    (s.fail e info).ovr = s.ovr := rfl
@[simp] theorem State.fail_cmd (s : State) (e : ErrCode) (info : Nat) :
    (s.fail e info).cmd = s.cmd := rfl
@[simp] theorem State.fail_args (s : State) (e : ErrCode) (info : Nat) :
    (s.fail e info).args = s.args := rfl
@[simp] theorem State.fail_rVal (s : State) (e : ErrCode) (info : Nat) :
    (s.fail e info).rVal = s.rVal := rfl
@[simp] theorem State.fail_rLen (s : State) (e : ErrCode) (info : Nat) :
    (s.fail e info).rLen = s.rLen := rfl
@[simp] theorem State.fail_errCode (s : State) (e : ErrCode) (info : Nat) :
    (s.fail e info).errCode = e := rfl
@[simp] theorem State.fail_errInfo (s : State) (e : ErrCode) (info : Nat) :
    (s.fail e info).errInfo = BitVec.ofNat 32 info := rfl
@[simp] theorem State.fail_vsel (s : State) (e : ErrCode) (info : Nat) :
    (s.fail e info).vsel = s.vsel := rfl
@[simp] theorem State.fail_inflight (s : State) (e : ErrCode) (info : Nat) :
    (s.fail e info).inflight = none := rfl
@[simp] theorem State.fail_resetLine (s : State) (e : ErrCode) (info : Nat) :
    (s.fail e info).resetLine = s.resetLine := rfl
@[simp] theorem State.fail_rdata (s : State) (e : ErrCode) (info : Nat) :
    (s.fail e info).rdata = s.rdata := rfl
@[simp] theorem State.fail_freeCount (s : State) (e : ErrCode) (info : Nat) :
    (s.fail e info).freeCount = s.freeCount := rfl
@[simp] theorem State.fail_inputs (s : State) (e : ErrCode) (info : Nat) :
    (s.fail e info).inputs = s.inputs := rfl

/-! ### Issue (R28) -/

@[simp] theorem State.latch_params (s : State) (w : Word) :
    (s.latch w).params = s.params := rfl
@[simp] theorem State.latch_v (s : State) (w : Word) :
    (s.latch w).v = s.v := rfl
@[simp] theorem State.latch_buf (s : State) (w : Word) :
    (s.latch w).buf = s.buf := rfl
@[simp] theorem State.latch_ie (s : State) (w : Word) :
    (s.latch w).ie = s.ie := rfl
@[simp] theorem State.latch_done (s : State) (w : Word) :
    (s.latch w).done = false := rfl
@[simp] theorem State.latch_ovr (s : State) (w : Word) :
    (s.latch w).ovr = s.ovr := rfl
@[simp] theorem State.latch_cmd (s : State) (w : Word) :
    (s.latch w).cmd = w := rfl
@[simp] theorem State.latch_args (s : State) (w : Word) :
    (s.latch w).args = s.args := rfl
@[simp] theorem State.latch_rVal (s : State) (w : Word) :
    (s.latch w).rVal = s.rVal := rfl
@[simp] theorem State.latch_rLen (s : State) (w : Word) :
    (s.latch w).rLen = s.rLen := rfl
@[simp] theorem State.latch_errCode (s : State) (w : Word) :
    (s.latch w).errCode = s.errCode := rfl
@[simp] theorem State.latch_errInfo (s : State) (w : Word) :
    (s.latch w).errInfo = s.errInfo := rfl
@[simp] theorem State.latch_vsel (s : State) (w : Word) :
    (s.latch w).vsel = s.vsel := rfl
@[simp] theorem State.latch_inflight (s : State) (w : Word) :
    (s.latch w).inflight = some { word := w, args := s.args, v := s.v, buf := s.buf } := rfl
@[simp] theorem State.latch_resetLine (s : State) (w : Word) :
    (s.latch w).resetLine = s.resetLine := rfl
@[simp] theorem State.latch_rdata (s : State) (w : Word) :
    (s.latch w).rdata = s.rdata := rfl
@[simp] theorem State.latch_freeCount (s : State) (w : Word) :
    (s.latch w).freeCount = s.freeCount := rfl
@[simp] theorem State.latch_inputs (s : State) (w : Word) :
    (s.latch w).inputs = s.inputs := rfl

/-! ### Hard reset (R150) -/

@[simp] theorem State.hardReset_params (s : State) :
    (s.hardReset).params = s.params := rfl
@[simp] theorem State.hardReset_v (s : State) :
    (s.hardReset).v = Vector.replicate 16 0 := rfl
@[simp] theorem State.hardReset_buf (s : State) :
    (s.hardReset).buf = [] := rfl
@[simp] theorem State.hardReset_ie (s : State) :
    (s.hardReset).ie = false := rfl
@[simp] theorem State.hardReset_done (s : State) :
    (s.hardReset).done = false := rfl
@[simp] theorem State.hardReset_ovr (s : State) :
    (s.hardReset).ovr = false := rfl
@[simp] theorem State.hardReset_cmd (s : State) :
    (s.hardReset).cmd = 0 := rfl
@[simp] theorem State.hardReset_args (s : State) :
    (s.hardReset).args = { src := 0, len := 0, dst := 0, cap := 0 } := rfl
@[simp] theorem State.hardReset_rVal (s : State) :
    (s.hardReset).rVal = 0 := rfl
@[simp] theorem State.hardReset_rLen (s : State) :
    (s.hardReset).rLen = 0 := rfl
@[simp] theorem State.hardReset_errCode (s : State) :
    (s.hardReset).errCode = .noError := rfl
@[simp] theorem State.hardReset_errInfo (s : State) :
    (s.hardReset).errInfo = 0 := rfl
@[simp] theorem State.hardReset_vsel (s : State) :
    (s.hardReset).vsel = 0 := rfl
@[simp] theorem State.hardReset_inflight (s : State) :
    (s.hardReset).inflight = none := rfl
@[simp] theorem State.hardReset_resetLine (s : State) :
    (s.hardReset).resetLine = s.resetLine := rfl
@[simp] theorem State.hardReset_rdata (s : State) :
    (s.hardReset).rdata = s.rdata := rfl
@[simp] theorem State.hardReset_freeCount (s : State) :
    (s.hardReset).freeCount = s.freeCount := rfl
@[simp] theorem State.hardReset_inputs (s : State) :
    (s.hardReset).inputs = s.inputs := rfl

/-! ### Soft reset (R150) -/

@[simp] theorem State.softReset_params (s : State) (b : Bool) :
    (s.softReset b).params = s.params := rfl
@[simp] theorem State.softReset_v (s : State) (b : Bool) :
    (s.softReset b).v = Vector.replicate 16 0 := rfl
@[simp] theorem State.softReset_buf (s : State) (b : Bool) :
    (s.softReset b).buf = s.buf := rfl
@[simp] theorem State.softReset_ie (s : State) (b : Bool) :
    (s.softReset b).ie = b := rfl
@[simp] theorem State.softReset_done (s : State) (b : Bool) :
    (s.softReset b).done = false := rfl
@[simp] theorem State.softReset_ovr (s : State) (b : Bool) :
    (s.softReset b).ovr = false := rfl
@[simp] theorem State.softReset_cmd (s : State) (b : Bool) :
    (s.softReset b).cmd = 0 := rfl
@[simp] theorem State.softReset_args (s : State) (b : Bool) :
    (s.softReset b).args = { src := 0, len := 0, dst := 0, cap := 0 } := rfl
@[simp] theorem State.softReset_rVal (s : State) (b : Bool) :
    (s.softReset b).rVal = 0 := rfl
@[simp] theorem State.softReset_rLen (s : State) (b : Bool) :
    (s.softReset b).rLen = 0 := rfl
@[simp] theorem State.softReset_errCode (s : State) (b : Bool) :
    (s.softReset b).errCode = .noError := rfl
@[simp] theorem State.softReset_errInfo (s : State) (b : Bool) :
    (s.softReset b).errInfo = 0 := rfl
@[simp] theorem State.softReset_vsel (s : State) (b : Bool) :
    (s.softReset b).vsel = 0 := rfl
@[simp] theorem State.softReset_inflight (s : State) (b : Bool) :
    (s.softReset b).inflight = none := rfl
@[simp] theorem State.softReset_resetLine (s : State) (b : Bool) :
    (s.softReset b).resetLine = s.resetLine := rfl
@[simp] theorem State.softReset_rdata (s : State) (b : Bool) :
    (s.softReset b).rdata = s.rdata := rfl
@[simp] theorem State.softReset_freeCount (s : State) (b : Bool) :
    (s.softReset b).freeCount = s.freeCount := rfl
@[simp] theorem State.softReset_inputs (s : State) (b : Bool) :
    (s.softReset b).inputs = s.inputs := rfl

/-! ### The state after a hard reset (R150) -/

@[simp] theorem State.resetOf_params (p : Params) :
    (State.resetOf p).params = p := rfl
@[simp] theorem State.resetOf_v (p : Params) :
    (State.resetOf p).v = Vector.replicate 16 0 := rfl
@[simp] theorem State.resetOf_buf (p : Params) :
    (State.resetOf p).buf = [] := rfl
@[simp] theorem State.resetOf_ie (p : Params) :
    (State.resetOf p).ie = false := rfl
@[simp] theorem State.resetOf_done (p : Params) :
    (State.resetOf p).done = false := rfl
@[simp] theorem State.resetOf_ovr (p : Params) :
    (State.resetOf p).ovr = false := rfl
@[simp] theorem State.resetOf_cmd (p : Params) :
    (State.resetOf p).cmd = 0 := rfl
@[simp] theorem State.resetOf_args (p : Params) :
    (State.resetOf p).args = { src := 0, len := 0, dst := 0, cap := 0 } := rfl
@[simp] theorem State.resetOf_rVal (p : Params) :
    (State.resetOf p).rVal = 0 := rfl
@[simp] theorem State.resetOf_rLen (p : Params) :
    (State.resetOf p).rLen = 0 := rfl
@[simp] theorem State.resetOf_errCode (p : Params) :
    (State.resetOf p).errCode = .noError := rfl
@[simp] theorem State.resetOf_errInfo (p : Params) :
    (State.resetOf p).errInfo = 0 := rfl
@[simp] theorem State.resetOf_vsel (p : Params) :
    (State.resetOf p).vsel = 0 := rfl
@[simp] theorem State.resetOf_inflight (p : Params) :
    (State.resetOf p).inflight = none := rfl
@[simp] theorem State.resetOf_resetLine (p : Params) :
    (State.resetOf p).resetLine = false := rfl
@[simp] theorem State.resetOf_rdata (p : Params) :
    (State.resetOf p).rdata = 0 := rfl
@[simp] theorem State.resetOf_freeCount (p : Params) :
    (State.resetOf p).freeCount = 0 := rfl
@[simp] theorem State.resetOf_inputs (p : Params) :
    (State.resetOf p).inputs = [] := rfl

end Sys2Proof.Machine
end

