-- ==== Sys2Proof/Laws/Memory.lean ====
section
/-! SUPPORT. The laws of the buffer: a read after a write, every other byte left alone, the canonical form and the size kept
by every operation, and what MemRead answers (10_state.md R22, R23; 00_scope.md R12). -/

namespace Sys2Proof.Machine

@[simp] theorem Memory.byteAt_nil (a : Nat) : Memory.byteAt [] a = none := rfl

theorem Memory.byteAt_cons (k : Nat) (b : Byte) (m : Memory) (a : Nat) :
    Memory.byteAt ((k, b) :: m) a = if a = k then some b else Memory.byteAt m a := rfl

theorem Memory.byteAt_put_same (m : Memory) (a : Nat) (b : Byte) : (m.put a b).byteAt a = some b := by
  induction m with
  | nil => simp [Memory.put, Memory.byteAt]
  | cons cell m ih =>
    obtain ⟨k, c⟩ := cell
    unfold Memory.put
    split
    · simp [Memory.byteAt]
    · split
      · simp [Memory.byteAt]
      · next h => simp [Memory.byteAt, h, ih]

theorem Memory.byteAt_put_other (m : Memory) {a x : Nat} (b : Byte) (h : x ≠ a) :
    (m.put a b).byteAt x = m.byteAt x := by
  induction m with
  | nil => simp [Memory.put, Memory.byteAt, h]
  | cons cell m ih =>
    obtain ⟨k, c⟩ := cell
    unfold Memory.put
    split
    · simp [Memory.byteAt, h]
    · split
      · next h' => subst h'; simp [Memory.byteAt, h]
      · simp [Memory.byteAt, ih]

theorem Memory.byteAt_put (m : Memory) (a x : Nat) (b : Byte) :
    (m.put a b).byteAt x = if x = a then some b else m.byteAt x := by
  split
  · next h => subst h; exact m.byteAt_put_same x b
  · next h => exact m.byteAt_put_other b h

theorem Memory.byteAt_write_outside (m : Memory) (a x : Nat) (bs : List Byte) (h : x < a ∨ a + bs.length ≤ x) :
    (m.write a bs).byteAt x = m.byteAt x := by
  induction bs generalizing m a with
  | nil => rfl
  | cons b bs ih =>
    simp only [List.length_cons] at h
    have hne : x ≠ a := by omega
    rw [Memory.write, ih (m.put a b) (a + 1) (by omega), Memory.byteAt_put_other m b hne]

theorem Memory.byteAt_write_inside (m : Memory) (a i : Nat) (bs : List Byte) (h : i < bs.length) :
    (m.write a bs).byteAt (a + i) = some bs[i] := by
  induction bs generalizing m a i with
  | nil => simp at h
  | cons b bs ih =>
    rw [Memory.write]
    cases i with
    | zero =>
      rw [Memory.byteAt_write_outside _ _ _ _ (by omega)]
      simp [Memory.byteAt_put_same]
    | succ i =>
      have := ih (m.put a b) (a + 1) i (by simpa using h)
      rw [show a + (i + 1) = a + 1 + i by omega, this]
      simp

/-- MemRead answers exactly when every byte of the range is written, with those bytes in order. -/
theorem Memory.read_eq_some (m : Memory) (a n : Nat) (bs : List Byte) :
    m.read a n = some bs ↔ bs.length = n ∧ ∀ i (h : i < bs.length), m.byteAt (a + i) = some bs[i] := by
  induction n generalizing a bs with
  | zero =>
    constructor
    · intro h; cases h; simp
    · rintro ⟨h, -⟩; rw [List.length_eq_zero_iff] at h; subst h; rfl
  | succ n ih =>
    unfold Memory.read
    cases hb : m.byteAt a with
    | none =>
      constructor
      · intro h; cases h
      · rintro ⟨hl, h⟩
        have := h 0 (by omega)
        rw [Nat.add_zero, hb] at this; cases this
    | some b =>
      constructor
      · intro h
        obtain ⟨rest, hr, rfl⟩ := Option.map_eq_some_iff.mp h
        obtain ⟨hl, hi⟩ := (ih (a + 1) rest).mp hr
        refine ⟨by simp [hl], ?_⟩
        intro i hlt
        cases i with
        | zero => simpa using hb
        | succ i =>
          have := hi i (by simpa using hlt)
          rw [show a + (i + 1) = a + 1 + i by omega, this]; simp
      · rintro ⟨hl, hi⟩
        cases bs with
        | nil => simp at hl
        | cons c rest =>
          have h0 := hi 0 (by simp)
          rw [Nat.add_zero, hb] at h0
          have hrest : m.read (a + 1) n = some rest := by
            refine (ih (a + 1) rest).mpr ⟨by simpa using hl, ?_⟩
            intro i hlt
            have := hi (i + 1) (by simpa using hlt)
            rw [show a + 1 + i = a + (i + 1) by omega, this]; simp
          simp only [List.getElem_cons_zero, Option.some.injEq] at h0
          simp [hrest, h0]

theorem Memory.read_length {m : Memory} {a n : Nat} {bs : List Byte} (h : m.read a n = some bs) : bs.length = n :=
  ((Memory.read_eq_some m a n bs).mp h).1

/-- MemRead answers none exactly when some byte of the range is unwritten (R23). -/
theorem Memory.read_eq_none (m : Memory) (a n : Nat) :
    m.read a n = none ↔ ∃ i, i < n ∧ m.byteAt (a + i) = none := by
  induction n generalizing a with
  | zero => simp [Memory.read]
  | succ n ih =>
    unfold Memory.read
    cases hb : m.byteAt a with
    | none => simp only [true_iff]; exact ⟨0, by omega, by simpa using hb⟩
    | some b =>
      simp only [Option.map_eq_none_iff, ih (a + 1)]
      constructor
      · rintro ⟨i, hi, h⟩; exact ⟨i + 1, by omega, by rw [show a + (i + 1) = a + 1 + i by omega]; exact h⟩
      · rintro ⟨i, hi, h⟩
        cases i with
        | zero => rw [Nat.add_zero, hb] at h; cases h
        | succ i => exact ⟨i, by omega, by rw [show a + 1 + i = a + (i + 1) by omega]; exact h⟩

/-- What MemWrite wrote, MemRead gives back. -/
theorem Memory.read_write (m : Memory) (a : Nat) (bs : List Byte) : (m.write a bs).read a bs.length = some bs :=
  (Memory.read_eq_some _ _ _ _).mpr ⟨rfl, fun i h => m.byteAt_write_inside a i bs h⟩

/-! ### The canonical form -/

/-- Every listed offset is at least `lo`. -/
def Memory.above (m : Memory) (lo : Nat) : Prop := ∀ cell ∈ m, lo ≤ cell.1

theorem Memory.wf_cons (k : Nat) (c : Byte) (m : Memory) :
    Memory.wf ((k, c) :: m) = true ↔ Memory.above m (k + 1) ∧ Memory.wf m = true := by
  induction m generalizing k c with
  | nil => simp [Memory.wf, Memory.above]
  | cons cell m ih =>
    obtain ⟨l, d⟩ := cell
    simp only [Memory.wf, Bool.and_eq_true, decide_eq_true_eq]
    constructor
    · rintro ⟨hkl, hw⟩
      refine ⟨?_, hw⟩
      have hab := ((ih l d).mp hw).1
      intro x hx
      rcases List.mem_cons.mp hx with rfl | hx
      · exact hkl
      · have := hab x hx; omega
    · rintro ⟨hab, hw⟩
      exact ⟨hab (l, d) (by simp), hw⟩

theorem Memory.above_put (m : Memory) (lo a : Nat) (b : Byte) (h : m.above lo) (ha : lo ≤ a) : (m.put a b).above lo := by
  induction m with
  | nil => simpa [Memory.put, Memory.above] using ha
  | cons cell m ih =>
    obtain ⟨k, c⟩ := cell
    have hk : lo ≤ k := h (k, c) (by simp)
    have hm : Memory.above m lo := fun x hx => h x (by simp [hx])
    unfold Memory.put
    split
    · intro x hx
      rcases List.mem_cons.mp hx with rfl | hx
      · exact ha
      · exact h x hx
    · split
      · intro x hx
        rcases List.mem_cons.mp hx with rfl | hx
        · exact ha
        · exact hm x hx
      · intro x hx
        rcases List.mem_cons.mp hx with rfl | hx
        · exact hk
        · exact ih hm x hx

/-- Writing a byte keeps the canonical form. -/
theorem Memory.wf_put (m : Memory) (a : Nat) (b : Byte) (h : m.wf = true) : (m.put a b).wf = true := by
  induction m with
  | nil => rfl
  | cons cell m ih =>
    obtain ⟨k, c⟩ := cell
    obtain ⟨hab, hw⟩ := (Memory.wf_cons k c m).mp h
    unfold Memory.put
    split
    · next hak =>
      refine (Memory.wf_cons a b _).mpr ⟨?_, h⟩
      intro x hx
      rcases List.mem_cons.mp hx with rfl | hx
      · exact hak
      · have := hab x hx; omega
    · split
      · next hak => subst hak; exact (Memory.wf_cons a b m).mpr ⟨hab, hw⟩
      · exact (Memory.wf_cons k c _).mpr ⟨Memory.above_put m (k + 1) a b hab (by omega), ih hw⟩

/-- MemWrite keeps the canonical form. -/
theorem Memory.wf_write (m : Memory) (a : Nat) (bs : List Byte) (h : m.wf = true) : (m.write a bs).wf = true := by
  induction bs generalizing m a with
  | nil => exact h
  | cons b bs ih => exact ih (m.put a b) (a + 1) (Memory.wf_put m a b h)

theorem Memory.below_iff (m : Memory) (size : Nat) : m.below size = true ↔ ∀ cell ∈ m, cell.1 < size := by
  simp [Memory.below]

theorem Memory.below_put (m : Memory) (size a : Nat) (b : Byte) (h : m.below size = true) (ha : a < size) :
    (m.put a b).below size = true := by
  rw [Memory.below_iff] at *
  induction m with
  | nil => simpa [Memory.put] using ha
  | cons cell m ih =>
    obtain ⟨k, c⟩ := cell
    have hm : ∀ x ∈ m, x.1 < size := fun x hx => h x (by simp [hx])
    unfold Memory.put
    split
    · intro x hx
      rcases List.mem_cons.mp hx with rfl | hx
      · exact ha
      · exact h x hx
    · split
      · intro x hx
        rcases List.mem_cons.mp hx with rfl | hx
        · exact ha
        · exact hm x hx
      · intro x hx
        rcases List.mem_cons.mp hx with rfl | hx
        · exact h (k, c) (by simp)
        · exact ih hm x hx

/-- A MemWrite inside the buffer keeps every listed offset inside it. -/
theorem Memory.below_write (m : Memory) (size a : Nat) (bs : List Byte) (h : m.below size = true)
    (ha : a + bs.length ≤ size) : (m.write a bs).below size = true := by
  induction bs generalizing m a with
  | nil => exact h
  | cons b bs ih =>
    simp only [List.length_cons] at ha
    exact ih (m.put a b) (a + 1) (Memory.below_put m size a b h (by omega)) (by omega)

end Sys2Proof.Machine
end

