-- ==== Sys2Proof/Laws/Run.lean ====
section
/-! SUPPORT. What each shared operation can do, said once: the completion step, and each check and operand form a meaning is
written over (60_exceptions.md R130 to R133, 20_memory.md R57). -/

namespace Sys2Proof.Machine

/-! ### Completion -/

@[simp] theorem State.complete_ok (s : State) (w : Writes) : s.complete (.ok w) = .next (s.succeed w) := rfl

@[simp] theorem State.complete_raise (s : State) (e : ErrCode) (info : Nat) :
    s.complete (raise e info) = .next (s.fail e info) := rfl

@[simp] theorem State.complete_fault (s : State) (f : Fault) : s.complete (.error (.fault f)) = .fault f := rfl

/-- A completion that gives a next state is a success with its writes, or an error with none. -/
theorem State.complete_next {s t : State} {r : Run Writes} (h : s.complete r = .next t) :
    (∃ w, r = .ok w ∧ t = s.succeed w) ∨ ∃ e info, r = raise e info ∧ t = s.fail e info := by
  match r, h with
  | .ok w, h => exact .inl ⟨w, rfl, by simpa using h.symm⟩
  | .error (.raise e info), h =>
    exact .inr ⟨e, info, rfl, by
      have : (Host.Outcome.next (s.fail e info) : Host.Outcome State Fault Refusal) = .next t := h
      injection this with this
      exact this.symm⟩
  | .error (.fault f), h => cases h

theorem State.command_eq {s : State} {c : InFlight} (h : s.inflight = some c) (body : InFlight → Run Writes) :
    s.command body = s.complete (body c) := by
  rw [State.command, h]

/-! ### Checks and operand forms -/

theorem raise_ne_ok {α : Type} (e : ErrCode) (info : Nat) (a : α) : (raise e info : Run α) ≠ .ok a := nofun

theorem withSource_ok {α : Type} {p : Params} {c : InFlight} {span : Nat} {k : Run α} {a : α} :
    withSource p c span k = .ok a ↔ c.args.src.toNat + span ≤ p.bufBytes ∧ k = .ok a := by
  unfold withSource
  split <;> simp_all [raise]

theorem withDest_ok {α : Type} {p : Params} {c : InFlight} {k : Run α} {a : α} :
    withDest p c k = .ok a ↔ c.args.dst.toNat + c.args.cap.toNat ≤ p.bufBytes ∧ k = .ok a := by
  unfold withDest
  split <;> simp_all [raise]

theorem readSource_ok {α : Type} {c : InFlight} {n : Nat} {k : List Byte → Run α} {a : α} :
    readSource c n k = .ok a ↔ ∃ bs, c.buf.read c.args.src.toNat n = some bs ∧ k bs = .ok a := by
  unfold readSource
  split <;> simp_all

theorem setReg_ok {r : VReg} {x : Int} {w : Writes} : setReg r x = .ok w ↔ w = { regs := [(r, x)] } := by
  rw [setReg, Except.ok.injEq]
  exact ⟨Eq.symm, Eq.symm⟩

theorem setVal_ok {x : Word} {w : Writes} : setVal x = .ok w ↔ w = { rVal := some x } := by
  rw [setVal, Except.ok.injEq]
  exact ⟨Eq.symm, Eq.symm⟩

theorem storeValue_ok {p : Params} {r : VReg} {x : Int} {w : Writes} :
    storeValue p r x = .ok w ↔ fits p x = true ∧ w = { regs := [(r, x)] } := by
  unfold storeValue
  split
  · next h => rw [setReg_ok]; exact ⟨fun e => ⟨h, e⟩, fun e => e.2⟩
  · next h =>
    constructor
    · intro h'; exact absurd h' (raise_ne_ok _ _ _)
    · rintro ⟨h', -⟩; exact absurd h' h

theorem emit_ok {c : InFlight} {bs : List Byte} {w : Writes} :
    emit c bs = .ok w ↔ bs.length ≤ c.args.cap.toNat ∧
      w = { dst := c.args.dst.toNat, bytes := bs, rLen := some (BitVec.ofNat 32 bs.length) } := by
  unfold emit
  split
  · next h =>
    constructor
    · intro h'; exact absurd h' (raise_ne_ok _ _ _)
    · rintro ⟨h', -⟩; omega
  · next h =>
    rw [Except.ok.injEq]
    exact ⟨fun e => ⟨by omega, e.symm⟩, fun e => e.2.symm⟩

theorem emitRun_ok {c : InFlight} {r : Run (List Byte)} {w : Writes} :
    emitRun c r = .ok w ↔ ∃ out, r = .ok out ∧ emit c out = .ok w := by
  cases r <;> simp [emitRun]

theorem ite_raise_ok {α : Type} {q : Prop} [Decidable q] {e : ErrCode} {info : Nat} {k : Run α} {a : α} :
    (if q then raise e info else k) = .ok a ↔ ¬q ∧ k = .ok a := by
  split <;> simp_all [raise]

end Sys2Proof.Machine
end

