-- ==== Sys2Proof/Laws/Exec.lean ====
section
/-! SUPPORT. What `exec` can do, said once for all 32 commands: it is the completion of a run that depends on the
parameters and the in-flight command alone, and what that run writes obeys `WritesOk`. Every claim about all commands goes
through `exec_run`, `exec_next` and `completeInFlight_next`. -/

namespace Sys2Proof.Machine

/-- What the pending writes of command i can be: its destination registers, in order, with values that fit; bytes only if
it stores, at A_DST, at most A_CAP of them and inside the buffer; R_VAL and R_LEN exactly where R42 lists it. -/
structure WritesOk (p : Params) (c : InFlight) (i : Instr) (w : Writes) : Prop where
  regs : w.regs.map Prod.fst = i.dests
  fits : 4 ≤ p.maxLimbs → (∀ r, fits p (c.v.read r) = true) → ∀ x ∈ w.regs, fits p x.2 = true
  bytes : i.storing = false → w.bytes = []
  dst : i.storing = true → w.dst = c.args.dst.toNat
  room : w.bytes.length ≤ c.args.cap.toNat
  bounds : i.storing = true → c.args.dst.toNat + c.args.cap.toNat ≤ p.bufBytes
  val : w.rVal.isSome = i.writesVal
  len : w.rLen.isSome = i.storing

theorem fits_byte (p : Params) (x : Int) (hp : 4 ≤ p.maxLimbs) (hx : x.natAbs ≤ 128) : fits p x = true := by
  rw [fits_iff]
  have : 10 ^ (7 * 4) ≤ 10 ^ (7 * p.maxLimbs) := Nat.pow_le_pow_right (by norm_num) (by omega)
  omega

theorem toInt_natAbs_le (b : BitVec 8) : b.toInt.natAbs ≤ 128 := by
  have h1 := BitVec.toInt_lt (x := b)
  have h2 := BitVec.le_toInt (x := b)
  simp at h1 h2
  omega

theorem limbBytes_length (l : Nat) : (limbBytes l).length = 4 := by simp [limbBytes]

theorem flatMap_limbBytes_length (ls : List Nat) : (ls.flatMap limbBytes).length = 4 * ls.length := by
  induction ls with
  | nil => rfl
  | cons l ls ih => simp [List.flatMap_cons, limbBytes_length, ih]; omega

/-! ### One lemma per shape of pending writes -/

theorem writesOk_none {p : Params} {c : InFlight} {i : Instr} (hd : i.dests = []) (hs : i.storing = false)
    (hv : i.writesVal = false) : WritesOk p c i {} where
  regs := hd.symm
  fits := by simp
  bytes _ := rfl
  dst h := by simp [hs] at h
  room := by simp
  bounds h := by simp [hs] at h
  val := hv.symm
  len := hs.symm

theorem writesOk_reg {p : Params} {c : InFlight} {i : Instr} {r : VReg} {x : Int} (hd : i.dests = [r])
    (hs : i.storing = false) (hv : i.writesVal = false)
    (hf : 4 ≤ p.maxLimbs → (∀ r, fits p (c.v.read r) = true) → fits p x = true) :
    WritesOk p c i { regs := [(r, x)] } where
  regs := hd.symm
  fits h1 h2 y hy := by
    rw [List.mem_singleton] at hy
    subst hy
    exact hf h1 h2
  bytes _ := rfl
  dst h := by simp [hs] at h
  room := by simp
  bounds h := by simp [hs] at h
  val := hv.symm
  len := hs.symm

theorem writesOk_val {p : Params} {c : InFlight} {i : Instr} {x : Word} (hd : i.dests = [])
    (hs : i.storing = false) (hv : i.writesVal = true) : WritesOk p c i { rVal := some x } where
  regs := hd.symm
  fits := by simp
  bytes _ := rfl
  dst h := by simp [hs] at h
  room := by simp
  bounds h := by simp [hs] at h
  val := hv.symm
  len := hs.symm

theorem writesOk_bytes {p : Params} {c : InFlight} {i : Instr} {bs : List Byte} {v : Option Word} {l : Word}
    (hd : i.dests = []) (hs : i.storing = true) (hv : v.isSome = i.writesVal)
    (hr : bs.length ≤ c.args.cap.toNat) (hb : c.args.dst.toNat + c.args.cap.toNat ≤ p.bufBytes) :
    WritesOk p c i { dst := c.args.dst.toNat, bytes := bs, rVal := v, rLen := some l } where
  regs := hd.symm
  fits := by simp
  bytes h := by simp [hs] at h
  dst _ := rfl
  room := hr
  bounds _ := hb
  val := hv
  len := hs.symm

/-- Command i is the completion of one run of the parameters p and the in-flight command c, whatever the rest of the
state, and what that run writes obeys `WritesOk`. -/
def Runs (i : Instr) (p : Params) (c : InFlight) : Prop :=
  ∃ r : Run Writes, (∀ s : State, s.inflight = some c → s.params = p → exec i s = s.complete r) ∧
    ∀ w, r = .ok w → WritesOk p c i w

theorem runs_of {i : Instr} {p : Params} {c : InFlight} (r : Run Writes)
    (h : ∀ s : State, s.inflight = some c → s.params = p → exec i s = s.complete r)
    (hw : ∀ w, r = .ok w → WritesOk p c i w) : Runs i p c := ⟨r, h, hw⟩

theorem runs_nop (p : Params) (c : InFlight) : Runs .nop p c := by
  refine runs_of _ (fun s hc hp => by rw [exec, execNop, State.command_eq hc]) fun w h => ?_
  cases h; exact writesOk_none rfl rfl rfl

theorem runs_ldk (vd : VReg) (imm : BitVec 8) (p : Params) (c : InFlight) : Runs (.ldk vd imm) p c := by
  refine runs_of _ (fun s hc hp => by rw [exec, execLdk, State.command_eq hc]) fun w h => ?_
  obtain rfl := setReg_ok.mp h
  exact writesOk_reg rfl rfl rfl fun hl _ => fits_byte p _ hl (toInt_natAbs_le imm)

theorem runs_mov (vd vs : VReg) (p : Params) (c : InFlight) : Runs (.mov vd vs) p c := by
  refine runs_of _ (fun s hc hp => by rw [exec, execMov, State.command_eq hc]) fun w h => ?_
  obtain rfl := setReg_ok.mp h
  exact writesOk_reg rfl rfl rfl fun _ hv => hv vs

theorem runs_ldraw (vd : VReg) (neg : Bool) (p : Params) (c : InFlight) : Runs (.ldraw vd neg) p c := by
  refine runs_of _ (fun s hc hp => by rw [exec, execLdraw, State.command_eq hc, hp]) fun w h => ?_
  obtain ⟨-, h⟩ := withSource_ok.mp h
  obtain ⟨bs, -, h⟩ := readSource_ok.mp h
  simp only at h
  split at h
  · exact absurd h (raise_ne_ok _ _ _)
  · obtain ⟨hf, rfl⟩ := storeValue_ok.mp h
    exact writesOk_reg rfl rfl rfl fun _ _ => hf

theorem runs_straw (vs : VReg) (p : Params) (c : InFlight) : Runs (.straw vs) p c := by
  refine runs_of _ (fun s hc hp => by rw [exec, execStraw, State.command_eq hc, hp]) fun w h => ?_
  obtain ⟨hb, h⟩ := withDest_ok.mp h
  obtain ⟨hr, h⟩ := ite_raise_ok.mp h
  cases h
  refine writesOk_bytes rfl rfl rfl ?_ hb
  rw [flatMap_limbBytes_length]
  unfold nlimbs at hr
  omega

theorem runs_frombe (vd : VReg) (p : Params) (c : InFlight) : Runs (.frombe vd) p c := by
  refine runs_of _ (fun s hc hp => by rw [exec, execFrombe, State.command_eq hc, hp]) fun w h => ?_
  obtain ⟨-, h⟩ := withSource_ok.mp h
  obtain ⟨bs, -, h⟩ := readSource_ok.mp h
  obtain ⟨hf, rfl⟩ := storeValue_ok.mp h
  exact writesOk_reg rfl rfl rfl fun _ _ => hf

theorem runs_tobe (vs : VReg) (p : Params) (c : InFlight) : Runs (.tobe vs) p c := by
  refine runs_of _ (fun s hc hp => by rw [exec, execTobe, State.command_eq hc, hp]) fun w h => ?_
  obtain ⟨hb, h⟩ := withDest_ok.mp h
  obtain ⟨-, h⟩ := ite_raise_ok.mp h
  obtain ⟨-, h⟩ := ite_raise_ok.mp h
  cases h
  exact writesOk_bytes rfl rfl rfl (by simp) hb

theorem runs_parse (vd : VReg) (radix : BitVec 8) (p : Params) (c : InFlight) : Runs (.parse vd radix) p c := by
  refine runs_of _ (fun s hc hp => by rw [exec, execParse, State.command_eq hc, hp]) fun w h => ?_
  obtain ⟨-, h⟩ := withSource_ok.mp h
  obtain ⟨-, h⟩ := ite_raise_ok.mp h
  obtain ⟨str, -, h⟩ := readSource_ok.mp h
  split at h
  · obtain ⟨hf, rfl⟩ := storeValue_ok.mp h
    exact writesOk_reg rfl rfl rfl fun _ _ => hf
  · cases h

theorem runs_tostr (vs : VReg) (radix : BitVec 8) (p : Params) (c : InFlight) : Runs (.tostr vs radix) p c := by
  refine runs_of _ (fun s hc hp => by rw [exec, execTostr, State.command_eq hc, hp]) fun w h => ?_
  obtain ⟨hb, h⟩ := withDest_ok.mp h
  obtain ⟨-, h⟩ := ite_raise_ok.mp h
  obtain ⟨hr, rfl⟩ := emit_ok.mp h
  exact writesOk_bytes rfl rfl rfl hr hb

theorem runs_add (vd va vb : VReg) (p : Params) (c : InFlight) : Runs (.add vd va vb) p c := by
  refine runs_of _ (fun s hc hp => by rw [exec, execAdd, State.command_eq hc, hp]) fun w h => ?_
  obtain ⟨hf, rfl⟩ := storeValue_ok.mp h
  exact writesOk_reg rfl rfl rfl fun _ _ => hf

theorem runs_sub (vd va vb : VReg) (p : Params) (c : InFlight) : Runs (.sub vd va vb) p c := by
  refine runs_of _ (fun s hc hp => by rw [exec, execSub, State.command_eq hc, hp]) fun w h => ?_
  obtain ⟨hf, rfl⟩ := storeValue_ok.mp h
  exact writesOk_reg rfl rfl rfl fun _ _ => hf

theorem runs_neg (vd vs : VReg) (p : Params) (c : InFlight) : Runs (.neg vd vs) p c := by
  refine runs_of _ (fun s hc hp => by rw [exec, execNeg, State.command_eq hc]) fun w h => ?_
  obtain rfl := setReg_ok.mp h
  exact writesOk_reg rfl rfl rfl fun _ hv => by rw [fits_neg]; exact hv vs

theorem runs_mul (vd va vb : VReg) (p : Params) (c : InFlight) : Runs (.mul vd va vb) p c := by
  refine runs_of _ (fun s hc hp => by rw [exec, execMul, State.command_eq hc, hp]) fun w h => ?_
  obtain ⟨hf, rfl⟩ := storeValue_ok.mp h
  exact writesOk_reg rfl rfl rfl fun _ _ => hf

theorem runs_sqr (vd vs : VReg) (p : Params) (c : InFlight) : Runs (.sqr vd vs) p c := by
  refine runs_of _ (fun s hc hp => by rw [exec, execSqr, State.command_eq hc, hp]) fun w h => ?_
  obtain ⟨hf, rfl⟩ := storeValue_ok.mp h
  exact writesOk_reg rfl rfl rfl fun _ _ => hf

theorem runs_divrem (vq vr va vb : VReg) (p : Params) (c : InFlight) : Runs (.divrem vq vr va vb) p c := by
  refine runs_of _ (fun s hc hp => by rw [exec, execDivrem, State.command_eq hc]) fun w h => ?_
  obtain ⟨-, h⟩ := ite_raise_ok.mp h
  obtain ⟨hb, h⟩ := ite_raise_ok.mp h
  cases h
  refine { regs := rfl, fits := ?_, bytes := fun _ => rfl, dst := nofun, room := by simp, bounds := nofun, val := rfl, len := rfl }
  intro _ hv x hx
  simp only [List.mem_cons, List.not_mem_nil, or_false] at hx
  rcases hx with rfl | rfl
  · exact fits_of_natAbs_le (hv va) (tdiv_natAbs_le _ _)
  · exact fits_of_natAbs_le (hv va) (trem_natAbs_le _ _)

theorem runs_div (vd va vb : VReg) (p : Params) (c : InFlight) : Runs (.div vd va vb) p c := by
  refine runs_of _ (fun s hc hp => by rw [exec, execDiv, State.command_eq hc]) fun w h => ?_
  obtain ⟨-, h⟩ := ite_raise_ok.mp h
  obtain rfl := setReg_ok.mp h
  exact writesOk_reg rfl rfl rfl fun _ hv => fits_of_natAbs_le (hv va) (tdiv_natAbs_le _ _)

theorem runs_rem (vd va vb : VReg) (p : Params) (c : InFlight) : Runs (.rem vd va vb) p c := by
  refine runs_of _ (fun s hc hp => by rw [exec, execRem, State.command_eq hc]) fun w h => ?_
  obtain ⟨-, h⟩ := ite_raise_ok.mp h
  obtain rfl := setReg_ok.mp h
  exact writesOk_reg rfl rfl rfl fun _ hv => fits_of_natAbs_le (hv va) (trem_natAbs_le _ _)

theorem runs_pow (vd va vn : VReg) (p : Params) (c : InFlight) : Runs (.pow vd va vn) p c := by
  refine runs_of _ (fun s hc hp => by rw [exec, execPow, State.command_eq hc, hp]) fun w h => ?_
  obtain ⟨-, h⟩ := ite_raise_ok.mp h
  split at h
  · obtain ⟨hf, rfl⟩ := storeValue_ok.mp h
    exact writesOk_reg rfl rfl rfl fun _ _ => hf
  · split at h
    · obtain ⟨-, h⟩ := ite_raise_ok.mp h
      obtain ⟨hf, rfl⟩ := storeValue_ok.mp h
      exact writesOk_reg rfl rfl rfl fun _ _ => hf
    · rw [storePower_eq _ _ _ (by omega)] at h
      obtain ⟨hf, rfl⟩ := storeValue_ok.mp h
      exact writesOk_reg rfl rfl rfl fun _ _ => hf

theorem runs_modpow (vd va ve vm : VReg) (p : Params) (c : InFlight) : Runs (.modpow vd va ve vm) p c := by
  refine runs_of _ (fun s hc hp => by rw [exec, execModpow, State.command_eq hc]) fun w h => ?_
  obtain ⟨-, h⟩ := ite_raise_ok.mp h
  obtain ⟨hm, h⟩ := ite_raise_ok.mp h
  obtain rfl := setReg_ok.mp h
  refine writesOk_reg rfl rfl rfl fun _ hv => fits_of_natAbs_le (hv vm) ?_
  rw [modularPowerUpTo_eq _ _ _ _ Nat.lt_log2_self]
  exact (trem_natAbs_lt _ hm).le

theorem runs_cmp (va vb : VReg) (p : Params) (c : InFlight) : Runs (.cmp va vb) p c := by
  refine runs_of _ (fun s hc hp => by rw [exec, execCmp, State.command_eq hc]) fun w h => ?_
  obtain rfl := setVal_ok.mp h
  exact writesOk_val rfl rfl rfl

theorem runs_cmpabs (va vb : VReg) (p : Params) (c : InFlight) : Runs (.cmpabs va vb) p c := by
  refine runs_of _ (fun s hc hp => by rw [exec, execCmpabs, State.command_eq hc]) fun w h => ?_
  obtain rfl := setVal_ok.mp h
  exact writesOk_val rfl rfl rfl

theorem runs_sgn (va : VReg) (p : Params) (c : InFlight) : Runs (.sgn va) p c := by
  refine runs_of _ (fun s hc hp => by rw [exec, execSgn, State.command_eq hc]) fun w h => ?_
  obtain rfl := setVal_ok.mp h
  exact writesOk_val rfl rfl rfl

theorem runs_iszero (va : VReg) (p : Params) (c : InFlight) : Runs (.iszero va) p c := by
  refine runs_of _ (fun s hc hp => by rw [exec, execIszero, State.command_eq hc]) fun w h => ?_
  obtain rfl := setVal_ok.mp h
  exact writesOk_val rfl rfl rfl

theorem runs_isunit (va : VReg) (p : Params) (c : InFlight) : Runs (.isunit va) p c := by
  refine runs_of _ (fun s hc hp => by rw [exec, execIsunit, State.command_eq hc]) fun w h => ?_
  obtain rfl := setVal_ok.mp h
  exact writesOk_val rfl rfl rfl

theorem runs_iseven (va : VReg) (p : Params) (c : InFlight) : Runs (.iseven va) p c := by
  refine runs_of _ (fun s hc hp => by rw [exec, execIseven, State.command_eq hc]) fun w h => ?_
  obtain rfl := setVal_ok.mp h
  exact writesOk_val rfl rfl rfl

theorem runs_isodd (va : VReg) (p : Params) (c : InFlight) : Runs (.isodd va) p c := by
  refine runs_of _ (fun s hc hp => by rw [exec, execIsodd, State.command_eq hc]) fun w h => ?_
  obtain rfl := setVal_ok.mp h
  exact writesOk_val rfl rfl rfl

theorem runs_ispos (va : VReg) (p : Params) (c : InFlight) : Runs (.ispos va) p c := by
  refine runs_of _ (fun s hc hp => by rw [exec, execIspos, State.command_eq hc]) fun w h => ?_
  obtain rfl := setVal_ok.mp h
  exact writesOk_val rfl rfl rfl

theorem runs_isneg (va : VReg) (p : Params) (c : InFlight) : Runs (.isneg va) p c := by
  refine runs_of _ (fun s hc hp => by rw [exec, execIsneg, State.command_eq hc]) fun w h => ?_
  obtain rfl := setVal_ok.mp h
  exact writesOk_val rfl rfl rfl

theorem runs_enc58 (p : Params) (c : InFlight) : Runs .enc58 p c := by
  refine runs_of _ (fun s hc hp => by rw [exec, execEnc58, State.command_eq hc, hp]) fun w h => ?_
  obtain ⟨-, h⟩ := withSource_ok.mp h
  obtain ⟨hb, h⟩ := withDest_ok.mp h
  obtain ⟨bs, -, h⟩ := readSource_ok.mp h
  obtain ⟨out, -, h⟩ := emitRun_ok.mp h
  obtain ⟨hr, rfl⟩ := emit_ok.mp h
  exact writesOk_bytes rfl rfl rfl hr hb

theorem runs_dec58 (p : Params) (c : InFlight) : Runs .dec58 p c := by
  refine runs_of _ (fun s hc hp => by rw [exec, execDec58, State.command_eq hc, hp]) fun w h => ?_
  obtain ⟨-, h⟩ := withSource_ok.mp h
  obtain ⟨hb, h⟩ := withDest_ok.mp h
  obtain ⟨-, h⟩ := ite_raise_ok.mp h
  obtain ⟨bs, -, h⟩ := readSource_ok.mp h
  obtain ⟨out, -, h⟩ := emitRun_ok.mp h
  obtain ⟨hr, rfl⟩ := emit_ok.mp h
  exact writesOk_bytes rfl rfl rfl hr hb

theorem runs_enc58b (p : Params) (c : InFlight) : Runs .enc58b p c := by
  refine runs_of _ (fun s hc hp => by rw [exec, execEnc58b, State.command_eq hc, hp]) fun w h => ?_
  obtain ⟨-, h⟩ := withSource_ok.mp h
  obtain ⟨hb, h⟩ := withDest_ok.mp h
  obtain ⟨-, h⟩ := ite_raise_ok.mp h
  obtain ⟨bs, -, h⟩ := readSource_ok.mp h
  obtain ⟨out, -, h⟩ := emitRun_ok.mp h
  obtain ⟨hr, rfl⟩ := emit_ok.mp h
  exact writesOk_bytes rfl rfl rfl hr hb

theorem runs_dec58b (p : Params) (c : InFlight) : Runs .dec58b p c := by
  refine runs_of _ (fun s hc hp => by rw [exec, execDec58b, State.command_eq hc, hp]) fun w h => ?_
  obtain ⟨-, h⟩ := withSource_ok.mp h
  obtain ⟨hb, h⟩ := withDest_ok.mp h
  obtain ⟨bs, -, h⟩ := readSource_ok.mp h
  obtain ⟨out, -, h⟩ := emitRun_ok.mp h
  obtain ⟨hr, rfl⟩ := emit_ok.mp h
  exact writesOk_bytes rfl rfl rfl hr hb

/-- Every command is the completion of one run that obeys `WritesOk`. -/
theorem exec_run (i : Instr) (p : Params) (c : InFlight) : Runs i p c := by
  cases i
  case nop => exact runs_nop p c
  case ldk => exact runs_ldk _ _ p c
  case mov => exact runs_mov _ _ p c
  case ldraw => exact runs_ldraw _ _ p c
  case straw => exact runs_straw _ p c
  case frombe => exact runs_frombe _ p c
  case tobe => exact runs_tobe _ p c
  case parse => exact runs_parse _ _ p c
  case tostr => exact runs_tostr _ _ p c
  case add => exact runs_add _ _ _ p c
  case sub => exact runs_sub _ _ _ p c
  case neg => exact runs_neg _ _ p c
  case mul => exact runs_mul _ _ _ p c
  case sqr => exact runs_sqr _ _ p c
  case divrem => exact runs_divrem _ _ _ _ p c
  case div => exact runs_div _ _ _ p c
  case rem => exact runs_rem _ _ _ p c
  case pow => exact runs_pow _ _ _ p c
  case modpow => exact runs_modpow _ _ _ _ p c
  case cmp => exact runs_cmp _ _ p c
  case cmpabs => exact runs_cmpabs _ _ p c
  case sgn => exact runs_sgn _ p c
  case iszero => exact runs_iszero _ p c
  case isunit => exact runs_isunit _ p c
  case iseven => exact runs_iseven _ p c
  case isodd => exact runs_isodd _ p c
  case ispos => exact runs_ispos _ p c
  case isneg => exact runs_isneg _ p c
  case enc58 => exact runs_enc58 p c
  case dec58 => exact runs_dec58 p c
  case enc58b => exact runs_enc58b p c
  case dec58b => exact runs_dec58b p c

/-- If a command answers a next state, one was in flight and either its writes took effect, or it raised an error. -/
theorem exec_next {i : Instr} {s t : State} (h : exec i s = .next t) :
    ∃ c, s.inflight = some c ∧
      ((∃ w, WritesOk s.params c i w ∧ t = s.succeed w) ∨ ∃ e info, t = s.fail e info) := by
  cases hc : s.inflight with
  | none =>
    exfalso
    have : exec i s = .refused .nothingInFlight := by
      cases i <;>
        simp [exec, execNop, execLdk, execMov, execLdraw, execStraw, execFrombe, execTobe, execParse, execTostr,
          execAdd, execSub, execNeg, execMul, execSqr, execDivrem, execDiv, execRem, execPow, execModpow, execCmp,
          execCmpabs, execSgn, execIszero, execIsunit, execIseven, execIsodd, execIspos, execIsneg, execEnc58,
          execDec58, execEnc58b, execDec58b, State.command, hc]
    rw [this] at h
    cases h
  | some c =>
    obtain ⟨r, hr, hw⟩ := exec_run i s.params c
    rw [hr s hc rfl] at h
    refine ⟨c, rfl, ?_⟩
    rcases State.complete_next h with ⟨w, rfl, rfl⟩ | ⟨e, info, -, rfl⟩
    · exact .inl ⟨w, hw w rfl, rfl⟩
    · exact .inr ⟨e, info, rfl⟩

/-- Whether a completion answers a next state, and what it writes, depends on the in-flight command and the parameters
alone (R40). -/
theorem completeInFlight_run (p : Params) (c : InFlight) :
    ∃ r : Run Writes, ∀ s : State, s.inflight = some c → s.params = p → completeInFlight s = s.complete r := by
  cases hd : decode c.word with
  | none => exact ⟨raise .illegalCommand 0, fun s hc _ => by simp [completeInFlight, runWord, hc, hd]⟩
  | some i =>
    obtain ⟨r, hr, -⟩ := exec_run i p c
    exact ⟨r, fun s hc hp => by rw [← hr s hc hp]; simp [completeInFlight, runWord, hc, hd]⟩

/-- What the sequencer's step can do when it answers a next state. -/
theorem completeInFlight_next {s t : State} (h : completeInFlight s = .next t) :
    (s.inflight = none ∧ t = s) ∨
      ∃ c, s.inflight = some c ∧
        ((∃ i w, decode c.word = some i ∧ WritesOk s.params c i w ∧ t = s.succeed w) ∨ ∃ e info, t = s.fail e info) := by
  unfold completeInFlight at h
  split at h
  · next c hc =>
    refine .inr ⟨c, hc, ?_⟩
    unfold runWord at h
    split at h
    · next i hd =>
      obtain ⟨c', hc', hw⟩ := exec_next h
      rw [hc] at hc'
      cases hc'
      rcases hw with ⟨w, hw, ht⟩ | he
      · exact .inl ⟨i, w, hd, hw, ht⟩
      · exact .inr he
    · cases h
      exact .inr ⟨_, _, rfl⟩
  · next hc =>
    cases h
    exact .inl ⟨hc, rfl⟩

end Sys2Proof.Machine
end

