-- ==== Sys2Proof/Laws/Results.lean ====
section
/-! SUPPORT. The bridge between the meanings and the terms claims use (Safety.lean): each shared operation, completed, is one of
the states `afterResult`, `afterError`, …; a source string is what the buffer read gives; and the arithmetic written out in
the spec is the arithmetic of the meanings. -/

namespace Sys2Proof.Machine

/-! ### Completions -/

theorem complete_raise_eq (s : State) (e : ErrCode) (info : Nat) :
    s.complete (raise e info) = .next (s.afterError e info) := rfl

theorem complete_setReg (s : State) (r : VReg) (x : Int) : s.complete (setReg r x) = .next (s.afterWrite r x) := rfl

theorem complete_setVal (s : State) (x : Word) : s.complete (setVal x) = .next (s.afterVal x) := rfl

theorem complete_storeValue (s : State) (r : VReg) (x : Int) :
    s.complete (storeValue s.params r x) = .next (s.afterResult r x) := by
  have := fits_iff s.params x
  unfold storeValue State.afterResult
  split
  · next h => rw [if_pos (this.mp h)]; rfl
  · next h => rw [if_neg fun h' => h (this.mpr h')]; rfl

theorem complete_emit (s : State) (c : InFlight) (bs : List Byte) :
    s.complete (emit c bs) =
      if c.args.cap.toNat < bs.length then .next (s.afterError .outputSpace bs.length)
      else .next (s.afterStore c.args.dst.toNat bs) := by
  unfold emit
  split <;> rfl

theorem afterResult_of_fits {s : State} {r : VReg} {x : Int} (h : fits s.params x = true) :
    s.afterResult r x = s.afterWrite r x := by
  rw [State.afterResult, if_pos ((fits_iff s.params x).mp h)]

/-! ### Ranges and source strings -/

theorem withSource_pos {α : Type} {p : Params} {c : InFlight} {span : Nat} {k : Run α}
    (h : c.args.src.toNat + span ≤ p.bufBytes) : withSource p c span k = k := if_pos h

theorem withDest_pos {α : Type} {p : Params} {c : InFlight} {k : Run α}
    (h : c.args.dst.toNat + c.args.cap.toNat ≤ p.bufBytes) : withDest p c k = k := if_pos h

/-- A source string is what a read of that many bytes gives. -/
theorem source_iff_read (c : InFlight) (bs : List Byte) :
    c.Source bs ↔ c.buf.read c.args.src.toNat bs.length = some bs := by
  rw [Memory.read_eq_some]
  constructor
  · intro h
    refine ⟨rfl, fun i hi => ?_⟩
    rw [h i hi, List.getD_eq_getElem?_getD, List.getElem?_eq_getElem hi]
    rfl
  · rintro ⟨-, h⟩ i hi
    rw [h i hi, List.getD_eq_getElem?_getD, List.getElem?_eq_getElem hi]
    rfl

theorem readSource_source {α : Type} {c : InFlight} {bs : List Byte} {n : Nat} {k : List Byte → Run α} (h : c.Source bs)
    (hn : bs.length = n) : readSource c n k = k bs := by
  subst hn
  rw [readSource, (source_iff_read c bs).mp h]

/-! ### Arithmetic as the spec writes it -/

theorem valueOf_eq_sumOf (b : Nat) (ds : List Nat) : valueOf b ds = sumOf b ds := valueOf_eq_sum b ds

theorem beValue_eq_sumOf (bs : List Byte) : beValue bs = sumOf 256 (bs.map (·.toNat)) := valueOf_eq_sumOf _ _

theorem truncQuot_eq (a b : Int) : truncQuot a b = tdiv a b := (tdiv_eq_sign_mul a b).symm

theorem truncRem_eq (a b : Int) : truncRem a b = trem a b := by
  rw [truncRem, truncQuot_eq]; rfl

theorem sext32_sign (x : Int) : sext32 x.sign = signWord x := by
  unfold signWord
  rcases lt_trichotomy x 0 with h | h | h
  · rw [Int.sign_eq_neg_one_of_neg h, if_pos h]; decide
  · subst h; decide
  · rw [Int.sign_eq_one_of_pos h, if_neg (by omega), if_neg (by omega)]; decide

theorem signWord_eq_minus_one (x : Int) : signWord x = 0xFFFFFFFF ↔ x < 0 := by
  unfold signWord
  constructor
  · intro h
    by_contra hx
    rw [if_neg hx] at h
    split at h <;> exact absurd h (by decide)
  · intro h; rw [if_pos h]

theorem signed_eq_mul (neg : Bool) (m : Nat) : signed neg m = (if neg then -1 else 1) * (m : Int) := by
  cases neg <;> simp [signed]

theorem signed_eq_valueUnder (sg : List Byte) (m : Nat) : signed (decide (sg = [0x2D])) m = valueUnder sg m := by
  by_cases h : sg = [0x2D] <;> simp [signed, valueUnder, h]

/-- The digits of m below a zero digit at the top do not matter: digit i of a number. -/
theorem digitsUpTo_getD (b fuel n i : Nat) (hb : 2 ≤ b) (hf : n < b ^ fuel) :
    (digitsUpTo b fuel n).getD i 0 = n / b ^ i % b := by
  induction fuel generalizing n i with
  | zero =>
    have : n = 0 := by simpa using hf
    subst this
    simp [digitsUpTo]
  | succ fuel ih =>
    unfold digitsUpTo
    split
    · next h0 => subst h0; simp
    · cases i with
      | zero => simp
      | succ i =>
        rw [List.getD_cons_succ, ih (n / b) i (by rw [Nat.div_lt_iff_lt_mul (by omega), ← Nat.pow_succ]; exact hf),
          Nat.div_div_eq_div_mul, ← Nat.pow_succ']

/-- Limb i of a value (R11, R38). -/
theorem limbs_getD (v : Int) (i : Nat) : (limbs v).getD i 0 = v.natAbs / 10 ^ (7 * i) % 10 ^ 7 := by
  rw [limbs, digits, digitsUpTo_getD limbBase _ _ i (by norm_num [limbBase]) (lt_pow_log2_succ (by norm_num [limbBase]) _),
    limbBase_eq, ← pow_mul]

theorem lowDigits_getD (b k n i : Nat) (h : i < k) : (lowDigits b k n).getD i 0 = n / b ^ i % b := by
  induction k generalizing n i with
  | zero => omega
  | succ k ih =>
    cases i with
    | zero => simp [lowDigits]
    | succ i =>
      rw [lowDigits, List.getD_cons_succ, ih (n / b) i (by omega), Nat.div_div_eq_div_mul, ← Nat.pow_succ']

end Sys2Proof.Machine
end

