-- ==== Sys2Proof/Laws/Codec.lean ====
section
/-! SUPPORT. What the Base58 converters do (47_base58.md R118 to R121, R124, R125): encoding a block gives the one numeral the
claims call `EncodedBlock`, decoding undoes it, and each way decoding can fail. -/

namespace Sys2Proof.Machine

/-! ### The symbol mapper -/

theorem alphabet_nodup {p : Params} (h : p.wf = true) : p.alphabet.toList.Nodup := by
  simp only [Params.wf, Bool.and_eq_true, decide_eq_true_eq] at h
  exact h.2

theorem alphabet_length (p : Params) : p.alphabet.toList.length = 58 := by simp

theorem indexOf_symbolOf {p : Params} (h : p.wf = true) {d : Nat} (hd : d < 58) : indexOf p (symbolOf p d) = some d := by
  have hl : d < p.alphabet.toList.length := by rw [alphabet_length]; exact hd
  have hs : symbolOf p d = p.alphabet.toList[d] := by
    rw [symbolOf, List.getD_eq_getElem?_getD, List.getElem?_eq_getElem hl]; rfl
  rw [indexOf, List.findIdx?_eq_some_iff_getElem]
  refine ⟨hl, by simp [hs], fun j hj => ?_⟩
  have hj' : j < p.alphabet.toList.length := by omega
  rw [hs]
  simp only [decide_eq_true_eq]
  intro he
  have := (List.Nodup.getElem_inj_iff (alphabet_nodup h)).mp he
  omega

theorem indexOf_none {p : Params} {c : Byte} (h : ¬ IsSymbol p c) : indexOf p c = none := by
  rw [indexOf, List.findIdx?_eq_none_iff]
  intro x hx
  simp only [decide_eq_false_iff_not]
  rintro rfl
  exact h hx

/-- A symbol is the symbol of one digit. -/
theorem symbol_digit {p : Params} {c : Byte} (h : IsSymbol p c) : ∃ d, d < 58 ∧ c = symbolOf p d := by
  obtain ⟨d, hd, rfl⟩ := List.mem_iff_getElem.mp h
  refine ⟨d, by rw [alphabet_length] at hd; exact hd, ?_⟩
  rw [symbolOf, List.getD_eq_getElem?_getD, List.getElem?_eq_getElem hd]
  rfl

theorem symbolsOf_iff (p : Params) (ds : List Nat) (t : List Byte) :
    SymbolsOf p ds t ↔ (∀ d ∈ ds, d < 58) ∧ t = ds.map (symbolOf p) := Iff.rfl

/-- Symbols have digits. -/
theorem symbolsOf_of_isSymbol {p : Params} {t : List Byte} (h : ∀ ch ∈ t, IsSymbol p ch) : ∃ ds, SymbolsOf p ds t := by
  induction t with
  | nil => exact ⟨[], by simp, rfl⟩
  | cons c cs ih =>
    obtain ⟨ds, h1, h2⟩ := ih fun ch hc => h ch (by simp [hc])
    obtain ⟨d, hd, hc⟩ := symbol_digit (h c (by simp))
    refine ⟨d :: ds, ?_, ?_⟩
    · intro x hx
      rcases List.mem_cons.mp hx with rfl | hx
      · exact hd
      · exact h1 x hx
    · rw [List.map_cons, ← h2, hc]; rfl

/-! ### The block table (R119) -/

theorem encLen_eq (n : Nat) : encLen n = encLenTable.getD n 0 := rfl

theorem decLen_encLen {m : Nat} (h1 : 1 ≤ m) (h8 : m ≤ 8) : decLen (encLenTable.getD m 0) = some m := by
  interval_cases m <;> rfl

theorem encLen_pos {m : Nat} (h1 : 1 ≤ m) (h8 : m ≤ 8) : encLenTable.getD m 0 ≠ 0 := by
  interval_cases m <;> decide

theorem encLen_le {m : Nat} (h8 : m ≤ 8) : encLenTable.getD m 0 ≤ 11 := by
  interval_cases m <;> decide

theorem decLen_none {k : Nat} (h : k ∉ [2, 3, 5, 6, 7, 9, 10, 11]) : decLen k = none ∨ k = 0 := by
  rcases Nat.lt_or_ge k 12 with hk | hk
  · interval_cases k <;> simp [decLen] at h ⊢
  · left
    unfold decLen
    split <;> first | omega | rfl

/-- Every entry of the table is enough: 256^n ≤ 58^L. -/
theorem pow_le_encLen {m : Nat} (h8 : m ≤ 8) : 256 ^ m ≤ 58 ^ encLenTable.getD m 0 := by
  interval_cases m <;> norm_num [encLenTable]

/-! ### Encoding a block (R120) -/

theorem encodeBlock_ok {p : Params} {b : List Byte} (h1 : 1 ≤ b.length) (h8 : b.length ≤ 8) :
    ∃ enc, encodeBlock p b = .ok enc ∧ EncodedBlock p b enc := by
  have hlt : beValue b < 58 ^ encLen b.length := Nat.lt_of_lt_of_le (beValue_lt b) (pow_le_encLen h8)
  refine ⟨_, by rw [encodeBlock, if_neg (by omega)], h1, h8,
    (lowDigits 58 (encLen b.length) (beValue b)).reverse, by simp [encLen_eq], ⟨?_, ?_⟩, ?_⟩
  · intro d hd
    exact lowDigits_lt (by norm_num) _ _ d (by simpa using hd)
  · rw [List.map_reverse]; rfl
  · rw [← valueOf_eq_sumOf, valueOf_lowDigits 58 _ _ hlt, beValue_eq_sumOf]

/-- A numeral of a fixed length has its digits for its value. -/
theorem digits_of_value {b : Nat} {xs ys : List Nat} (hl : xs.length = ys.length) (hx : ∀ d ∈ xs, d < b)
    (hy : ∀ d ∈ ys, d < b) (h : sumOf b xs = sumOf b ys) : xs = ys := by
  have h1 := lowDigits_valueOf b xs.reverse fun d hd => hx d (by simpa using hd)
  have h2 := lowDigits_valueOf b ys.reverse fun d hd => hy d (by simpa using hd)
  rw [List.reverse_reverse, List.length_reverse, valueOf_eq_sumOf] at h1 h2
  rw [hl, h, h2] at h1
  exact (List.reverse_injective h1).symm

/-- A block has one encoding. -/
theorem encodedBlock_unique {p : Params} {b e e' : List Byte} (h : EncodedBlock p b e) (h' : EncodedBlock p b e') :
    e = e' := by
  obtain ⟨-, -, ds, hl, ⟨hd, rfl⟩, hv⟩ := h
  obtain ⟨-, -, ds', hl', ⟨hd', rfl⟩, hv'⟩ := h'
  rw [digits_of_value (hl.trans hl'.symm) hd hd' (hv.trans hv'.symm)]

theorem encodeBlock_eq {p : Params} {b e : List Byte} (h : EncodedBlock p b e) : encodeBlock p b = .ok e := by
  obtain ⟨e', h1, h2⟩ := encodeBlock_ok (p := p) h.1 h.2.1
  rw [h1, encodedBlock_unique h h2]

theorem encodedBlock_length {p : Params} {b e : List Byte} (h : EncodedBlock p b e) :
    e.length = encLenTable.getD b.length 0 := by
  obtain ⟨-, -, ds, hl, ⟨-, rfl⟩, -⟩ := h
  simpa using hl

theorem encodeBlock_bad {p : Params} {b : List Byte} (h : b.length < 1 ∨ 8 < b.length) :
    encodeBlock p b = raise .invalidBlockLength b.length := if_pos h

/-! ### Decoding a block (R121) -/

/-- The scan over symbols whose digits are `ds`, the least significant first. -/
theorem scanSymbols_symbols {p : Params} (hp : p.wf = true) (base : Nat) (ds : List Nat) (hd : ∀ d ∈ ds, d < 58) (sum order : Nat) :
    scanSymbols p base (ds.map (symbolOf p)) sum order =
      if ds ≠ [] ∧ 2 ^ 64 - 1 < sum + order * valueOf 58 ds.reverse then raise .overflow base
      else .ok (sum + order * valueOf 58 ds.reverse) := by
  induction ds generalizing sum order with
  | nil => simp [scanSymbols]
  | cons d ds ih =>
    have hv : sum + order * valueOf 58 (d :: ds).reverse = (order * d + sum) + order * 58 * valueOf 58 ds.reverse := by
      rw [valueOf_reverse_cons]; ring
    rw [List.map_cons, scanSymbols, indexOf_symbolOf hp (hd d (by simp)), hv]
    simp only
    by_cases ho : 2 ^ 64 - 1 < order * d + sum
    · rw [if_pos ho, if_pos ⟨by simp, by omega⟩]
    · rw [if_neg ho, ih fun x hx => hd x (by simp [hx])]
      by_cases hds : ds = []
      · subst hds
        rw [if_neg (by simp), if_neg]
        rintro ⟨-, h⟩
        simp at h
        omega
      · simp [hds]

/-- The scan meets a byte that is no symbol before any overflow. -/
theorem scanSymbols_invalid {p : Params} (hp : p.wf = true) (base : Nat) (ds : List Nat) (hd : ∀ d ∈ ds, d < 58) (bad : Byte)
    (rest : List Byte) (hb : ¬ IsSymbol p bad) (sum order : Nat) (hs : sum + order * valueOf 58 ds.reverse ≤ 2 ^ 64 - 1) :
    scanSymbols p base (ds.map (symbolOf p) ++ bad :: rest) sum order = raise .invalidSymbol (base + rest.length) := by
  induction ds generalizing sum order with
  | nil => simp only [List.map_nil, List.nil_append, scanSymbols, indexOf_none hb]
  | cons d ds ih =>
    have hv : sum + order * valueOf 58 (d :: ds).reverse = (order * d + sum) + order * 58 * valueOf 58 ds.reverse := by
      rw [valueOf_reverse_cons]; ring
    rw [hv] at hs
    rw [List.map_cons, List.cons_append, scanSymbols, indexOf_symbolOf hp (hd d (by simp))]
    simp only
    rw [if_neg (by omega), ih (fun x hx => hd x (by simp [hx])) _ _ hs]

/-- Symbols of digits, in the order of the scan. -/
theorem symbolsOf_reverse {p : Params} {ds : List Nat} {t : List Byte} (h : SymbolsOf p ds t) :
    t.reverse = ds.reverse.map (symbolOf p) := by
  rw [h.2, List.map_reverse]; rfl

theorem symbolsOf_length {p : Params} {ds : List Nat} {t : List Byte} (h : SymbolsOf p ds t) : t.length = ds.length := by
  rw [h.2]; simp

theorem decodeBlock_badLength {p : Params} {t : List Byte} {base : Nat} (h : t.length ∉ [2, 3, 5, 6, 7, 9, 10, 11]) :
    decodeBlock p t base = raise .invalidBlockLength t.length := by
  unfold decodeBlock
  rcases decLen_none h with h | h
  · rw [h]
  · rw [h]; rfl

theorem table_of_length {k : Nat} (h : k ∈ [2, 3, 5, 6, 7, 9, 10, 11]) :
    ∃ m, 1 ≤ m ∧ m ≤ 8 ∧ encLenTable.getD m 0 = k := by
  simp only [List.mem_cons, List.not_mem_nil, or_false] at h
  rcases h with rfl | rfl | rfl | rfl | rfl | rfl | rfl | rfl
  exacts [⟨1, by decide⟩, ⟨2, by decide⟩, ⟨3, by decide⟩, ⟨4, by decide⟩, ⟨5, by decide⟩, ⟨6, by decide⟩, ⟨7, by decide⟩,
    ⟨8, by decide⟩]

/-- A block whose rightmost byte that is no symbol stands at index `head.length`. -/
theorem decodeBlock_invalid {p : Params} (hp : p.wf = true) {head tail : List Byte} {bad : Byte} {base m : Nat} (h1 : 1 ≤ m)
    (h8 : m ≤ 8) (hm : encLenTable.getD m 0 = (head ++ bad :: tail).length) (hb : ¬ IsSymbol p bad)
    (ht : ∀ ch ∈ tail, IsSymbol p ch) :
    decodeBlock p (head ++ bad :: tail) base = raise .invalidSymbol (base + head.length) := by
  obtain ⟨ds, hds⟩ := symbolsOf_of_isSymbol ht
  have hlen : ds.length ≤ 10 := by
    have := encLen_le h8
    rw [hm, List.length_append, List.length_cons, symbolsOf_length hds] at this
    omega
  have hlt : valueOf 58 ds < 2 ^ 64 := by
    calc valueOf 58 ds < 58 ^ ds.length := valueOf_lt 58 ds hds.1
      _ ≤ 58 ^ 10 := Nat.pow_le_pow_right (by norm_num) hlen
      _ < 2 ^ 64 := by norm_num
  have hscan : scanSymbols p base (head ++ bad :: tail).reverse 0 1 = raise .invalidSymbol (base + head.length) := by
    rw [List.reverse_append, List.reverse_cons, symbolsOf_reverse hds, List.append_assoc, List.singleton_append,
      scanSymbols_invalid hp base ds.reverse (fun d hd => hds.1 d (by simpa using hd)) bad head.reverse hb 0 1
        (by rw [List.reverse_reverse]; omega), List.length_reverse]
  unfold decodeBlock
  rw [← hm, decLen_encLen h1 h8, hscan]
  simp only [if_neg (encLen_pos h1 h8)]
  rfl

/-- A block of symbols. -/
theorem decodeBlock_symbols {p : Params} (hp : p.wf = true) {t : List Byte} {ds : List Nat} {base m : Nat} (h1 : 1 ≤ m) (h8 : m ≤ 8)
    (hm : encLenTable.getD m 0 = t.length) (hds : SymbolsOf p ds t) :
    decodeBlock p t base = if 256 ^ m ≤ sumOf 58 ds then raise .overflow base else .ok (beBytes m (sumOf 58 ds)) := by
  have hne : ds ≠ [] := by
    rintro rfl
    rw [symbolsOf_length hds] at hm
    exact encLen_pos h1 h8 hm
  have hscan : scanSymbols p base t.reverse 0 1 =
      if 2 ^ 64 - 1 < sumOf 58 ds then raise .overflow base else .ok (sumOf 58 ds) := by
    rw [symbolsOf_reverse hds, scanSymbols_symbols hp base _ (fun d hd => hds.1 d (by simpa using hd)), List.reverse_reverse,
      valueOf_eq_sumOf, Nat.zero_add, Nat.one_mul]
    simp [hne]
  have h256 : (256 : Nat) ^ m = 2 ^ (8 * m) := by rw [pow_mul]; norm_num
  unfold decodeBlock
  rw [← hm, decLen_encLen h1 h8, hscan]
  simp only [if_neg (encLen_pos h1 h8)]
  by_cases ho : 2 ^ 64 - 1 < sumOf 58 ds
  · have : 256 ^ m ≤ sumOf 58 ds := by
      have : (256 : Nat) ^ m ≤ 256 ^ 8 := Nat.pow_le_pow_right (by norm_num) h8
      norm_num at this ho ⊢
      omega
    rw [if_pos ho, if_pos this]
    rfl
  · rw [if_neg ho]
    simp only [← h256]
    by_cases hv : 256 ^ m ≤ sumOf 58 ds
    · have hm8 : m < 8 := by
        rcases Nat.lt_or_ge m 8 with h | h
        · exact h
        · have : m = 8 := by omega
          subst this
          norm_num at hv ho
          omega
      rw [if_pos hv, if_pos ⟨hm8, hv⟩]
    · rw [if_neg hv, if_neg fun h => hv h.2]

/-- Decoding undoes encoding, block by block. -/
theorem decodeBlock_encoded {p : Params} (hp : p.wf = true) {raw enc : List Byte} {base : Nat} (h : EncodedBlock p raw enc) :
    decodeBlock p enc base = .ok raw := by
  have hl := encodedBlock_length h
  obtain ⟨h1, h8, ds, -, hs, hv⟩ := h
  have hlt : sumOf 58 ds < 256 ^ raw.length := by
    rw [hv, ← beValue_eq_sumOf]
    exact beValue_lt raw
  rw [decodeBlock_symbols hp h1 h8 hl.symm hs, if_neg (not_le.mpr hlt), hv, ← beValue_eq_sumOf, beBytes_beValue]

/-- What decodes without error is an encoding of what it decodes to. -/
theorem encodedBlock_of_decode {p : Params} (hp : p.wf = true) {t raw : List Byte} {base : Nat} (h : decodeBlock p t base = .ok raw) :
    EncodedBlock p raw t := by
  by_cases hk : t.length ∈ [2, 3, 5, 6, 7, 9, 10, 11]
  swap
  · rw [decodeBlock_badLength hk] at h; cases h
  obtain ⟨m, h1, h8, hm⟩ := table_of_length hk
  by_cases hs : ∀ ch ∈ t, IsSymbol p ch
  · obtain ⟨ds, hds⟩ := symbolsOf_of_isSymbol hs
    rw [decodeBlock_symbols hp h1 h8 hm hds] at h
    split at h
    · cases h
    · next hlt =>
      cases h
      have hl := beBytes_length m (sumOf 58 ds)
      refine ⟨by rw [hl]; exact h1, by rw [hl]; exact h8, ds, ?_, hds, ?_⟩
      · rw [hl, hm, symbolsOf_length hds]
      · rw [← beValue_eq_sumOf, beValue_beBytes m _ (not_le.mp hlt)]
  · exfalso
    -- the rightmost byte that is no symbol
    have : ∃ head bad tail, t = head ++ bad :: tail ∧ ¬ IsSymbol p bad ∧ ∀ ch ∈ tail, IsSymbol p ch := by
      clear h hm hk
      induction t with
      | nil => exact absurd (by simp) hs
      | cons c cs ih =>
        by_cases hcs : ∀ ch ∈ cs, IsSymbol p ch
        · refine ⟨[], c, cs, rfl, fun hc => hs ?_, hcs⟩
          intro ch hch
          rcases List.mem_cons.mp hch with rfl | hch
          · exact hc
          · exact hcs ch hch
        · obtain ⟨head, bad, tail, rfl, hb, ht⟩ := ih hcs
          exact ⟨c :: head, bad, tail, rfl, hb, ht⟩
    obtain ⟨head, bad, tail, rfl, hb, ht⟩ := this
    rw [decodeBlock_invalid hp h1 h8 hm hb ht] at h
    cases h

/-! ### Whole strings (R124, R125) -/

@[simp] theorem blockAt_zero (k : Nat) (bs : List Byte) : blockAt k 0 bs = bs.take k := by simp [blockAt]

theorem blockAt_succ (k j : Nat) (bs : List Byte) : blockAt k (j + 1) bs = blockAt k j (bs.drop k) := by
  rw [blockAt, blockAt, List.drop_drop, Nat.mul_succ, Nat.add_comm]

/-- Encoding a whole string is encoding its blocks. -/
theorem encodeBlocks_ok (p : Params) (q : Nat) (b : List Byte) (hq : q = b.length / 8) :
    ∃ encs : List (List Byte), encs.length = (b.length + 7) / 8 ∧
      (∀ j, j < encs.length → EncodedBlock p (blockAt 8 j b) (encs.getD j [])) ∧
      encodeBlocks p q b = .ok encs.flatten := by
  induction q generalizing b with
  | zero =>
    unfold encodeBlocks
    by_cases hb : b = []
    · subst hb
      exact ⟨[], rfl, fun j hj => by simp at hj, rfl⟩
    · have hl : b.length ≠ 0 := by simpa using hb
      obtain ⟨enc, h1, h2⟩ := encodeBlock_ok (p := p) (b := b) (by omega) (by omega)
      refine ⟨[enc], by simp; omega, fun j hj => ?_, by rw [if_neg hb, h1]; simp⟩
      have : j = 0 := by simpa using hj
      subst this
      rw [blockAt_zero, List.take_of_length_le (by omega)]
      exact h2
  | succ q ih =>
    have hl : (b.drop 8).length = b.length - 8 := by simp
    obtain ⟨encs, h1, h2, h3⟩ := ih (b.drop 8) (by omega)
    obtain ⟨enc, h4, h5⟩ := encodeBlock_ok (p := p) (b := b.take 8) (by rw [List.length_take]; omega)
      (by rw [List.length_take]; omega)
    refine ⟨enc :: encs, by rw [List.length_cons, h1]; omega, fun j hj => ?_, ?_⟩
    · cases j with
      | zero => rw [blockAt_zero]; exact h5
      | succ j => rw [blockAt_succ]; exact h2 j (by simpa using hj)
    · unfold encodeBlocks
      rw [h4]
      simp only [h3, List.flatten_cons]

/-- Decoding a whole string whose blocks are encodings gives the raw blocks. -/
theorem decodeBlocks_ok {p : Params} (hp : p.wf = true) (q base : Nat) (t : List Byte) (raws : List (List Byte)) (hq : q = t.length / 11)
    (hl : raws.length = (t.length + 10) / 11)
    (hr : ∀ j, j < raws.length → EncodedBlock p (raws.getD j []) (blockAt 11 j t)) :
    decodeBlocks p q base t = .ok raws.flatten := by
  induction q generalizing base t raws with
  | zero =>
    unfold decodeBlocks
    by_cases ht : t = []
    · subst ht
      have : raws = [] := by simpa using hl
      subst this
      rfl
    · have hl' : t.length ≠ 0 := by simpa using ht
      match raws, hl with
      | [], hl => simp at hl; omega
      | [raw], _ =>
        have := hr 0 (by simp)
        rw [blockAt_zero, List.take_of_length_le (by omega)] at this
        rw [if_neg ht, decodeBlock_encoded hp this]
        simp
      | _ :: _ :: _, hl => simp at hl; omega
  | succ q ih =>
    have hd : (t.drop 11).length = t.length - 11 := by simp
    match raws, hl with
    | [], hl => simp at hl; omega
    | raw :: raws, hl =>
      have h0 := hr 0 (by simp)
      rw [blockAt_zero] at h0
      unfold decodeBlocks
      rw [decodeBlock_encoded hp h0]
      simp only
      rw [ih (base + 11) (t.drop 11) raws (by omega) (by simp at hl; omega) fun j hj => by
        have := hr (j + 1) (by simpa using hj)
        rwa [blockAt_succ] at this]
      simp

/-- The lowest block that fails gives its error. -/
theorem decodeBlocks_error {p : Params} (hp : p.wf = true) (q base j : Nat) (t : List Byte) (h : Halt) (hq : q = t.length / 11)
    (hj : j < (t.length + 10) / 11) (hlow : ∀ j', j' < j → ∃ raw, EncodedBlock p raw (blockAt 11 j' t))
    (herr : decodeBlock p (blockAt 11 j t) (base + 11 * j) = .error h) : decodeBlocks p q base t = .error h := by
  induction q generalizing base j t with
  | zero =>
    have : j = 0 := by omega
    subst this
    have ht : t ≠ [] := by rintro rfl; simp at hj
    rw [blockAt_zero, List.take_of_length_le (by omega), Nat.mul_zero, Nat.add_zero] at herr
    unfold decodeBlocks
    rw [if_neg ht, herr]
  | succ q ih =>
    have hd : (t.drop 11).length = t.length - 11 := by simp
    unfold decodeBlocks
    cases j with
    | zero =>
      rw [blockAt_zero, Nat.mul_zero, Nat.add_zero] at herr
      rw [herr]
    | succ j =>
      obtain ⟨raw, h0⟩ := hlow 0 (by omega)
      rw [blockAt_zero] at h0
      rw [decodeBlock_encoded hp h0]
      simp only
      rw [ih (base + 11) j (t.drop 11) (by omega) (by omega) (fun j' hj' => by
        obtain ⟨raw, h⟩ := hlow (j' + 1) (by omega)
        exact ⟨raw, by rwa [blockAt_succ] at h⟩) (by
        rw [blockAt_succ] at herr
        rwa [show base + 11 + 11 * j = base + 11 * (j + 1) by ring])]

/-- A whole string that decodes is the encoding of its blocks. -/
theorem encodeBlocks_of_decode {p : Params} (hp : p.wf = true) (q base : Nat) (t out : List Byte) (hq : q = t.length / 11)
    (h : decodeBlocks p q base t = .ok out) :
    encodeBlocks p (out.length / 8) out = .ok t ∧ out.length ≤ t.length := by
  induction q generalizing base t out with
  | zero =>
    unfold decodeBlocks at h
    split at h
    · next ht => cases h; subst ht; exact ⟨rfl, le_rfl⟩
    · next ht =>
      have he := encodedBlock_of_decode hp h
      have hne : out ≠ [] := by rintro rfl; exact absurd he.1 (by simp)
      have hl := encodedBlock_length he
      have h8 := he.2.1
      have h1 := he.1
      have : out.length ≠ 8 := by
        intro h
        rw [h] at hl
        have : t.length = 11 := hl
        omega
      refine ⟨?_, ?_⟩
      · rw [Nat.div_eq_of_lt (by omega)]
        unfold encodeBlocks
        rw [if_neg hne, encodeBlock_eq he]
      · rw [hl]
        generalize out.length = m at *
        interval_cases m <;> decide
  | succ q ih =>
    have hd : (t.drop 11).length = t.length - 11 := by simp
    unfold decodeBlocks at h
    split at h
    · cases h
    · next first hf =>
      split at h
      · cases h
      · next rest hr =>
        cases h
        obtain ⟨ih1, ih2⟩ := ih _ _ _ (by omega) hr
        have he := encodedBlock_of_decode hp hf
        have hl := encodedBlock_length he
        have h8 := he.2.1
        have ht11 : (t.take 11).length = 11 := by rw [List.length_take]; omega
        have hf8 : first.length = 8 := by
          rw [ht11] at hl
          generalize first.length = m at *
          interval_cases m <;> simp [encLenTable] at hl ⊢
        refine ⟨?_, by rw [List.length_append]; omega⟩
        rw [List.length_append, hf8, show (8 + rest.length) / 8 = rest.length / 8 + 1 by omega]
        unfold encodeBlocks
        rw [List.take_left' hf8, List.drop_left' hf8, encodeBlock_eq he]
        simp only [ih1, List.take_append_drop]

/-- The length of a whole encoding (R126.1). -/
theorem encodeBlocks_length {p : Params} (q : Nat) (b out : List Byte) (hq : q = b.length / 8) (h : encodeBlocks p q b = .ok out) :
    out.length = 11 * (b.length / 8) + encLenTable.getD (b.length % 8) 0 := by
  induction q generalizing b out with
  | zero =>
    unfold encodeBlocks at h
    split at h
    · next hb => cases h; subst hb; rfl
    · next hb =>
      have hl : b.length ≠ 0 := by simpa using hb
      obtain ⟨enc, h1, h2⟩ := encodeBlock_ok (p := p) (b := b) (by omega) (by omega)
      rw [h1] at h
      cases h
      rw [encodedBlock_length h2, ← hq, Nat.mod_eq_of_lt (by omega)]
      omega
  | succ q ih =>
    have hd : (b.drop 8).length = b.length - 8 := by simp
    unfold encodeBlocks at h
    obtain ⟨enc, h1, h2⟩ := encodeBlock_ok (p := p) (b := b.take 8) (by rw [List.length_take]; omega)
      (by rw [List.length_take]; omega)
    rw [h1] at h
    simp only at h
    split at h
    · cases h
    · next rest hr =>
      cases h
      have := ih _ _ (by omega) hr
      have h8 : (b.take 8).length = 8 := by rw [List.length_take]; omega
      rw [List.length_append, encodedBlock_length h2, h8, this, hd, show (b.length - 8) % 8 = b.length % 8 by omega,
        show b.length / 8 = (b.length - 8) / 8 + 1 by omega]
      simp only [encLenTable, List.getD_cons_succ, List.getD_cons_zero]
      ring

/-! ### Which errors -/

theorem scanSymbols_raises {p : Params} {base sum order : Nat} {cs : List Byte} {h : Halt}
    (hr : scanSymbols p base cs sum order = .error h) : ∃ e info, h = .raise e info ∧ e ∈ [.invalidSymbol, .overflow] := by
  induction cs generalizing sum order with
  | nil => cases hr
  | cons c cs ih =>
    unfold scanSymbols at hr
    split at hr
    · cases hr; exact ⟨_, _, rfl, by simp⟩
    · simp only at hr
      split at hr
      · cases hr; exact ⟨_, _, rfl, by simp⟩
      · exact ih hr

theorem decodeBlock_raises {p : Params} {t : List Byte} {base : Nat} {h : Halt} (hr : decodeBlock p t base = .error h) :
    ∃ e info, h = .raise e info ∧ e ∈ [.invalidBlockLength, .invalidSymbol, .overflow] := by
  unfold decodeBlock at hr
  split at hr
  · cases hr; exact ⟨_, _, rfl, by simp⟩
  · split at hr
    · cases hr; exact ⟨_, _, rfl, by simp⟩
    · split at hr
      · next h' hs =>
        cases hr
        obtain ⟨e, info, rfl, he⟩ := scanSymbols_raises hs
        exact ⟨e, info, rfl, List.mem_cons_of_mem _ he⟩
      · split at hr
        · cases hr; exact ⟨_, _, rfl, by simp⟩
        · cases hr

theorem decodeBlocks_raises {p : Params} {q base : Nat} {t : List Byte} {h : Halt} (hr : decodeBlocks p q base t = .error h) :
    ∃ e info, h = .raise e info ∧ e ∈ [.invalidBlockLength, .invalidSymbol, .overflow] := by
  induction q generalizing base t with
  | zero =>
    unfold decodeBlocks at hr
    split at hr
    · cases hr
    · exact decodeBlock_raises hr
  | succ q ih =>
    unfold decodeBlocks at hr
    split at hr
    · next h' hd => cases hr; exact decodeBlock_raises hd
    · split at hr
      · next h' hd => cases hr; exact ih hd
      · cases hr

end Sys2Proof.Machine
end

