-- ==== Sys2Proof/Laws/Encoding.lean ====
section
/-! SUPPORT. The fields of a packed command word are the fields it was packed from, and a mask of R67 acts on the fields one
by one (30_encoding.md R66, R67). -/

namespace Sys2Proof

theorem pack_toNat (imm : BitVec 8) (rs3 rs2 rs1 rd : VReg) (op : BitVec 8) :
    (pack imm rs3 rs2 rs1 rd op).toNat =
      imm.toNat * 2 ^ 24 + rs3.val * 2 ^ 20 + rs2.val * 2 ^ 16 + rs1.val * 2 ^ 12 + rd.val * 2 ^ 8 + op.toNat := by
  unfold pack
  have h1 := op.isLt
  have h2 := rd.isLt
  have h3 := rs1.isLt
  have h4 := rs2.isLt
  have h5 := rs3.isLt
  simp only [BitVec.toNat_append, BitVec.toNat_ofFin]
  repeat rw [← Nat.shiftLeft_add_eq_or_of_lt (by omega)]
  simp only [Nat.shiftLeft_eq]
  ring

theorem field_of_toNat (w : Word) (start len : Nat) :
    (w.extractLsb' start len).toNat = w.toNat / 2 ^ start % 2 ^ len := by
  simp [BitVec.extractLsb'_toNat, Nat.shiftRight_eq_div_pow]

@[simp] theorem opField_pack (imm : BitVec 8) (rs3 rs2 rs1 rd : VReg) (op : BitVec 8) :
    opField (pack imm rs3 rs2 rs1 rd op) = op := by
  apply BitVec.eq_of_toNat_eq
  show (BitVec.extractLsb' 0 8 _).toNat = _
  rw [field_of_toNat, pack_toNat]
  have := op.isLt
  omega

@[simp] theorem rdField_pack (imm : BitVec 8) (rs3 rs2 rs1 rd : VReg) (op : BitVec 8) :
    rdField (pack imm rs3 rs2 rs1 rd op) = rd := by
  apply Fin.ext
  show (BitVec.extractLsb' 8 4 _).toNat = _
  rw [field_of_toNat, pack_toNat]
  have := op.isLt
  omega

@[simp] theorem rs1Field_pack (imm : BitVec 8) (rs3 rs2 rs1 rd : VReg) (op : BitVec 8) :
    rs1Field (pack imm rs3 rs2 rs1 rd op) = rs1 := by
  apply Fin.ext
  show (BitVec.extractLsb' 12 4 _).toNat = _
  rw [field_of_toNat, pack_toNat]
  have := op.isLt
  omega

@[simp] theorem rs2Field_pack (imm : BitVec 8) (rs3 rs2 rs1 rd : VReg) (op : BitVec 8) :
    rs2Field (pack imm rs3 rs2 rs1 rd op) = rs2 := by
  apply Fin.ext
  show (BitVec.extractLsb' 16 4 _).toNat = _
  rw [field_of_toNat, pack_toNat]
  have := op.isLt
  omega

@[simp] theorem rs3Field_pack (imm : BitVec 8) (rs3 rs2 rs1 rd : VReg) (op : BitVec 8) :
    rs3Field (pack imm rs3 rs2 rs1 rd op) = rs3 := by
  apply Fin.ext
  show (BitVec.extractLsb' 20 4 _).toNat = _
  rw [field_of_toNat, pack_toNat]
  have := op.isLt
  omega

@[simp] theorem immField_pack (imm : BitVec 8) (rs3 rs2 rs1 rd : VReg) (op : BitVec 8) :
    immField (pack imm rs3 rs2 rs1 rd op) = imm := by
  apply BitVec.eq_of_toNat_eq
  show (BitVec.extractLsb' 24 8 _).toNat = _
  rw [field_of_toNat, pack_toNat]
  have := op.isLt
  have := imm.isLt
  omega

/-- A word is its six fields packed. -/
theorem pack_fields (w : Word) :
    pack (immField w) (rs3Field w) (rs2Field w) (rs1Field w) (rdField w) (opField w) = w := by
  apply BitVec.eq_of_toNat_eq
  rw [pack_toNat]
  have h0 : (opField w).toNat = w.toNat / 2 ^ 0 % 2 ^ 8 := field_of_toNat w 0 8
  have h1 : (rdField w).val = w.toNat / 2 ^ 8 % 2 ^ 4 := field_of_toNat w 8 4
  have h2 : (rs1Field w).val = w.toNat / 2 ^ 12 % 2 ^ 4 := field_of_toNat w 12 4
  have h3 : (rs2Field w).val = w.toNat / 2 ^ 16 % 2 ^ 4 := field_of_toNat w 16 4
  have h4 : (rs3Field w).val = w.toNat / 2 ^ 20 % 2 ^ 4 := field_of_toNat w 20 4
  have h5 : (immField w).toNat = w.toNat / 2 ^ 24 % 2 ^ 8 := field_of_toNat w 24 8
  have := w.isLt
  omega

theorem pack_injective {imm imm' op op' : BitVec 8} {a b c d a' b' c' d' : VReg} :
    pack imm a b c d op = pack imm' a' b' c' d' op' ↔
      imm = imm' ∧ a = a' ∧ b = b' ∧ c = c' ∧ d = d' ∧ op = op' := by
  constructor
  · intro h
    refine ⟨?_, ?_, ?_, ?_, ?_, ?_⟩
    · simpa using congrArg immField h
    · simpa using congrArg rs3Field h
    · simpa using congrArg rs2Field h
    · simpa using congrArg rs1Field h
    · simpa using congrArg rdField h
    · simpa using congrArg opField h
  · rintro ⟨rfl, rfl, rfl, rfl, rfl, rfl⟩
    rfl

/-- The four bits of a register field under a mask. -/
def maskReg (r m : VReg) : VReg := (BitVec.ofFin (w := 4) r &&& BitVec.ofFin (w := 4) m).toFin

theorem pack_and (imm imm' op op' : BitVec 8) (a b c d a' b' c' d' : VReg) :
    pack imm a b c d op &&& pack imm' a' b' c' d' op' =
      pack (imm &&& imm') (maskReg a a') (maskReg b b') (maskReg c c') (maskReg d d') (op &&& op') := by
  unfold pack maskReg
  refine BitVec.and_append.trans (congrArg (fun x : BitVec 24 => x ++ (op &&& op')) ?_)
  refine BitVec.and_append.trans (congrArg (fun x : BitVec 20 => x ++ (BitVec.ofFin (w := 4) d &&& BitVec.ofFin (w := 4) d')) ?_)
  refine BitVec.and_append.trans (congrArg (fun x : BitVec 16 => x ++ (BitVec.ofFin (w := 4) c &&& BitVec.ofFin (w := 4) c')) ?_)
  refine BitVec.and_append.trans (congrArg (fun x : BitVec 12 => x ++ (BitVec.ofFin (w := 4) b &&& BitVec.ofFin (w := 4) b')) ?_)
  exact BitVec.and_append

@[simp] theorem maskReg_zero (r : VReg) : maskReg r 0 = 0 := by
  revert r; decide

@[simp] theorem maskReg_ones (r : VReg) : maskReg r 15 = r := by
  revert r; decide

@[simp] theorem and_ones (b : BitVec 8) : b &&& 0xFF = b := by
  revert b; decide

@[simp] theorem and_zeros (b : BitVec 8) : b &&& 0 = 0 := by
  revert b; decide

/-- A mask with its six fields told apart. -/
theorem mask_eq_pack (f : Format) :
    f.mask = pack (immField f.mask) (rs3Field f.mask) (rs2Field f.mask) (rs1Field f.mask) (rdField f.mask)
      (opField f.mask) := (pack_fields _).symm

theorem setWidth_eq_pack (op : BitVec 8) : op.setWidth 32 = pack 0 0 0 0 0 op := by
  revert op; decide

/-! ### Rows of the decoder (R67, R71) -/

theorem extract_setWidth (op : BitVec 8) : (op.setWidth 32).extractLsb' 0 8 = op := by
  revert op; decide

theorem opField_of_match (f : Format) (op : BitVec 8) (w : Word) (h : w &&& f.mask = op.setWidth 32) : opField w = op := by
  rw [← pack_fields w, mask_eq_pack, pack_and, setWidth_eq_pack, pack_injective] at h
  have h' := h.2.2.2.2.2
  have hm : opField f.mask = 0xFF := by cases f <;> decide
  rwa [hm, and_ones] at h'

theorem accept_match {f : Format} {op : BitVec 8} {w : Word} {i : Instr} (h : w &&& f.mask = op.setWidth 32) :
    accept f op w i = some i := by rw [accept, if_pos h]

theorem accept_mismatch {f : Format} {op : BitVec 8} {w : Word} {i : Instr} (h : w &&& f.mask ≠ op.setWidth 32) :
    accept f op w i = none := by rw [accept, if_neg h]

/-- A row of the decoder, from what `decode` is on the words with the row's opcode. -/
theorem encodes_of (f : Format) (op : BitVec 8) (mk : Word → Instr) (mask pattern : Word) (hm : mask = f.mask)
    (hp : pattern = op.setWidth 32) (h : ∀ w, opField w = op → decode w = accept f op w (mk w)) :
    Encodes mask pattern mk := by
  subst hm hp
  intro w
  refine ⟨fun hw => ?_, fun ho hw => ?_⟩
  · rw [h w (opField_of_match f op w hw), accept_match hw]
  · rw [h w (ho.trans (extract_setWidth op)), accept_mismatch hw]

end Sys2Proof
end

