-- ==== Sys2Proof/Laws/Errors.lean ====
section
/-! SUPPORT. Which error codes a run can raise, one lemma per shared operation (60_exceptions.md R128), and what follows for
every command: an error completion never carries the code of no error. -/

namespace Sys2Proof.Machine

/-- Every error the run raises is one of these. -/
def RaisesOnly {α : Type} (es : List ErrCode) (r : Run α) : Prop := ∀ e info, r = raise e info → e ∈ es

variable {α : Type} {es : List ErrCode}

theorem raisesOnly_ok {a : α} : RaisesOnly es (.ok a : Run α) := fun _ _ h => by cases h

theorem raisesOnly_raise {e : ErrCode} {info : Nat} (h : e ∈ es) : RaisesOnly es (raise e info : Run α) :=
  fun _ _ h' => by cases h'; exact h

/-- An error handed on is an error of what raised it. -/
theorem raisesOnly_error {β : Type} {r : Run β} {h : Halt} (hr : RaisesOnly es r) (he : r = .error h) :
    RaisesOnly es (.error h : Run α) := fun e info h' => by cases h'; exact hr e info he

theorem raisesOnly_ite {q : Prop} [Decidable q] {a b : Run α} (ha : RaisesOnly es a) (hb : RaisesOnly es b) :
    RaisesOnly es (if q then a else b) := by split <;> assumption

theorem raisesOnly_withSource {p : Params} {c : InFlight} {n : Nat} {k : Run α} (h : .bufferBounds ∈ es)
    (hk : RaisesOnly es k) : RaisesOnly es (withSource p c n k) := raisesOnly_ite hk (raisesOnly_raise h)

theorem raisesOnly_withDest {p : Params} {c : InFlight} {k : Run α} (h : .bufferBounds ∈ es) (hk : RaisesOnly es k) :
    RaisesOnly es (withDest p c k) := raisesOnly_ite hk (raisesOnly_raise h)

theorem raisesOnly_readSource {c : InFlight} {n : Nat} {k : List Byte → Run α}
    (hk : ∀ bs, bs.length = n → RaisesOnly es (k bs)) : RaisesOnly es (readSource c n k) := by
  unfold readSource
  split
  · next bs h => exact hk bs (Memory.read_length h)
  · exact fun e info h => by cases h

theorem raisesOnly_storeValue {p : Params} {r : VReg} {v : Int} (h : .capacityExceeded ∈ es) :
    RaisesOnly es (storeValue p r v) := raisesOnly_ite raisesOnly_ok (raisesOnly_raise h)

theorem raisesOnly_emit {c : InFlight} {bs : List Byte} (h : .outputSpace ∈ es) : RaisesOnly es (emit c bs) :=
  raisesOnly_ite (raisesOnly_raise h) raisesOnly_ok

theorem raisesOnly_emitRun {c : InFlight} {r : Run (List Byte)} (h : .outputSpace ∈ es) (hr : RaisesOnly es r) :
    RaisesOnly es (emitRun c r) := by
  cases r with
  | error h' => exact raisesOnly_error hr rfl
  | ok bs => exact raisesOnly_emit h

theorem raisesOnly_scanDigits (h1 : .invalidFormat ∈ es) (h2 : .invalidDigit ∈ es) (r i : Nat) (s : List Byte) :
    RaisesOnly es (scanDigits r i s) := by
  induction s generalizing i with
  | nil => exact raisesOnly_ok
  | cons c cs ih =>
    unfold scanDigits
    split
    · exact raisesOnly_raise h1
    · split
      · exact raisesOnly_raise h2
      · split
        · split
          · exact raisesOnly_ok
          · next h hs => exact raisesOnly_error (ih (i + 1)) hs
        · exact raisesOnly_raise h2

theorem raisesOnly_numeral (h1 : .invalidFormat ∈ es) (h2 : .invalidDigit ∈ es) (h3 : .capacityExceeded ∈ es) (p : Params)
    (r : Nat) (s : List Byte) : RaisesOnly es (numeral p r s) := by
  unfold numeral
  split
  · next e _ =>
    have hm : RaisesOnly es (expMagnitude p e) := by
      unfold expMagnitude
      exact raisesOnly_ite raisesOnly_ok (raisesOnly_ite (raisesOnly_ite raisesOnly_ok (raisesOnly_raise h3))
        (raisesOnly_ite (raisesOnly_raise h1) (raisesOnly_ite raisesOnly_ok (raisesOnly_raise h1))))
    split
    · exact raisesOnly_ok
    · next h hs => exact raisesOnly_error hm hs
  · unfold plainNumeral
    simp only
    split
    · exact raisesOnly_ok
    · next h hs => exact raisesOnly_error (raisesOnly_scanDigits h1 h2 _ _ _) hs

theorem raisesOnly_encodeBlock (h : .invalidBlockLength ∈ es) (p : Params) (b : List Byte) :
    RaisesOnly es (encodeBlock p b) := raisesOnly_ite (raisesOnly_raise h) raisesOnly_ok

theorem raisesOnly_encodeBlocks {p : Params} {n : Nat} {b : List Byte} (h : b.length = n) :
    RaisesOnly es (encodeBlocks p (n / 8) b) := by
  obtain ⟨encs, -, -, he⟩ := encodeBlocks_ok p (n / 8) b (by rw [h])
  rw [he]
  exact raisesOnly_ok

theorem raisesOnly_decodeBlock (h1 : .invalidBlockLength ∈ es) (h2 : .invalidSymbol ∈ es) (h3 : .overflow ∈ es) (p : Params)
    (t : List Byte) (base : Nat) : RaisesOnly es (decodeBlock p t base) := by
  intro e info h
  obtain ⟨e', info', h4, h5⟩ := decodeBlock_raises h
  cases h4
  simp only [List.mem_cons, List.not_mem_nil, or_false] at h5
  rcases h5 with rfl | rfl | rfl <;> assumption

theorem raisesOnly_decodeBlocks (h1 : .invalidBlockLength ∈ es) (h2 : .invalidSymbol ∈ es) (h3 : .overflow ∈ es) (p : Params)
    (q base : Nat) (t : List Byte) : RaisesOnly es (decodeBlocks p q base t) := by
  intro e info h
  obtain ⟨e', info', h4, h5⟩ := decodeBlocks_raises h
  cases h4
  simp only [List.mem_cons, List.not_mem_nil, or_false] at h5
  rcases h5 with rfl | rfl | rfl <;> assumption

theorem raisesOnly_storePower (h : .capacityExceeded ∈ es) (p : Params) (r : VReg) (a : Int) (n : Nat) :
    RaisesOnly es (storePower p r a n) := by
  unfold storePower
  split
  · exact raisesOnly_raise h
  · exact raisesOnly_storeValue h

/-- From what the pseudocode of a command raises to the code its completion leaves. -/
theorem command_errCode {s t : State} {body : InFlight → Run Writes} (hb : ∀ c, s.inflight = some c → RaisesOnly es (body c))
    (h : s.command body = .next t) :
    (∃ w, t = s.succeed w) ∨ ∃ e info, e ∈ es ∧ t = s.fail e info := by
  unfold State.command at h
  split at h
  · cases h
  · next c hc =>
    rcases State.complete_next h with ⟨w, -, rfl⟩ | ⟨e, info, hr, rfl⟩
    · exact .inl ⟨w, rfl⟩
    · exact .inr ⟨e, info, hb c hc e info hr, rfl⟩

/-- The thirteen codes of R128 that are errors. -/
def realErrors : List ErrCode :=
  [.invalidRadix, .invalidDigit, .invalidFormat, .divideByZero, .exponentTooLarge, .invalidBlockLength, .invalidSymbol,
   .overflow, .illegalCommand, .capacityExceeded, .bufferBounds, .outputSpace, .negativeOperand]

theorem mem_realErrors (e : ErrCode) : e ∈ realErrors ↔ e ≠ .noError := by
  cases e <;> decide

/-- A command that answers a next state has completed with no error, or with a real one. -/
theorem exec_ends {i : Instr} {s t : State} (h : exec i s = .next t) :
    (∃ w, t = s.succeed w) ∨ ∃ e info, e ≠ .noError ∧ t = s.fail e info := by
  have key : (∃ w, t = s.succeed w) ∨ ∃ e info, e ∈ realErrors ∧ t = s.fail e info := by
    cases i <;> simp only [exec] at h
    all_goals refine command_errCode (fun c _ => ?_) h
    all_goals first
      | exact raisesOnly_ok
      | exact raisesOnly_storeValue (by decide)
      | exact raisesOnly_ite (raisesOnly_raise (by decide)) raisesOnly_ok
      | exact raisesOnly_ite (raisesOnly_raise (by decide)) (raisesOnly_ite (raisesOnly_raise (by decide)) raisesOnly_ok)
      | skip
    case ldraw =>
      refine raisesOnly_withSource (by decide) (raisesOnly_readSource fun bs _ => ?_)
      simp only
      split
      · exact raisesOnly_raise (by decide)
      · exact raisesOnly_storeValue (by decide)
    case straw =>
      exact raisesOnly_withDest (by decide) (raisesOnly_ite (raisesOnly_raise (by decide)) raisesOnly_ok)
    case frombe =>
      exact raisesOnly_withSource (by decide) (raisesOnly_readSource fun bs _ => raisesOnly_storeValue (by decide))
    case tobe =>
      exact raisesOnly_withDest (by decide) (raisesOnly_ite (raisesOnly_raise (by decide))
        (raisesOnly_ite (raisesOnly_raise (by decide)) raisesOnly_ok))
    case parse =>
      refine raisesOnly_withSource (by decide) (raisesOnly_ite (raisesOnly_raise (by decide))
        (raisesOnly_readSource fun bs _ => ?_))
      split
      · exact raisesOnly_storeValue (by decide)
      · next hs => exact raisesOnly_error (raisesOnly_numeral (by decide) (by decide) (by decide) _ _ _) hs
    case tostr =>
      exact raisesOnly_withDest (by decide) (raisesOnly_ite (raisesOnly_raise (by decide)) (raisesOnly_emit (by decide)))
    case pow =>
      exact raisesOnly_ite (raisesOnly_raise (by decide)) (raisesOnly_ite (raisesOnly_storeValue (by decide))
        (raisesOnly_ite (raisesOnly_ite (raisesOnly_raise (by decide)) (raisesOnly_storeValue (by decide)))
          (raisesOnly_storePower (by decide) _ _ _ _)))
    case enc58 =>
      exact raisesOnly_withSource (by decide) (raisesOnly_withDest (by decide)
        (raisesOnly_readSource fun b hb => raisesOnly_emitRun (by decide) (raisesOnly_encodeBlocks hb)))
    case dec58 =>
      exact raisesOnly_withSource (by decide) (raisesOnly_withDest (by decide) (raisesOnly_ite (raisesOnly_raise (by decide))
        (raisesOnly_readSource fun b _ => raisesOnly_emitRun (by decide)
          (raisesOnly_decodeBlocks (by decide) (by decide) (by decide) _ _ _ _))))
    case enc58b =>
      exact raisesOnly_withSource (by decide) (raisesOnly_withDest (by decide) (raisesOnly_ite (raisesOnly_raise (by decide))
        (raisesOnly_readSource fun b _ => raisesOnly_emitRun (by decide) (raisesOnly_encodeBlock (by decide) _ _))))
    case dec58b =>
      exact raisesOnly_withSource (by decide) (raisesOnly_withDest (by decide) (raisesOnly_readSource fun b _ =>
        raisesOnly_emitRun (by decide) (raisesOnly_decodeBlock (by decide) (by decide) (by decide) _ _ _)))
  rcases key with h | ⟨e, info, he, h⟩
  · exact .inl h
  · exact .inr ⟨e, info, (mem_realErrors e).mp he, h⟩

/-- The sequencer's step with a command in flight completes it, with no error or with a real one (R133). -/
theorem completeInFlight_ends {s t : State} (hc : s.inflight ≠ none) (h : completeInFlight s = .next t) :
    (∃ w, t = s.succeed w) ∨ ∃ e info, e ≠ .noError ∧ t = s.fail e info := by
  unfold completeInFlight at h
  split at h
  · unfold runWord at h
    split at h
    · exact exec_ends h
    · cases h
      exact .inr ⟨.illegalCommand, 0, by decide, rfl⟩
  · next hn => exact absurd hn hc

end Sys2Proof.Machine
end

