-- ==== Sys2Proof/Laws/Parse.lean ====
section
/-! SUPPORT. What the reader of numerals can do: the exponential form it recognises is the grammar of R85, the layout of a
plain numeral is that of R87, and the digit scan reports the first offending byte (41_parse_format.md). -/

namespace Sys2Proof.Machine

/-! ### Signs -/

/-- What is left after an optional sign does not begin with one where there was none. -/
def NoSignAhead (sg rest : List Byte) : Prop := sg = [] → ∀ c tail, rest = c :: tail → c ≠ 0x2B ∧ c ≠ 0x2D

theorem takeSign_cons (c : Byte) (cs : List Byte) :
    takeSign (c :: cs) = if c = 0x2D then (true, cs) else if c = 0x2B then (false, cs) else (false, c :: cs) := rfl

theorem takeFraction_cons (c : Byte) (cs : List Byte) :
    takeFraction (c :: cs) = if c = 0x2E then (cs.takeWhile isDecimal, cs.dropWhile isDecimal) else ([], c :: cs) := rfl

theorem takeSign_append {sg rest : List Byte} (hs : IsSign sg) (hn : NoSignAhead sg rest) :
    takeSign (sg ++ rest) = (decide (sg = [0x2D]), rest) := by
  rcases hs with rfl | rfl | rfl
  · cases rest with
    | nil => rfl
    | cons c tail =>
      obtain ⟨h1, h2⟩ := hn rfl c tail rfl
      rw [List.nil_append, takeSign_cons, if_neg h2, if_neg h1]
      rfl
  · rfl
  · rfl

theorem takeSign_spec (s : List Byte) :
    ∃ sg, IsSign sg ∧ s = sg ++ (takeSign s).2 ∧ (takeSign s).1 = decide (sg = [0x2D]) ∧ NoSignAhead sg (takeSign s).2 := by
  cases s with
  | nil => exact ⟨[], .inl rfl, rfl, rfl, fun _ c tail h => by cases h⟩
  | cons c cs =>
    by_cases h1 : c = 0x2D
    · subst h1
      exact ⟨[0x2D], .inr (.inr rfl), rfl, rfl, fun h => by cases h⟩
    · by_cases h2 : c = 0x2B
      · subst h2
        exact ⟨[0x2B], .inr (.inl rfl), rfl, rfl, fun h => by cases h⟩
      · rw [takeSign_cons, if_neg h1, if_neg h2]
        refine ⟨[], .inl rfl, rfl, rfl, fun _ d tail h => ?_⟩
        injection h with h _
        subst h
        exact ⟨h2, h1⟩

/-! ### Runs of digits -/

theorem isDecimal_iff (c : Byte) : isDecimal c = true ↔ 0x30 ≤ c.toNat ∧ c.toNat ≤ 0x39 := by
  simp [isDecimal]

theorem isDigits_iff (s : List Byte) : IsDigits s ↔ s.all isDecimal = true := by
  rw [List.all_eq_true]
  exact forall₂_congr fun c _ => (isDecimal_iff c).symm

theorem takeWhile_digits {ds rest : List Byte} (hd : IsDigits ds)
    (hr : ∀ c tail, rest = c :: tail → isDecimal c = false) :
    (ds ++ rest).takeWhile isDecimal = ds ∧ (ds ++ rest).dropWhile isDecimal = rest := by
  induction ds with
  | nil =>
    cases rest with
    | nil => exact ⟨rfl, rfl⟩
    | cons c tail => simp [hr c tail rfl]
  | cons d ds ih =>
    have h : isDecimal d = true := (isDecimal_iff d).mpr (hd d (by simp))
    obtain ⟨h1, h2⟩ := ih fun c hc => hd c (by simp [hc])
    simp [h, h1, h2]

theorem isDigits_takeWhile (s : List Byte) : IsDigits (s.takeWhile isDecimal) := by
  intro c hc
  exact (isDecimal_iff c).mp (List.mem_takeWhile_imp hc)

theorem dropWhile_head (s : List Byte) (c : Byte) (tail : List Byte) (h : s.dropWhile isDecimal = c :: tail) :
    isDecimal c = false := by
  have := List.head_dropWhile_not (p := isDecimal) (l := s) (by rw [h]; simp)
  simpa [h] using this

/-! ### The exponential form (R85) -/

/-- What the fraction step takes: a '.' and a run of digits where there is a '.', nothing where there is none. -/
theorem takeFraction_spec (s : List Byte) :
    ∃ dot : Bool, s = (if dot then 0x2E :: (takeFraction s).1 else []) ++ (takeFraction s).2 ∧
      IsDigits (takeFraction s).1 ∧ (dot = false → (takeFraction s).1 = []) := by
  cases s with
  | nil => exact ⟨false, rfl, fun c hc => by simp [takeFraction] at hc, fun _ => rfl⟩
  | cons c cs =>
    rw [takeFraction_cons]
    by_cases h : c = 0x2E
    · rw [if_pos h]
      refine ⟨true, ?_, isDigits_takeWhile _, nofun⟩
      rw [if_pos rfl, h, List.cons_append, List.takeWhile_append_dropWhile]
    · rw [if_neg h]
      exact ⟨false, rfl, fun d hd => by simp at hd, fun _ => rfl⟩

theorem takeMark_cons (c : Byte) (cs : List Byte) :
    takeMark (c :: cs) =
      if c = 0x65 ∨ c = 0x45 then some cs
      else if c = 0x2A ∧ cs.take 3 = [0x31, 0x30, 0x5E] then some (cs.drop 3) else none := rfl

theorem takeMark_append {mark rest : List Byte}
    (h : mark = [0x65] ∨ mark = [0x45] ∨ mark = [0x2A, 0x31, 0x30, 0x5E]) : takeMark (mark ++ rest) = some rest := by
  rcases h with rfl | rfl | rfl <;> rfl

theorem takeMark_spec {s rest : List Byte} (h : takeMark s = some rest) :
    ∃ mark, (mark = [0x65] ∨ mark = [0x45] ∨ mark = [0x2A, 0x31, 0x30, 0x5E]) ∧ s = mark ++ rest := by
  cases s with
  | nil => cases h
  | cons c cs =>
    rw [takeMark_cons] at h
    by_cases hc : c = 0x65 ∨ c = 0x45
    · rw [if_pos hc] at h
      cases h
      rcases hc with rfl | rfl
      · exact ⟨[0x65], .inl rfl, rfl⟩
      · exact ⟨[0x45], .inr (.inl rfl), rfl⟩
    · rw [if_neg hc] at h
      by_cases hd : c = 0x2A ∧ cs.take 3 = [0x31, 0x30, 0x5E]
      · rw [if_pos hd] at h
        cases h
        obtain ⟨rfl, h3⟩ := hd
        refine ⟨_, .inr (.inr rfl), ?_⟩
        conv_lhs => rw [← List.take_append_drop 3 cs, h3]
        rfl
      · rw [if_neg hd] at h
        cases h

theorem mark_head {mark rest : List Byte} (h : mark = [0x65] ∨ mark = [0x45] ∨ mark = [0x2A, 0x31, 0x30, 0x5E])
    (c : Byte) (tail : List Byte) (hc : mark ++ rest = c :: tail) : isDecimal c = false ∧ c ≠ 0x2E := by
  rcases h with rfl | rfl | rfl <;>
  · simp only [List.cons_append, List.nil_append, List.cons.injEq] at hc
    obtain ⟨rfl, -⟩ := hc
    decide

theorem digits_head {ds rest : List Byte} (hn : ds ≠ []) (hd : IsDigits ds) : NoSignAhead [] (ds ++ rest) := by
  intro _ c tail h
  cases ds with
  | nil => exact absurd rfl hn
  | cons d ds =>
    rw [List.cons_append] at h
    injection h with h _
    subst h
    have := hd d (by simp)
    constructor <;> rintro rfl <;> simp at this

theorem noSignAhead_of_nil {sg rest : List Byte} (h : NoSignAhead [] rest) : NoSignAhead sg rest := fun _ => h rfl

/-- A string of the grammar is read with its parts. -/
theorem expForm_of_expString {str sg int frac esg edig mark : List Byte} {dot : Bool}
    (h : ExpString str sg int frac esg edig dot mark) :
    expForm str =
      some { neg := decide (sg = [0x2D]), int := int, frac := frac, expNeg := decide (esg = [0x2D]), exp := edig } := by
  obtain ⟨hw, hs, ⟨hi, hid⟩, ⟨hfd, hdot⟩, hm, he, ⟨hx, hxd⟩⟩ := h
  subst hw
  have h1 : takeSign (sg ++ int ++ (if dot then 0x2E :: frac else []) ++ mark ++ esg ++ edig) =
      (decide (sg = [0x2D]), int ++ ((if dot then 0x2E :: frac else []) ++ (mark ++ (esg ++ edig)))) := by
    rw [List.append_assoc, List.append_assoc, List.append_assoc, List.append_assoc]
    exact takeSign_append hs (noSignAhead_of_nil (digits_head hi hid))
  have h2 := takeWhile_digits (ds := int) (rest := (if dot then 0x2E :: frac else []) ++ (mark ++ (esg ++ edig))) hid (by
    intro c tail hc
    cases dot with
    | false => exact (mark_head hm c tail hc).1
    | true =>
      simp only [if_true, List.cons_append] at hc
      injection hc with hc _
      subst hc
      decide)
  have h3 : takeFraction ((if dot then 0x2E :: frac else []) ++ (mark ++ (esg ++ edig))) =
      (frac, mark ++ (esg ++ edig)) := by
    cases dot with
    | true =>
      obtain ⟨ha, hb⟩ := takeWhile_digits (ds := frac) (rest := mark ++ (esg ++ edig)) hfd
        fun c tail hc => (mark_head hm c tail hc).1
      simp only [if_true, List.cons_append, takeFraction]
      rw [ha, hb]
    | false =>
      obtain rfl := hdot rfl
      simp only [Bool.false_eq_true, if_false, List.nil_append]
      cases hl : mark ++ (esg ++ edig) with
      | nil => rfl
      | cons c tail => rw [takeFraction, if_neg (mark_head hm c tail hl).2]
  have h4 : takeSign (esg ++ edig) = (decide (esg = [0x2D]), edig) := by
    have := digits_head (rest := []) hx hxd
    rw [List.append_nil] at this
    exact takeSign_append he (noSignAhead_of_nil this)
  unfold expForm
  simp only [h1, h2.1, h2.2, h3, takeMark_append hm, h4]
  rw [if_pos ⟨hi, hx, (isDigits_iff edig).mp hxd⟩]

/-- What is read as an exponential form is a string of the grammar. -/
theorem expString_of_expForm {str : List Byte} {e : ExpForm} (h : expForm str = some e) : IsExponential str := by
  unfold expForm at h
  simp only at h
  split at h
  · cases h
  · next rest hm =>
    split at h
    · next hc =>
      obtain ⟨hi, hx, hxd⟩ := hc
      obtain ⟨sg, hsg, hstr, -, -⟩ := takeSign_spec str
      obtain ⟨esg, hesg, hrest, -, -⟩ := takeSign_spec rest
      obtain ⟨mark, hmk, hf⟩ := takeMark_spec hm
      have hsplit : (takeSign str).2 = (takeSign str).2.takeWhile isDecimal ++ (takeSign str).2.dropWhile isDecimal :=
        (List.takeWhile_append_dropWhile).symm
      obtain ⟨dot, hfrac, hfd, hdot⟩ := takeFraction_spec ((takeSign str).2.dropWhile isDecimal)
      refine ⟨sg, (takeSign str).2.takeWhile isDecimal, (takeFraction ((takeSign str).2.dropWhile isDecimal)).1, esg,
        (takeSign rest).2, dot, mark, ?_, hsg, ⟨hi, isDigits_takeWhile _⟩, ⟨hfd, hdot⟩, hmk, hesg, hx,
        (isDigits_iff _).mpr hxd⟩
      calc str = sg ++ ((takeSign str).2.takeWhile isDecimal ++ (takeSign str).2.dropWhile isDecimal) := by
            rw [← hsplit]; exact hstr
        _ = sg ++ ((takeSign str).2.takeWhile isDecimal ++
              ((if dot then 0x2E :: (takeFraction ((takeSign str).2.dropWhile isDecimal)).1 else []) ++
                (mark ++ (esg ++ (takeSign rest).2)))) := by rw [← hrest, ← hf, ← hfrac]
        _ = _ := by simp only [List.append_assoc]
    · cases h

theorem expForm_eq_none {str : List Byte} (h : ¬ IsExponential str) : expForm str = none := by
  cases he : expForm str with
  | none => rfl
  | some e => exact absurd (expString_of_expForm he) h

theorem decimalValue_eq (s : List Byte) : decimalValue s = decimalOf s := valueOf_eq_sumOf _ _

/-! ### Plain numerals (R87) -/

theorem scanDigits_ok (r i : Nat) (s : List Byte) (ds : List Nat) (hm : s.map digval = ds.map some) (hd : ∀ d ∈ ds, d < r) :
    scanDigits r i s = .ok ds := by
  induction s generalizing i ds with
  | nil =>
    cases ds with
    | nil => rfl
    | cons d ds => cases hm
  | cons c cs ih =>
    cases ds with
    | nil => cases hm
    | cons d ds =>
      simp only [List.map_cons, List.cons.injEq] at hm
      have hc : c ≠ 0x2E := by
        rintro rfl
        have : digval 0x2E = none := by decide
        rw [this] at hm
        cases hm.1
      rw [scanDigits, if_neg hc]
      simp only [hm.1]
      rw [if_pos (hd d (by simp)), ih (i + 1) ds hm.2 fun x hx => hd x (by simp [hx])]

theorem scanDigits_bad (r i : Nat) (good : List Byte) (bad : Byte) (tail : List Byte)
    (hg : ∀ ch ∈ good, ∃ d, digval ch = some d ∧ d < r) (hb : ∀ d, digval bad = some d → r ≤ d) :
    scanDigits r i (good ++ bad :: tail) =
      raise (if bad = 0x2E then .invalidFormat else .invalidDigit) (i + good.length) := by
  induction good generalizing i with
  | nil =>
    rw [List.nil_append, scanDigits]
    by_cases hd : bad = 0x2E
    · rw [if_pos hd, if_pos hd]; rfl
    · rw [if_neg hd, if_neg hd]
      split
      · rfl
      · next d hd' => rw [if_neg (not_lt.mpr (hb d hd'))]; rfl
  | cons c cs ih =>
    obtain ⟨d, h1, h2⟩ := hg c (by simp)
    have hc : c ≠ 0x2E := by
      rintro rfl
      have : digval 0x2E = none := by decide
      rw [this] at h1
      cases h1
    rw [List.cons_append, scanDigits, if_neg hc]
    simp only [h1]
    rw [if_pos h2, ih (i + 1) fun x hx => hg x (by simp [hx]), List.length_cons, show i + 1 + cs.length = i + (cs.length + 1) by omega]
    rfl

theorem detectRadix_cons (z c : Byte) (rest : List Byte) :
    detectRadix (z :: c :: rest) =
      if z = 0x30 ∧ (c = 0x78 ∨ c = 0x58) then (16, rest, 2)
      else if z = 0x30 ∧ (c = 0x63 ∨ c = 0x43) then (8, rest, 2)
      else if z = 0x30 ∧ (c = 0x62 ∨ c = 0x42) then (2, rest, 2)
      else (10, z :: c :: rest, 0) := rfl

/-- With base omitted, the radix and the digits left are those of the prefix that stands there, or 10 and all of them. -/
theorem detectRadix_spec (s : List Byte) :
    ∃ pre r rest, detectRadix s = (r, rest, pre.length) ∧ s = pre ++ rest ∧
      ((pre, r) ∈ radixPrefixes ∨ (pre = [] ∧ r = 10 ∧ ∀ q ∈ radixPrefixes, ¬ q.1 <+: rest)) := by
  match s with
  | [] => exact ⟨[], 10, [], rfl, rfl, .inr ⟨rfl, rfl, by decide⟩⟩
  | [c] =>
    refine ⟨[], 10, [c], rfl, rfl, .inr ⟨rfl, rfl, ?_⟩⟩
    intro q hq hp
    have := hp.length_le
    revert this
    revert hq
    simp [radixPrefixes]
    rintro (rfl | rfl | rfl | rfl | rfl | rfl) <;> simp
  | z :: c :: rest =>
    rw [detectRadix_cons]
    by_cases h1 : z = 0x30 ∧ (c = 0x78 ∨ c = 0x58)
    · obtain ⟨rfl, h⟩ := h1
      rcases h with rfl | rfl
      · exact ⟨[0x30, 0x78], 16, rest, rfl, rfl, .inl (by decide)⟩
      · exact ⟨[0x30, 0x58], 16, rest, rfl, rfl, .inl (by decide)⟩
    rw [if_neg h1]
    by_cases h2 : z = 0x30 ∧ (c = 0x63 ∨ c = 0x43)
    · obtain ⟨rfl, h⟩ := h2
      rcases h with rfl | rfl
      · exact ⟨[0x30, 0x63], 8, rest, rfl, rfl, .inl (by decide)⟩
      · exact ⟨[0x30, 0x43], 8, rest, rfl, rfl, .inl (by decide)⟩
    rw [if_neg h2]
    by_cases h3 : z = 0x30 ∧ (c = 0x62 ∨ c = 0x42)
    · obtain ⟨rfl, h⟩ := h3
      rcases h with rfl | rfl
      · exact ⟨[0x30, 0x62], 2, rest, rfl, rfl, .inl (by decide)⟩
      · exact ⟨[0x30, 0x42], 2, rest, rfl, rfl, .inl (by decide)⟩
    rw [if_neg h3]
    refine ⟨[], 10, z :: c :: rest, rfl, rfl, .inr ⟨rfl, rfl, ?_⟩⟩
    intro q hq hp
    simp only [radixPrefixes, List.mem_cons, List.not_mem_nil, or_false] at hq
    rcases hq with rfl | rfl | rfl | rfl | rfl | rfl <;>
    · simp only [List.cons_prefix_cons] at hp
      obtain ⟨rfl, rfl, -⟩ := hp
      simp at h1 h2 h3

/-- The layout of a plain numeral says what the prefix step does. -/
theorem detectRadix_of_layout {pre rest : List Byte} {r : Nat}
    (h : (pre, r) ∈ radixPrefixes ∨ (pre = [] ∧ r = 10 ∧ ∀ q ∈ radixPrefixes, ¬ q.1 <+: rest)) :
    detectRadix (pre ++ rest) = (r, rest, pre.length) := by
  rcases h with h | ⟨rfl, rfl, hq⟩
  · have all : ∀ q ∈ radixPrefixes, detectRadix (q.1 ++ rest) = (q.2, rest, q.1.length) := by
      simp [radixPrefixes, detectRadix]
    exact all (pre, r) h
  · obtain ⟨pre', r', rest', h1, h2, h3⟩ := detectRadix_spec rest
    rcases h3 with h3 | ⟨rfl, rfl, -⟩
    · exact absurd ⟨rest', h2.symm⟩ (hq _ h3)
    · rw [List.nil_append, h1, h2]
      rfl

/-- Steps 2 and 3 of R87 on a string with a layout: what is scanned, in which radix, from which offset. -/
theorem plainNumeral_of_layout {str sg pre rest : List Byte} {imm r : Nat} (h : PlainString str imm sg pre rest r) :
    plainNumeral imm str =
      match scanDigits r (sg.length + pre.length) rest with
      | .ok ds => .ok (valueUnder sg (sumOf r ds))
      | .error e => .error e := by
  obtain ⟨hw, hs, hn, hx, ho⟩ := h
  have hs' : NoSignAhead sg (pre ++ rest) := by
    intro he c tail hc
    subst he
    exact hn rfl c tail (by rw [hw]; exact hc)
  have h1 : takeSign str = (decide (sg = [0x2D]), pre ++ rest) := by
    rw [hw, List.append_assoc]
    exact takeSign_append hs hs'
  have hlen : str.length - (pre ++ rest).length = sg.length := by
    rw [hw]
    simp only [List.length_append]
    omega
  unfold plainNumeral
  simp only [h1, hlen]
  by_cases h0 : imm = 0
  · simp only [if_pos h0, detectRadix_of_layout (ho h0), valueOf_eq_sumOf, signed_eq_valueUnder] <;> rfl
  · obtain ⟨rfl, rfl⟩ := hx h0
    simp only [if_neg h0, List.nil_append, List.length_nil, valueOf_eq_sumOf, signed_eq_valueUnder] <;> rfl

theorem plainString_exists (str : List Byte) (imm : Nat) : ∃ sg pre rest r, PlainString str imm sg pre rest r := by
  obtain ⟨sg, hs, hstr, -, hn⟩ := takeSign_spec str
  have hns : sg = [] → ∀ c tail, str = c :: tail → c ≠ 0x2B ∧ c ≠ 0x2D := by
    intro he c tail hc
    refine hn he c tail ?_
    rw [hstr, he, List.nil_append] at hc
    exact hc
  by_cases h0 : imm = 0
  · obtain ⟨pre, r, rest, -, h2, h3⟩ := detectRadix_spec (takeSign str).2
    exact ⟨sg, pre, rest, r, by rw [List.append_assoc, ← h2]; exact hstr, hs, hns, fun h => absurd h0 h, fun _ => h3⟩
  · exact ⟨sg, [], (takeSign str).2, imm, by simpa using hstr, hs, hns, fun _ => ⟨rfl, rfl⟩, fun h => absurd h h0⟩

end Sys2Proof.Machine
end

