-- ==== Sys2Proof/Laws/Format.lean ====
section
/-! SUPPORT. What TOSTR writes (41_parse_format.md R89): a sign and the digits of the magnitude, most significant first, and
that each of its symbols reads back as its digit. -/

namespace Sys2Proof.Machine

theorem sym_toNat (d : Nat) (h : d < 36) : (sym d).toNat = if d < 10 then 0x30 + d else 0x41 + (d - 10) := by
  unfold sym
  split <;> simp <;> omega

theorem digval_sym (d : Nat) (h : d < 36) : digval (sym d) = some d := by
  unfold digval
  simp only [sym_toNat d h]
  by_cases hd : d < 10
  · simp only [if_pos hd]
    rw [if_pos (by omega)]; congr 1; omega
  · simp only [if_neg hd]
    rw [if_neg (by omega), if_pos (by omega)]; congr 1; omega

/-- The digits of a value in radix r as TOSTR shows them, most significant first. -/
def shown (r : Nat) (v : Int) : List Nat := if v = 0 then [0] else (digits r v.natAbs).reverse

theorem text_eq (r : Nat) (v : Int) : text r v = (if v < 0 then [0x2D] else []) ++ (shown r v).map sym := by
  unfold text shown
  by_cases h : v = 0
  · subst h; rfl
  · simp only [if_neg h, List.map_reverse]

theorem shown_lt {r : Nat} (hr : 2 ≤ r) (v : Int) (d : Nat) (h : d ∈ shown r v) : d < r := by
  unfold shown at h
  split at h
  · simp at h; omega
  · exact digits_lt (by omega) _ d (by simpa using h)

theorem shown_value {r : Nat} (hr : 2 ≤ r) (v : Int) : sumOf r (shown r v) = v.natAbs := by
  unfold shown
  split
  · next h => subst h; rfl
  · rw [← valueOf_eq_sumOf, valueOf_digits hr]

theorem shown_head {r : Nat} (hr : 2 ≤ r) (v : Int) (hv : v ≠ 0) : ∃ d tail, shown r v = d :: tail ∧ d ≠ 0 := by
  unfold shown
  rw [if_neg hv]
  have hne : digits r v.natAbs ≠ [] := by rw [Ne, digits_eq_nil hr]; omega
  refine ⟨_, (digits r v.natAbs).dropLast.reverse, ?_, digits_getLast_ne_zero hr v.natAbs hne⟩
  conv_lhs => rw [← List.dropLast_append_getLast hne]
  simp

end Sys2Proof.Machine
end

