-- ==== Sys2Proof/Laws/Host.lean ====
section
/-! SUPPORT. The host interface, said once: which step an event is, and what stands at each offset of the host address space
(10_state.md R24, 20_memory.md R44 to R49). -/

namespace Sys2Proof.Machine

/-! ### Steps by event -/

theorem step_idle {s : State} (h : s.inputs = []) : step s = completeInFlight s := by rw [step, h]

theorem step_event {s : State} {e : Event} {rest : List Event} (h : s.inputs = e :: rest) :
    step s = handle e { s with inputs := rest } := by rw [step, h]

theorem step_sequencer {s : State} {rest : List Event} (h : s.inputs = .sequencer :: rest) :
    step s = completeInFlight { s with inputs := rest } := step_event h

/-- A legal host read. -/
theorem step_read {s : State} {o : BitVec 17} {rest : List Event} (h : s.inputs = .access 32 o .read :: rest)
    (hr : s.resetLine = false) (ho : o.toNat % 4 = 0) :
    step s = hostRead (regAt s.params o.toNat) { s with inputs := rest } := by
  rw [step_event h]
  simp [handle, hostAccess, hr, ho]

/-- A legal host write. -/
theorem step_write {s : State} {o : BitVec 17} {w : Word} {rest : List Event}
    (h : s.inputs = .access 32 o (.write w) :: rest) (hr : s.resetLine = false) (ho : o.toNat % 4 = 0) :
    step s = hostWrite (regAt s.params o.toNat) w { s with inputs := rest } := by
  rw [step_event h]
  simp [handle, hostAccess, hr, ho]

/-! ### What stands at an offset -/

/-- The registers of the map (R24). -/
def regMap : List (Nat × HostReg) :=
  [(0x00, .id), (0x04, .ctrl), (0x08, .status), (0x0C, .cmd), (0x10, .aSrc), (0x14, .aLen), (0x18, .aDst), (0x1C, .aCap),
   (0x20, .rVal)]
  ++ [(0x24, .rLen), (0x28, .errCode), (0x2C, .errInfo), (0x30, .cfgNv), (0x34, .cfgMaxl), (0x38, .cfgBuf), (0x40, .vsel),
   (0x44, .vsign), (0x48, .vlen)]

theorem regAt_register (p : Params) (o : Nat) (r : HostReg) (h : (o, r) ∈ regMap) : regAt p o = r := by
  have all : ∀ e ∈ regMap, regAt p e.1 = e.2 := by
    simp [regMap, regAt]
  exact all (o, r) h

/-- A hole between the registers. -/
theorem regAt_hole (p : Params) (o : Nat) (h : o = 0x3C ∨ (0x4C ≤ o ∧ o < 0x1000)) : regAt p o = .unmapped := by
  unfold regAt
  rw [if_pos (by omega)]
  split <;> first | rfl | omega

/-- The value window, up to MAX_LIMBS limbs (R38). -/
theorem regAt_window (p : Params) (o : Nat) (h : 0x1000 ≤ o) (h' : o < 0x10000) :
    regAt p o = if (o - 0x1000) / 4 < p.maxLimbs then .vlimb ((o - 0x1000) / 4) else .unmapped := by
  unfold regAt
  rw [if_neg (by omega), if_pos h']

/-- The buffer window, up to BUF_BYTES bytes (R39). -/
theorem regAt_buffer (p : Params) (o : Nat) (h : 0x10000 ≤ o) :
    regAt p o = if o - 0x10000 < p.bufBytes then .bufWin (o - 0x10000) else .unmapped := by
  unfold regAt
  rw [if_neg (by omega), if_neg (by omega)]

/-- Only the buffer window leads to the buffer. -/
theorem regAt_eq_bufWin {p : Params} {o k : Nat} (h : regAt p o = .bufWin k) : o = 0x10000 + k ∧ k < p.bufBytes := by
  rcases Nat.lt_or_ge o 0x10000 with h1 | h1
  · exfalso
    rcases Nat.lt_or_ge o 0x1000 with h2 | h2
    · have hs : regAt p o = regAt { p with bufBytes := 0 } o := by
        unfold regAt; rw [if_pos h2, if_pos h2]
      rcases Nat.lt_or_ge o 0x4C with h3 | h3
      · rw [hs] at h
        interval_cases o <;> exact absurd h nofun
      · rw [regAt_hole p o (.inr ⟨h3, h2⟩)] at h; cases h
    · rw [regAt_window p o h2 h1] at h
      split at h <;> cases h
  · rw [regAt_buffer p o h1] at h
    split at h
    · injection h with h; omega
    · cases h

end Sys2Proof.Machine
end

