-- ==== Sys2Proof/Laws/Limbs.lean ====
section
/-! SUPPORT. Limb words in the buffer (20_memory.md R55; 40_data_movement.md R81, R82): what LDRAW reads and STRAW stores, word
by word and byte by byte. -/

namespace Sys2Proof.Machine

@[simp] theorem limbWords_length (n : Nat) (bs : List Byte) : (limbWords n bs).length = n := by
  induction n generalizing bs with
  | zero => rfl
  | succ n ih => simp [limbWords, ih]

/-- Four bytes read least significant first are the word the claims write. -/
theorem beValue_reverse_four (bs : List Byte) (h : bs.length = 4) : beValue bs.reverse = limbWordAt bs 0 := by
  match bs, h with
  | [a, b, c, d], _ =>
    simp [beValue, valueOf, limbWordAt, Finset.sum_range_succ]
    ring

theorem limbWordAt_take (bs : List Byte) : limbWordAt (bs.take 4) 0 = limbWordAt bs 0 := by
  unfold limbWordAt
  refine Finset.sum_congr rfl fun j hj => ?_
  have hj := Finset.mem_range.mp hj
  rw [List.getD_eq_getElem?_getD, List.getD_eq_getElem?_getD, List.getElem?_take]
  simp [show j < 4 from hj]

theorem limbWordAt_drop (bs : List Byte) (i : Nat) : limbWordAt (bs.drop 4) i = limbWordAt bs (i + 1) := by
  unfold limbWordAt
  refine Finset.sum_congr rfl fun j _ => ?_
  rw [List.getD_eq_getElem?_getD, List.getD_eq_getElem?_getD, List.getElem?_drop,
    show 4 + (4 * i + j) = 4 * (i + 1) + j by ring]

theorem limbWords_getD (n : Nat) (bs : List Byte) (h : bs.length = 4 * n) (i : Nat) (hi : i < n) :
    (limbWords n bs).getD i 0 = limbWordAt bs i := by
  induction n generalizing bs i with
  | zero => omega
  | succ n ih =>
    cases i with
    | zero =>
      rw [limbWords, List.getD_cons_zero, beValue_reverse_four _ (by rw [List.length_take]; omega), limbWordAt_take]
    | succ i =>
      rw [limbWords, List.getD_cons_succ, ih _ (by rw [List.length_drop]; omega) i (by omega), limbWordAt_drop]

theorem limbWords_getElem (n : Nat) (bs : List Byte) (h : bs.length = 4 * n) (i : Nat) (hi : i < (limbWords n bs).length) :
    (limbWords n bs)[i] = limbWordAt bs i := by
  rw [← limbWords_getD n bs h i (by simpa using hi), List.getD_eq_getElem?_getD, List.getElem?_eq_getElem hi]
  rfl

/-- Digits least significant first, as a sum. -/
theorem valueOf_reverse_eq_sum (b : Nat) (ds : List Nat) :
    valueOf b ds.reverse = ∑ i ∈ Finset.range ds.length, ds.getD i 0 * b ^ i := by
  induction ds with
  | nil => rfl
  | cons d ds ih =>
    rw [valueOf_reverse_cons, ih, List.length_cons, Finset.sum_range_succ', Finset.sum_mul]
    simp only [List.getD_cons_zero, List.getD_cons_succ, pow_zero, mul_one, pow_succ, mul_assoc]

/-- The magnitude LDRAW makes of its words. -/
theorem valueOf_limbWords (n : Nat) (bs : List Byte) (h : bs.length = 4 * n) :
    valueOf limbBase (limbWords n bs).reverse = ∑ i ∈ Finset.range n, limbWordAt bs i * 10 ^ (7 * i) := by
  rw [valueOf_reverse_eq_sum, limbWords_length]
  refine Finset.sum_congr rfl fun i hi => ?_
  rw [limbWords_getD n bs h i (Finset.mem_range.mp hi), limbBase_eq, ← pow_mul]

/-- No word is too large. -/
theorem findLimb_none (n : Nat) (bs : List Byte) (h : bs.length = 4 * n)
    (hw : ∀ i, i < n → limbWordAt bs i < 10 ^ 7) :
    (limbWords n bs).findIdx? (fun w => decide (limbBase ≤ w)) = none := by
  rw [List.findIdx?_eq_none_iff]
  intro w hm
  obtain ⟨i, hi, rfl⟩ := List.mem_iff_getElem.mp hm
  have := hw i (by simpa using hi)
  rw [limbWords_getElem n bs h i hi, limbBase_eq]
  simpa using this

/-- The lowest word that is too large. -/
theorem findLimb_some (n : Nat) (bs : List Byte) (h : bs.length = 4 * n) (i : Nat) (hi : i < n)
    (hw : 10 ^ 7 ≤ limbWordAt bs i) (hl : ∀ j, j < i → limbWordAt bs j < 10 ^ 7) :
    (limbWords n bs).findIdx? (fun w => decide (limbBase ≤ w)) = some i := by
  rw [List.findIdx?_eq_some_iff_getElem]
  refine ⟨by simpa using hi, ?_, fun j hj => ?_⟩
  · rw [limbWords_getElem n bs h i, limbBase_eq]
    simpa using hw
  · have := hl j hj
    rw [limbWords_getElem n bs h j, limbBase_eq]
    simpa using this

theorem limbBytes_getD (l j : Nat) (hj : j < 4) : ((limbBytes l).getD j 0).toNat = l / 256 ^ j % 256 := by
  have := lowDigits_getD 256 4 l j hj
  rw [limbBytes, List.getD_eq_getElem?_getD, List.getElem?_map]
  rw [List.getD_eq_getElem?_getD] at this
  rw [List.getElem?_eq_getElem (by simpa using hj)] at this ⊢
  simp only [Option.getD_some, Option.map_some, BitVec.toNat_ofNat] at this ⊢
  rw [this]
  exact Nat.mod_mod _ _

/-- Byte 4i + j of the stored limbs is byte j of limb i. -/
theorem flatMap_limbBytes_getD (ls : List Nat) (i j : Nat) (hi : i < ls.length) (hj : j < 4) :
    ((ls.flatMap limbBytes).getD (4 * i + j) 0).toNat = ls.getD i 0 / 256 ^ j % 256 := by
  induction ls generalizing i with
  | nil => simp at hi
  | cons l ls ih =>
    rw [List.flatMap_cons, List.getD_eq_getElem?_getD, List.getElem?_append, limbBytes_length]
    cases i with
    | zero =>
      rw [if_pos (by omega), List.getD_cons_zero, Nat.mul_zero, Nat.zero_add, ← List.getD_eq_getElem?_getD,
        limbBytes_getD l j hj]
    | succ i =>
      rw [if_neg (by omega), List.getD_cons_succ, show 4 * (i + 1) + j - 4 = 4 * i + j by omega,
        ← List.getD_eq_getElem?_getD, ih i (by simpa using hi)]

/-- The words of the stored limbs are the limbs. -/
theorem limbWordAt_flatMap (ls : List Nat) (hl : ∀ l ∈ ls, l < 10 ^ 7) (i : Nat) (hi : i < ls.length) :
    limbWordAt (ls.flatMap limbBytes) i = ls.getD i 0 := by
  have hlt : ls.getD i 0 < 10 ^ 7 := by
    rw [List.getD_eq_getElem?_getD, List.getElem?_eq_getElem hi]
    exact hl _ (List.getElem_mem hi)
  unfold limbWordAt
  rw [Finset.sum_congr rfl fun j hj => by rw [flatMap_limbBytes_getD ls i j hi (Finset.mem_range.mp hj)]]
  simp only [Finset.sum_range_succ, Finset.sum_range_zero]
  generalize ls.getD i 0 = l at *
  omega

end Sys2Proof.Machine
end

