-- ==== Sys2Proof/Laws/PerInstr.lean ====
section
/-! SUPPORT. Laws about every instruction as syntax, one lemma per constructor. -/

namespace Sys2Proof.Laws.MatchesRow

/-- The format of each command's row (30_encoding.md R70). -/
def format : Instr → Format
  | .nop => .N
  | .ldk _ _ => .K
  | .mov _ _ => .R2
  | .ldraw _ _ => .KS
  | .straw _ => .S1
  | .frombe _ => .D
  | .tobe _ => .S1
  | .parse _ _ => .K
  | .tostr _ _ => .S1I
  | .add _ _ _ => .R3
  | .sub _ _ _ => .R3
  | .neg _ _ => .R2
  | .mul _ _ _ => .R3
  | .sqr _ _ => .R2
  | .divrem _ _ _ _ => .Q
  | .div _ _ _ => .R3
  | .rem _ _ _ => .R3
  | .pow _ _ _ => .R3
  | .modpow _ _ _ _ => .R4
  | .cmp _ _ => .S2
  | .cmpabs _ _ => .S2
  | .sgn _ => .S1
  | .iszero _ => .S1
  | .isunit _ => .S1
  | .iseven _ => .S1
  | .isodd _ => .S1
  | .ispos _ => .S1
  | .isneg _ => .S1
  | .enc58 => .B
  | .dec58 => .B
  | .enc58b => .B
  | .dec58b => .B

/-- The opcode of each command's row (R70). -/
def opcode : Instr → BitVec 8
  | .nop => 0x00
  | .ldk _ _ => 0x01
  | .mov _ _ => 0x02
  | .ldraw _ _ => 0x04
  | .straw _ => 0x05
  | .frombe _ => 0x06
  | .tobe _ => 0x07
  | .parse _ _ => 0x08
  | .tostr _ _ => 0x09
  | .add _ _ _ => 0x10
  | .sub _ _ _ => 0x11
  | .neg _ _ => 0x12
  | .mul _ _ _ => 0x18
  | .sqr _ _ => 0x19
  | .divrem _ _ _ _ => 0x20
  | .div _ _ _ => 0x21
  | .rem _ _ _ => 0x22
  | .pow _ _ _ => 0x28
  | .modpow _ _ _ _ => 0x29
  | .cmp _ _ => 0x30
  | .cmpabs _ _ => 0x31
  | .sgn _ => 0x32
  | .iszero _ => 0x33
  | .isunit _ => 0x34
  | .iseven _ => 0x35
  | .isodd _ => 0x36
  | .ispos _ => 0x37
  | .isneg _ => 0x38
  | .enc58 => 0x40
  | .dec58 => 0x41
  | .enc58b => 0x42
  | .dec58b => 0x43

/-- The word of a command is an instance of its own row: (w AND mask(C)) = match(C) (R67). -/
def Statement (i : Instr) : Prop := encode i &&& (format i).mask = (opcode i).setWidth 32

theorem of_pack {imm op mi mo : BitVec 8} {a b c d ma mb mc md : VReg} {mask : Word}
    (hm : mask = pack mi ma mb mc md mo) (h0 : imm &&& mi = 0) (ha : maskReg a ma = 0) (hb : maskReg b mb = 0)
    (hc : maskReg c mc = 0) (hd : maskReg d md = 0) (ho : op &&& mo = op) :
    pack imm a b c d op &&& mask = op.setWidth 32 := by
  rw [hm, pack_and, h0, ha, hb, hc, hd, ho, setWidth_eq_pack]

theorem nop : Statement .nop :=
  of_pack (mi := 0xFF) (ma := 15) (mb := 15) (mc := 15) (md := 15) (mo := 0xFF) rfl (by simp) (by simp) (by simp) (by simp)
    (by simp) (by decide)

theorem ldk (vd : VReg) (imm : BitVec 8) : Statement (.ldk vd imm) :=
  of_pack (mi := 0x00) (ma := 15) (mb := 15) (mc := 15) (md := 0) (mo := 0xFF) rfl (by simp) (by simp) (by simp) (by simp)
    (by simp) (by decide)

theorem mov (vd vs : VReg) : Statement (.mov vd vs) :=
  of_pack (mi := 0xFF) (ma := 15) (mb := 15) (mc := 0) (md := 0) (mo := 0xFF) rfl (by simp) (by simp) (by simp) (by simp)
    (by simp) (by decide)

theorem ldraw (vd : VReg) (neg : Bool) : Statement (.ldraw vd neg) := by
  cases neg <;>
    exact of_pack (mi := 0xFE) (ma := 15) (mb := 15) (mc := 15) (md := 0) (mo := 0xFF) rfl (by decide) (by simp) (by simp)
      (by simp) (by simp) (by decide)

theorem straw (vs : VReg) : Statement (.straw vs) :=
  of_pack (mi := 0xFF) (ma := 15) (mb := 15) (mc := 0) (md := 15) (mo := 0xFF) rfl (by simp) (by simp) (by simp) (by simp)
    (by simp) (by decide)

theorem frombe (vd : VReg) : Statement (.frombe vd) :=
  of_pack (mi := 0xFF) (ma := 15) (mb := 15) (mc := 15) (md := 0) (mo := 0xFF) rfl (by simp) (by simp) (by simp) (by simp)
    (by simp) (by decide)

theorem tobe (vs : VReg) : Statement (.tobe vs) :=
  of_pack (mi := 0xFF) (ma := 15) (mb := 15) (mc := 0) (md := 15) (mo := 0xFF) rfl (by simp) (by simp) (by simp) (by simp)
    (by simp) (by decide)

theorem parse (vd : VReg) (radix : BitVec 8) : Statement (.parse vd radix) :=
  of_pack (mi := 0x00) (ma := 15) (mb := 15) (mc := 15) (md := 0) (mo := 0xFF) rfl (by simp) (by simp) (by simp) (by simp)
    (by simp) (by decide)

theorem tostr (vs : VReg) (radix : BitVec 8) : Statement (.tostr vs radix) :=
  of_pack (mi := 0x00) (ma := 15) (mb := 15) (mc := 0) (md := 15) (mo := 0xFF) rfl (by simp) (by simp) (by simp) (by simp)
    (by simp) (by decide)

theorem add (vd va vb : VReg) : Statement (.add vd va vb) :=
  of_pack (mi := 0xFF) (ma := 15) (mb := 0) (mc := 0) (md := 0) (mo := 0xFF) rfl (by simp) (by simp) (by simp) (by simp)
    (by simp) (by decide)

theorem sub (vd va vb : VReg) : Statement (.sub vd va vb) :=
  of_pack (mi := 0xFF) (ma := 15) (mb := 0) (mc := 0) (md := 0) (mo := 0xFF) rfl (by simp) (by simp) (by simp) (by simp)
    (by simp) (by decide)

theorem neg (vd vs : VReg) : Statement (.neg vd vs) :=
  of_pack (mi := 0xFF) (ma := 15) (mb := 15) (mc := 0) (md := 0) (mo := 0xFF) rfl (by simp) (by simp) (by simp) (by simp)
    (by simp) (by decide)

theorem mul (vd va vb : VReg) : Statement (.mul vd va vb) :=
  of_pack (mi := 0xFF) (ma := 15) (mb := 0) (mc := 0) (md := 0) (mo := 0xFF) rfl (by simp) (by simp) (by simp) (by simp)
    (by simp) (by decide)

theorem sqr (vd vs : VReg) : Statement (.sqr vd vs) :=
  of_pack (mi := 0xFF) (ma := 15) (mb := 15) (mc := 0) (md := 0) (mo := 0xFF) rfl (by simp) (by simp) (by simp) (by simp)
    (by simp) (by decide)

theorem divrem (vq vr va vb : VReg) : Statement (.divrem vq vr va vb) :=
  of_pack (mi := 0xFF) (ma := 0) (mb := 0) (mc := 0) (md := 0) (mo := 0xFF) rfl (by simp) (by simp) (by simp) (by simp)
    (by simp) (by decide)

theorem div (vd va vb : VReg) : Statement (.div vd va vb) :=
  of_pack (mi := 0xFF) (ma := 15) (mb := 0) (mc := 0) (md := 0) (mo := 0xFF) rfl (by simp) (by simp) (by simp) (by simp)
    (by simp) (by decide)

theorem rem (vd va vb : VReg) : Statement (.rem vd va vb) :=
  of_pack (mi := 0xFF) (ma := 15) (mb := 0) (mc := 0) (md := 0) (mo := 0xFF) rfl (by simp) (by simp) (by simp) (by simp)
    (by simp) (by decide)

theorem pow (vd va vn : VReg) : Statement (.pow vd va vn) :=
  of_pack (mi := 0xFF) (ma := 15) (mb := 0) (mc := 0) (md := 0) (mo := 0xFF) rfl (by simp) (by simp) (by simp) (by simp)
    (by simp) (by decide)

theorem modpow (vd va ve vm : VReg) : Statement (.modpow vd va ve vm) :=
  of_pack (mi := 0xFF) (ma := 0) (mb := 0) (mc := 0) (md := 0) (mo := 0xFF) rfl (by simp) (by simp) (by simp) (by simp)
    (by simp) (by decide)

theorem cmp (va vb : VReg) : Statement (.cmp va vb) :=
  of_pack (mi := 0xFF) (ma := 15) (mb := 0) (mc := 0) (md := 15) (mo := 0xFF) rfl (by simp) (by simp) (by simp) (by simp)
    (by simp) (by decide)

theorem cmpabs (va vb : VReg) : Statement (.cmpabs va vb) :=
  of_pack (mi := 0xFF) (ma := 15) (mb := 0) (mc := 0) (md := 15) (mo := 0xFF) rfl (by simp) (by simp) (by simp) (by simp)
    (by simp) (by decide)

theorem sgn (va : VReg) : Statement (.sgn va) :=
  of_pack (mi := 0xFF) (ma := 15) (mb := 15) (mc := 0) (md := 15) (mo := 0xFF) rfl (by simp) (by simp) (by simp) (by simp)
    (by simp) (by decide)

theorem iszero (va : VReg) : Statement (.iszero va) :=
  of_pack (mi := 0xFF) (ma := 15) (mb := 15) (mc := 0) (md := 15) (mo := 0xFF) rfl (by simp) (by simp) (by simp) (by simp)
    (by simp) (by decide)

theorem isunit (va : VReg) : Statement (.isunit va) :=
  of_pack (mi := 0xFF) (ma := 15) (mb := 15) (mc := 0) (md := 15) (mo := 0xFF) rfl (by simp) (by simp) (by simp) (by simp)
    (by simp) (by decide)

theorem iseven (va : VReg) : Statement (.iseven va) :=
  of_pack (mi := 0xFF) (ma := 15) (mb := 15) (mc := 0) (md := 15) (mo := 0xFF) rfl (by simp) (by simp) (by simp) (by simp)
    (by simp) (by decide)

theorem isodd (va : VReg) : Statement (.isodd va) :=
  of_pack (mi := 0xFF) (ma := 15) (mb := 15) (mc := 0) (md := 15) (mo := 0xFF) rfl (by simp) (by simp) (by simp) (by simp)
    (by simp) (by decide)

theorem ispos (va : VReg) : Statement (.ispos va) :=
  of_pack (mi := 0xFF) (ma := 15) (mb := 15) (mc := 0) (md := 15) (mo := 0xFF) rfl (by simp) (by simp) (by simp) (by simp)
    (by simp) (by decide)

theorem isneg (va : VReg) : Statement (.isneg va) :=
  of_pack (mi := 0xFF) (ma := 15) (mb := 15) (mc := 0) (md := 15) (mo := 0xFF) rfl (by simp) (by simp) (by simp) (by simp)
    (by simp) (by decide)

theorem enc58 : Statement .enc58 :=
  of_pack (mi := 0xFF) (ma := 15) (mb := 15) (mc := 15) (md := 15) (mo := 0xFF) rfl (by simp) (by simp) (by simp) (by simp)
    (by simp) (by decide)

theorem dec58 : Statement .dec58 :=
  of_pack (mi := 0xFF) (ma := 15) (mb := 15) (mc := 15) (md := 15) (mo := 0xFF) rfl (by simp) (by simp) (by simp) (by simp)
    (by simp) (by decide)

theorem enc58b : Statement .enc58b :=
  of_pack (mi := 0xFF) (ma := 15) (mb := 15) (mc := 15) (md := 15) (mo := 0xFF) rfl (by simp) (by simp) (by simp) (by simp)
    (by simp) (by decide)

theorem dec58b : Statement .dec58b :=
  of_pack (mi := 0xFF) (ma := 15) (mb := 15) (mc := 15) (md := 15) (mo := 0xFF) rfl (by simp) (by simp) (by simp) (by simp)
    (by simp) (by decide)

end Sys2Proof.Laws.MatchesRow
end

