-- ==== Sys2Proof/Machine/HostProgram.lean ====
section
/-! DEFINITION. What the host statements of the assembler stand for, as events at the block (30_encoding.md R74 to R76). The
host's own control flow is no part of the block: WAIT and CHECK are given as the accesses they make. -/

namespace Sys2Proof.Machine

/-- `wr REG, value` (R75). -/
def wr (offset : BitVec 17) (value : Word) : Event := .access 32 offset (.write value)

/-- `rd REG` (R75). -/
def rd (offset : BitVec 17) : Event := .access 32 offset .read

/-- `WAIT` (R76): STATUS is read until BUSY = 0. Here BUSY reads 1 `polls` times, the command completes, and the next read
shows BUSY = 0. -/
def waitEvents (polls : Nat) : List Event := List.replicate polls (rd 0x00008) ++ [.sequencer, rd 0x00008]

/-- A command line (R75): its encoding is written to CMD, then WAIT. -/
def commandLine (i : Instr) (polls : Nat) : List Event := wr 0x0000C (encode i) :: waitEvents polls

/-- The pseudo-instructions of R76. -/
inductive Pseudo where
  | clr (vd : VReg)
  | one (vd : VReg)
  | parse (vd : VReg)
  | tostr (vs : VReg)
  | args (s l d c : Word)
  | wait (polls : Nat)
  | check
  deriving DecidableEq, Repr

/-- The expansions of R76. -/
def Pseudo.expand (polls : Nat) : Pseudo → List Event
  | .clr vd => commandLine (.ldk vd 0) polls
  | .one vd => commandLine (.ldk vd 1) polls
  | .parse vd => commandLine (.parse vd 0) polls
  | .tostr vs => commandLine (.tostr vs 0) polls
  | .args s l d c => [wr 0x00010 s, wr 0x00014 l, wr 0x00018 d, wr 0x0001C c]
  | .wait n => waitEvents n
  | .check => [rd 0x00028]

end Sys2Proof.Machine
end

