-- ==== Sys2Proof/Tests/Slice0.lean ====
section
/-! SUPPORT. The model's own tests: the form check refuses what is ill formed; for every command a word written out from the
spec's encoding decodes to it; one step per command, with the expected result taken from the spec's examples and test vectors
(the vector's id stands at each test); single host accesses; and a witness for every statement with hypotheses. -/

namespace Sys2Proof.Tests

open Sys2Proof Sys2Proof.Machine

/-! ### Well-formedness (30_encoding.md R71) -/

theorem test_wf_refuses_divrem_same_destination : (Instr.divrem 3 3 1 2).wf = false := by decide
theorem test_wf_accepts_divrem : (Instr.divrem 3 4 1 2).wf = true := by decide

/-! ### Decoding: words written out from the field table of R66 and the formats of R67
(IMM8, RS3, RS2, RS1, RD, OP) -/

theorem test_decode_nop : decode 0b00000000_0000_0000_0000_0000_00000000 = some .nop := by decide
theorem test_decode_ldk : decode 0b11111111_0000_0000_0000_0001_00000001 = some (.ldk 1 0xFF) := by decide
theorem test_decode_mov : decode 0b00000000_0000_0000_0001_0010_00000010 = some (.mov 2 1) := by decide
theorem test_decode_ldraw : decode 0b00000001_0000_0000_0000_0011_00000100 = some (.ldraw 3 true) := by decide
theorem test_decode_straw : decode 0b00000000_0000_0000_0011_0000_00000101 = some (.straw 3) := by decide
theorem test_decode_frombe : decode 0b00000000_0000_0000_0000_0100_00000110 = some (.frombe 4) := by decide
theorem test_decode_tobe : decode 0b00000000_0000_0000_0100_0000_00000111 = some (.tobe 4) := by decide
theorem test_decode_parse : decode 0b00010000_0000_0000_0000_0001_00001000 = some (.parse 1 16) := by decide
theorem test_decode_tostr : decode 0b00010000_0000_0000_0001_0000_00001001 = some (.tostr 1 16) := by decide
theorem test_decode_add : decode 0b00000000_0000_0010_0001_0011_00010000 = some (.add 3 1 2) := by decide
theorem test_decode_sub : decode 0b00000000_0000_0010_0011_0100_00010001 = some (.sub 4 3 2) := by decide
theorem test_decode_neg : decode 0b00000000_0000_0000_0100_0101_00010010 = some (.neg 5 4) := by decide
theorem test_decode_mul : decode 0b00000000_0000_0010_0001_0011_00011000 = some (.mul 3 1 2) := by decide
theorem test_decode_sqr : decode 0b00000000_0000_0000_0001_0010_00011001 = some (.sqr 2 1) := by decide
theorem test_decode_divrem : decode 0b00000000_0100_0010_0001_0011_00100000 = some (.divrem 3 4 1 2) := by decide
theorem test_decode_div : decode 0b00000000_0000_0010_0001_0011_00100001 = some (.div 3 1 2) := by decide
theorem test_decode_rem : decode 0b00000000_0000_0010_0001_0011_00100010 = some (.rem 3 1 2) := by decide
theorem test_decode_pow : decode 0b00000000_0000_0010_0001_0011_00101000 = some (.pow 3 1 2) := by decide
theorem test_decode_modpow : decode 0b00000000_0011_0010_0001_0100_00101001 = some (.modpow 4 1 2 3) := by decide
theorem test_decode_cmp : decode 0b00000000_0000_0010_0001_0000_00110000 = some (.cmp 1 2) := by decide
theorem test_decode_cmpabs : decode 0b00000000_0000_0010_0001_0000_00110001 = some (.cmpabs 1 2) := by decide
theorem test_decode_sgn : decode 0b00000000_0000_0000_0001_0000_00110010 = some (.sgn 1) := by decide
theorem test_decode_iszero : decode 0b00000000_0000_0000_0000_0000_00110011 = some (.iszero 0) := by decide
theorem test_decode_isunit : decode 0b00000000_0000_0000_0001_0000_00110100 = some (.isunit 1) := by decide
theorem test_decode_iseven : decode 0b00000000_0000_0000_0000_0000_00110101 = some (.iseven 0) := by decide
theorem test_decode_isodd : decode 0b00000000_0000_0000_0001_0000_00110110 = some (.isodd 1) := by decide
theorem test_decode_ispos : decode 0b00000000_0000_0000_0000_0000_00110111 = some (.ispos 0) := by decide
theorem test_decode_isneg : decode 0b00000000_0000_0000_0001_0000_00111000 = some (.isneg 1) := by decide
theorem test_decode_enc58 : decode 0b00000000_0000_0000_0000_0000_01000000 = some .enc58 := by decide
theorem test_decode_dec58 : decode 0b00000000_0000_0000_0000_0000_01000001 = some .dec58 := by decide
theorem test_decode_enc58b : decode 0b00000000_0000_0000_0000_0000_01000010 = some .enc58b := by decide
theorem test_decode_dec58b : decode 0b00000000_0000_0000_0000_0000_01000011 = some .dec58b := by decide

/-- An opcode of no row, a must-be-zero bit, LDRAW with IMM8 = 2 (DM-17), DIVREM with RD = RD2 (R71). -/
theorem test_decode_illegal :
    decode 0x00000003 = none ∧ decode 0x00100000 = none ∧ decode 0x02000304 = none ∧ decode 0x00321320 = none := by decide

/-- The last operand numbers come back from the encoder too. -/
theorem test_encode : encode (.modpow 15 14 13 12) = 0x00CDEF29 ∧ encode (.ldk 15 0x80) = 0x80000F01 := by decide

/-! ### Small states -/

/-- A block with 4 limbs and 64 buffer bytes. -/
def small : Params := { maxLimbs := 4, bufBytes := 64, alphabet := defaultAlphabet }

/-- V1, V2 and V3 hold these values, every other register 0. -/
def regs (a b c : Int) : Regs := (((Vector.replicate 16 0).set 1 a).set 2 b).set 3 c

/-- The latched arguments A = (s, l, d, c). -/
def args (s l d c : Nat) : Args :=
  { src := BitVec.ofNat 32 s, len := BitVec.ofNat 32 l, dst := BitVec.ofNat 32 d, cap := BitVec.ofNat 32 c }

/-- A command in flight over these registers and buffer bytes (from offset 0). -/
def flight (v : Regs) (bs : List Byte) (a : Args) : InFlight := { word := 0, args := a, v := v, buf := Memory.write [] 0 bs }

/-- A small block with that command in flight. -/
def loaded (v : Regs) (bs : List Byte) (a : Args) : State :=
  { State.resetOf small with v := v, buf := Memory.write [] 0 bs, args := a, inflight := some (flight v bs a) }

/-- The next state, if the outcome is one. -/
def nextOf (o : Host.Outcome State Fault Refusal) : Option State :=
  match o with
  | .next t => some t
  | .fault _ => none
  | .refused _ => none

/-- The error code, the error information and the value of register r that a command leaves. -/
def regOf (i : Instr) (s : State) (r : VReg) : Option (ErrCode × Word × Int) :=
  (nextOf (exec i s)).map fun t => (t.errCode, t.errInfo, t.v.read r)

/-- The error code and R_VAL that a command leaves. -/
def valOf (i : Instr) (s : State) : Option (ErrCode × Word) := (nextOf (exec i s)).map fun t => (t.errCode, t.rVal)

/-- The error code, the error information, R_LEN and n buffer bytes from offset a on that a command leaves. -/
def bytesOf (i : Instr) (s : State) (a n : Nat) : Option (ErrCode × Word × Word × Option (List Byte)) :=
  (nextOf (exec i s)).map fun t => (t.errCode, t.errInfo, t.rLen, t.buf.read a n)

def noArgs : Args := args 0 0 0 0

/-! ### One step per command -/

/-- DM-1 -/
theorem test_nop : regOf .nop (loaded (regs 5 0 0) [] noArgs) 1 = some (.noError, 0, 5) := by decide
/-- DM-6, DM-5 -/
theorem test_ldk_min : regOf (.ldk 5 0x80) (loaded (regs 0 0 0) [] noArgs) 5 = some (.noError, 0, -128) := by decide
theorem test_ldk_max : regOf (.ldk 5 0x7F) (loaded (regs 0 0 0) [] noArgs) 5 = some (.noError, 0, 127) := by decide
/-- DM-8 -/
theorem test_mov : regOf (.mov 2 1) (loaded (regs (-12345) 0 0) [] noArgs) 2 = some (.noError, 0, -12345) := by decide
/-- DM-10 -/
theorem test_ldraw :
    regOf (.ldraw 1 true) (loaded (regs 0 0 0) [1, 0, 0, 0, 2, 0, 0, 0] (args 0 2 0 0)) 1 = some (.noError, 0, -20000001) := by
  decide
/-- DM-15 -/
theorem test_ldraw_invalid :
    regOf (.ldraw 1 false) (loaded (regs 9 0 0) [3, 0, 0, 0, 0xFF, 0xFF, 0xFF, 0xFF] (args 0 2 0 0)) 1
      = some (.invalidDigit, 1, 9) := by decide
/-- DM-20, with its sign -/
theorem test_straw :
    bytesOf (.straw 1) (loaded (regs (-20000001) 0 0) [] (args 0 0 0 8)) 0 8
      = some (.noError, 0, 2, some [1, 0, 0, 0, 2, 0, 0, 0]) := by decide
theorem test_straw_sign : valOf (.straw 1) (loaded (regs (-20000001) 0 0) [] (args 0 0 0 8)) = some (.noError, 0xFFFFFFFF) := by
  decide
/-- DM-25's order of bytes -/
theorem test_frombe :
    regOf (.frombe 4) (loaded (regs 0 0 0) [1, 2] (args 0 2 0 0)) 4 = some (.noError, 0, 258) := by decide
/-- DM-27 and DM-31 -/
theorem test_tobe :
    bytesOf (.tobe 1) (loaded (regs 255 0 0) [] (args 0 0 0 3)) 0 3 = some (.noError, 0, 3, some [0, 0, 0xFF]) := by decide
theorem test_tobe_overflow : regOf (.tobe 1) (loaded (regs 256 0 0) [] (args 0 0 0 1)) 1 = some (.overflow, 0, 256) := by decide
/-- X8: "1.23*10^3" -/
theorem test_parse_exponential :
    regOf (.parse 1 0) (loaded (regs 0 0 0) [0x31, 0x2E, 0x32, 0x33, 0x2A, 0x31, 0x30, 0x5E, 0x33] (args 0 9 0 0)) 1
      = some (.noError, 0, 1230) := by decide
/-- X2: "-0xff" in radix 16 -/
theorem test_parse_invalid :
    regOf (.parse 1 16) (loaded (regs 9 0 0) [0x2D, 0x30, 0x78, 0x66, 0x66] (args 0 5 0 0)) 1 = some (.invalidDigit, 2, 9) := by
  decide
/-- R89's example: "-FF" -/
theorem test_tostr :
    bytesOf (.tostr 1 16) (loaded (regs (-255) 0 0) [] (args 0 0 8 16)) 8 3
      = some (.noError, 0, 3, some [0x2D, 0x46, 0x46]) := by decide
/-- X11: zero is "0" -/
theorem test_tostr_zero :
    bytesOf (.tostr 1 0) (loaded (regs 0 0 0) [] (args 0 0 8 1)) 8 1 = some (.noError, 0, 1, some [0x30]) := by decide
/-- R92's example -/
theorem test_add : regOf (.add 3 1 2) (loaded (regs 9999999 1 0) [] noArgs) 3 = some (.noError, 0, 10000000) := by decide
/-- The largest value plus 1 needs a fifth limb (R92, R132). -/
theorem test_add_capacity :
    regOf (.add 3 1 2) (loaded (regs 9999999999999999999999999999 1 7) [] noArgs) 3 = some (.capacityExceeded, 0, 7) := by
  decide
/-- R93's example -/
theorem test_sub : regOf (.sub 4 3 2) (loaded (regs 0 1 10000000) [] noArgs) 4 = some (.noError, 0, 9999999) := by decide
/-- R94's example -/
theorem test_neg : regOf (.neg 5 1) (loaded (regs 9999999 0 0) [] noArgs) 5 = some (.noError, 0, -9999999) := by decide
/-- R97's example -/
theorem test_mul :
    regOf (.mul 3 1 2) (loaded (regs 10000000 (-10000000) 0) [] noArgs) 3 = some (.noError, 0, -100000000000000) := by decide
/-- R98's example -/
theorem test_sqr : regOf (.sqr 2 1) (loaded (regs (-9999999) 0 0) [] noArgs) 2 = some (.noError, 0, 99999980000001) := by decide
/-- R100's example: quotient and remainder -/
theorem test_divrem_quotient : regOf (.divrem 3 4 1 2) (loaded (regs (-7) 2 0) [] noArgs) 3 = some (.noError, 0, -3) := by decide
theorem test_divrem_remainder : regOf (.divrem 3 4 1 2) (loaded (regs (-7) 2 0) [] noArgs) 4 = some (.noError, 0, -1) := by decide
/-- R101's example and X4 -/
theorem test_div : regOf (.div 3 1 2) (loaded (regs 7 (-2) 0) [] noArgs) 3 = some (.noError, 0, -3) := by decide
theorem test_div_zero : regOf (.div 3 1 2) (loaded (regs 7 0 9) [] noArgs) 3 = some (.divideByZero, 0, 9) := by decide
/-- R102's example -/
theorem test_rem : regOf (.rem 3 1 2) (loaded (regs (-7) (-2) 0) [] noArgs) 3 = some (.noError, 0, -1) := by decide
/-- 2^10, and R105: (−1)^(−3) = −1 -/
theorem test_pow : regOf (.pow 3 1 2) (loaded (regs 2 10 0) [] noArgs) 3 = some (.noError, 0, 1024) := by decide
theorem test_pow_negative : regOf (.pow 3 1 2) (loaded (regs (-1) (-3) 0) [] noArgs) 3 = some (.noError, 0, -1) := by decide
/-- R106's example -/
theorem test_modpow : regOf (.modpow 4 1 2 3) (loaded (regs 4 13 497) [] noArgs) 4 = some (.noError, 0, 445) := by decide
theorem test_modpow_zero_modulus :
    regOf (.modpow 1 1 2 3) (loaded (regs 4 0 0) [] noArgs) 1 = some (.divideByZero, 0, 4) := by decide
/-- R108's, R109's and R110's examples -/
theorem test_cmp : valOf (.cmp 1 2) (loaded (regs (-5) 3 0) [] noArgs) = some (.noError, 0xFFFFFFFF) := by decide
theorem test_cmpabs : valOf (.cmpabs 1 2) (loaded (regs (-5) 3 0) [] noArgs) = some (.noError, 1) := by decide
theorem test_sgn : valOf (.sgn 1) (loaded (regs (-5) 0 0) [] noArgs) = some (.noError, 0xFFFFFFFF) := by decide
/-- R111's to R116's examples -/
theorem test_iszero : valOf (.iszero 0) (loaded (regs 1 0 0) [] noArgs) = some (.noError, 1) := by decide
theorem test_isunit : valOf (.isunit 1) (loaded (regs (-1) 0 0) [] noArgs) = some (.noError, 1) := by decide
theorem test_iseven : valOf (.iseven 1) (loaded (regs (-4) 0 0) [] noArgs) = some (.noError, 1) := by decide
theorem test_isodd : valOf (.isodd 1) (loaded (regs (-7) 0 0) [] noArgs) = some (.noError, 1) := by decide
theorem test_ispos : valOf (.ispos 0) (loaded (regs 1 0 0) [] noArgs) = some (.noError, 0) := by decide
theorem test_isneg : valOf (.isneg 1) (loaded (regs (-7) 0 0) [] noArgs) = some (.noError, 1) := by decide
/-- R122's example: FF is "5Q" -/
theorem test_enc58b :
    bytesOf .enc58b (loaded (regs 0 0 0) [0xFF] (args 0 1 8 2)) 8 2 = some (.noError, 0, 2, some [0x35, 0x51]) := by decide
/-- R123: "zz" is Overflow(0); "5Q" is FF -/
theorem test_dec58b :
    bytesOf .dec58b (loaded (regs 0 0 0) [0x35, 0x51] (args 0 2 8 1)) 8 1 = some (.noError, 0, 1, some [0xFF]) := by decide
theorem test_dec58b_overflow :
    regOf .dec58b (loaded (regs 0 0 0) [0x7A, 0x7A] (args 0 2 8 1)) 1 = some (.overflow, 0, 0) := by decide
/-- X6: FF×4 is "7YXq9G" -/
theorem test_enc58 :
    bytesOf .enc58 (loaded (regs 0 0 0) [0xFF, 0xFF, 0xFF, 0xFF] (args 0 4 8 16)) 8 6
      = some (.noError, 0, 6, some [0x37, 0x59, 0x58, 0x71, 0x39, 0x47]) := by decide
/-- R125's example: "11" is 00; and a length of 4 -/
theorem test_dec58 :
    bytesOf .dec58 (loaded (regs 0 0 0) [0x31, 0x31] (args 0 2 8 8)) 8 1 = some (.noError, 0, 1, some [0]) := by decide
theorem test_dec58_length :
    regOf .dec58 (loaded (regs 0 0 0) [0x31, 0x31, 0x31, 0x31] (args 0 4 8 8)) 1 = some (.invalidBlockLength, 4, 0) := by decide

/-! ### One host access (95_test_vectors.md section 3) -/

/-- An idle small block with these events to come. -/
def idle (es : List Event) : State := { State.resetOf small with inputs := es }

/-- A small block with a NOP in flight and these events to come. -/
def busyWith (es : List Event) : State := { loaded (regs 0 0 0) [] noArgs with inputs := es }

/-- HI-1: ID, CFG_NV, CFG_MAXL of the default instance. -/
theorem test_read_id :
    (nextOf (step { State.reset with inputs := [.access 32 0x00000 .read] })).map (·.rdata) = some 0x42353801 := by decide
theorem test_read_cfg :
    (nextOf (step { State.reset with inputs := [.access 32 0x00034 .read] })).map (·.rdata) = some 128 := by decide
/-- HI-2: an unmapped offset. -/
theorem test_read_unmapped : (nextOf (step (idle [.access 32 0x0004C .read]))).map (·.rdata) = some 0 := by decide
/-- HI-4: the issue of LDK v1, 1 sets BUSY; its completion DONE. -/
theorem test_issue :
    (nextOf (step (idle [.access 32 0x0000C (.write 0x01000101)]))).map (fun t => (t.statusWord, t.cmd, t.v.read 1))
      = some (1, 0x01000101, 0) := by decide
theorem test_completion :
    (nextOf (step (State.reset.withFetchWord 32 0x01000101))).map (fun t => (t.statusWord, t.errCode, t.v.read 1))
      = some (2, .noError, 1) := by decide
/-- HI-7: a CMD write while a command is in flight sets OVR. -/
theorem test_overrun :
    (nextOf (step (busyWith [.access 32 0x0000C (.write 0x02000101)]))).map (fun t => (t.statusWord, t.cmd)) = some (9, 0) := by
  decide
/-- HI-9: an illegal word completes with IllegalCommand. -/
theorem test_illegal_word :
    (nextOf (step (State.reset.withFetchWord 32 0x00000003))).map (fun t => (t.statusWord, t.errCode, t.errInfo))
      = some (6, .illegalCommand, 0) := by decide
/-- HI-12: VSEL keeps four bits. -/
theorem test_vsel : (nextOf (step (idle [.access 32 0x00040 (.write 0x11)]))).map (·.vsel) = some 1 := by decide
/-- HI-13: the buffer window is little-endian. -/
theorem test_buffer_write :
    (nextOf (step (idle [.access 32 0x10000 (.write 0x00336531)]))).map (fun t => t.buf.read 0 4)
      = some (some [0x31, 0x65, 0x33, 0x00]) := by decide
/-- HI-16: a soft reset while a command is in flight. -/
theorem test_soft_reset :
    (nextOf (step (busyWith [.access 32 0x00004 (.write 3)]))).map (fun t => (t.statusWord, t.ctrlWord, t.inflight))
      = some (0, 1, none) := by decide
/-- HI-18: the issue of FROMBE over an unwritten byte. -/
theorem test_uninitialised :
    step { idle [.access 32 0x0000C (.write 0x00000006)] with args := args 0 1 0 0 } = .fault .uninitialisedBuffer := rfl
/-- HI-19: a 16-bit write. -/
theorem test_narrow_write :
    step (idle [.access 16 0x00004 (.write 0)]) = .fault (.hostProtocolViolation .notAlignedWord) := rfl

/-! ### The host statements of R75 and R76 -/

/-- ONE v1 with one poll while busy: four steps, the last of which reads STATUS = DONE. -/
theorem test_one_line :
    (nextOf (core.run 4 (idle ((Pseudo.one 1).expand 1)))).map (fun t => (t.rdata, t.v.read 1, t.cmd, t.inputs))
      = some (2, 1, 0x01000101, []) := by decide
theorem test_args :
    (nextOf (core.run 4 (idle ((Pseudo.args 1 2 3 4).expand 0)))).map (·.args) = some (args 1 2 3 4) := by decide

/-! ### Witnesses: states and operands that meet the hypotheses of each statement, clause by clause -/

theorem exists_next {β : Type} {o : Host.Outcome State Fault Refusal} {f : State → β} {x : β}
    (h : (nextOf o).map f = some x) : ∃ t, o = .next t ∧ f t = x := by
  cases o with
  | next t => exact ⟨t, rfl, by simpa [nextOf] using h⟩
  | fault f => cases h
  | refused r => cases h

theorem source_of_read {c : InFlight} {bs : List Byte} (h : c.buf.read c.args.src.toNat bs.length = some bs) : c.Source bs :=
  (source_iff_read c bs).mpr h

theorem witness_DecodeOfEncodeIsIdentity : (Instr.divrem 15 0 15 15).wf = true := by decide

theorem witness_EncodeOfDecodeIsIdentity : ∃ (w : Word) (i : Instr), decode w = some i := ⟨0x00FEDC20, _, rfl⟩

theorem witness_IllegalWordsCompleteWithIllegalCommand :
    ∃ (w : Word) (s : State) (c : InFlight), decode w = none ∧ s.inflight = some c ∧ c.word = w :=
  ⟨0x00321320, { loaded (regs 0 0 0) [] noArgs with
    inflight := some { flight (regs 0 0 0) [] noArgs with word := 0x00321320 } }, _, by decide, rfl, rfl⟩

/-- A NOP and an illegal word in flight, and the idle block with a turn, with nothing, and with a release to come. -/
theorem witness_StepRunsInFlightCommand :
    (∀ es ∈ [[Event.sequencer], []], ∃ (s : State) (c : InFlight), s.inflight = some c ∧ decode c.word = some .nop ∧
      s.inputs = es) ∧
    (∀ es ∈ [[Event.sequencer], []], ∃ (s : State) (c : InFlight), s.inflight = some c ∧ decode c.word = none ∧
      s.inputs = es) ∧
    ∀ es ∈ [[Event.sequencer], [], [.hardReset false]], ∃ s : State, s.inflight = none ∧ s.resetLine = false ∧
      s.inputs = es :=
  ⟨fun es _ => ⟨busyWith es, _, rfl, by decide, rfl⟩,
    fun es _ => ⟨{ busyWith es with inflight := some { flight (regs 0 0 0) [] noArgs with word := 0x00000003 } }, _, rfl,
      by decide, rfl⟩,
    fun es _ => ⟨idle es, rfl, rfl, rfl⟩⟩

theorem witness_PlacedWordRunsNext : ∃ (nbits n : Nat) (i : Instr), decodeTableWord nbits n = some i :=
  ⟨32, 0x00021310, .add 3 1 2, by decide⟩

/-- First part: FROMBE over one written byte; an ADD with an unwritten buffer; second part: a command in flight. -/
theorem witness_CmdWriteIssuesOrSetsOverrun :
    (∃ (s : State) (w : Word) (rest : List Event), s.inputs = .access 32 0x0000C (.write w) :: rest ∧ s.resetLine = false ∧
      s.inflight = none ∧ decode w = some (.frombe 0) ∧ s.args.src.toNat = 63 ∧ s.args.len.toNat = 1 ∧
      s.params.bufBytes = 64 ∧ s.buf.byteAt 63 ≠ none) ∧
    (∃ (s : State) (w : Word) (rest : List Event), s.inputs = .access 32 0x0000C (.write w) :: rest ∧ s.resetLine = false ∧
      s.inflight = none ∧ decode w = some (.add 3 1 2) ∧ s.buf = []) ∧
    ∃ (s : State) (w : Word) (rest : List Event) (c : InFlight), s.inputs = .access 32 0x0000C (.write w) :: rest ∧
      s.resetLine = false ∧ s.inflight = some c :=
  ⟨⟨{ idle [.access 32 0x0000C (.write 0x00000006)] with args := args 63 1 0 0, buf := [(63, 7)] }, 0x00000006, [], rfl, rfl,
      rfl, by decide, by decide, by decide, rfl, by decide⟩,
    ⟨idle [.access 32 0x0000C (.write 0x00021310)], 0x00021310, [], rfl, rfl, rfl, by decide, rfl⟩,
    ⟨busyWith [.access 32 0x0000C (.write 0)], 0, [], _, rfl, rfl, rfl⟩⟩

/-- A check before the read raises over an unwritten source byte: the first destination out of bounds, the illegal radixes
beside 0 and 36, a block of 9 bytes, and the three illegal last lengths. -/
theorem witness_CmdWriteIssuesOrSetsOverrun_earlierCheck :
    ∀ x ∈ [((0x00000040 : Word), Instr.enc58, 1, 65), (0x01000008, .parse 0 1, 1, 0), (0x25000008, .parse 0 37, 1, 0),
        (0x00000042, .enc58b, 9, 0), (0x00000041, .dec58, 1, 0), (0x00000041, .dec58, 4, 0), (0x00000041, .dec58, 8, 0)],
      ∃ (s : State) (rest : List Event) (a : Nat), s.inputs = .access 32 0x0000C (.write x.1) :: rest ∧
        s.resetLine = false ∧ s.inflight = none ∧ decode x.1 = some x.2.1 ∧
        x.2.1.sourceSpan s.args = some x.2.2.1 ∧ s.args.src.toNat + x.2.2.1 ≤ s.params.bufBytes ∧
        (64 < s.args.dst.toNat + s.args.cap.toNat ∨ x.2.1 = .parse 0 1 ∨ x.2.1 = .parse 0 37 ∨
          (x.2.1 = .enc58b ∧ 8 < x.2.2.1) ∨
          (x.2.1 = .dec58 ∧ (x.2.2.1 % 11 = 1 ∨ x.2.2.1 % 11 = 4 ∨ x.2.2.1 % 11 = 8))) ∧
        s.args.src.toNat ≤ a ∧ a < s.args.src.toNat + x.2.2.1 ∧ s.buf.byteAt a = none := by
  intro x hx
  refine ⟨{ idle [.access 32 0x0000C (.write x.1)] with args := args 0 x.2.2.1 0 x.2.2.2 }, [], 0, rfl, rfl, rfl, ?_⟩
  revert x
  decide

/-- One witness for each command with a check before its read: the largest legal radix, block and partial block. -/
theorem witness_UnwrittenSourceByteFaults :
    ∀ x ∈ [((0x24000008 : Word), Instr.parse 0 36, 1), (0x00000042, .enc58b, 8), (0x00000041, .dec58, 10),
        (0x00000004, .ldraw 0 false, 2), (0x00000006, .frombe 0, 64), (0x00000040, .enc58, 9), (0x00000043, .dec58b, 1)],
      ∃ (s : State) (rest : List Event) (span : Nat), s.inputs = .access 32 0x0000C (.write x.1) :: rest ∧
        s.resetLine = false ∧ s.inflight = none ∧ decode x.1 = some x.2.1 ∧ x.2.1.sourceSpan s.args = some span ∧
        s.args.src.toNat + span ≤ s.params.bufBytes ∧ s.args.dst.toNat + s.args.cap.toNat ≤ s.params.bufBytes ∧
        0 < span ∧ s.buf.byteAt s.args.src.toNat = none ∧ (x.2.1 = .enc58b → span ≤ 8) ∧
        (x.2.1 = .dec58 → span % 11 ≠ 1 ∧ span % 11 ≠ 4 ∧ span % 11 ≠ 8) := by
  intro x hx
  simp only [List.mem_cons, List.not_mem_nil, or_false] at hx
  rcases hx with rfl | rfl | rfl | rfl | rfl | rfl | rfl
  · exact ⟨{ idle [.access 32 0x0000C (.write _)] with args := args 63 1 0 64 }, [], 1, rfl, by decide⟩
  · exact ⟨{ idle [.access 32 0x0000C (.write _)] with args := args 56 8 0 64 }, [], 8, rfl, by decide⟩
  · exact ⟨{ idle [.access 32 0x0000C (.write _)] with args := args 54 10 0 64 }, [], 10, rfl, by decide⟩
  · exact ⟨{ idle [.access 32 0x0000C (.write _)] with args := args 56 2 0 64 }, [], 8, rfl, by decide⟩
  · exact ⟨{ idle [.access 32 0x0000C (.write _)] with args := args 0 64 0 64 }, [], 64, rfl, by decide⟩
  · exact ⟨{ idle [.access 32 0x0000C (.write _)] with args := args 55 9 0 64 }, [], 9, rfl, by decide⟩
  · exact ⟨{ idle [.access 32 0x0000C (.write _)] with args := args 63 1 0 64 }, [], 1, rfl, by decide⟩

/-- One write for each clause, all while a command is in flight. -/
theorem witness_ArgumentWritesLeaveTheRunningCommand :
    ∀ o ∈ [(0x00010 : BitVec 17), 0x00014, 0x00018, 0x0001C, 0x00040, 0x00004],
      ∃ (s : State) (w : Word) (rest : List Event), s.resetLine = false ∧ s.inflight ≠ none ∧ w.getLsbD 1 = false ∧
        s.inputs = .access 32 o (.write w) :: rest :=
  fun o _ => ⟨busyWith [.access 32 o (.write 0xFFFFFFFD)], 0xFFFFFFFD, [], rfl, nofun, by decide, rfl⟩

/-- The same command in flight, the live registers not the same. -/
theorem witness_CompletionDependsOnTheSnapshotAlone :
    ∃ s s' t : State, s'.inflight = s.inflight ∧ s.inflight ≠ none ∧ s'.params = s.params ∧ s'.args ≠ s.args ∧
      completeInFlight s = .next t :=
  ⟨loaded (regs 1 2 3) [] noArgs, { loaded (regs 1 2 3) [] noArgs with args := args 1 2 3 4 }, _, rfl, nofun, rfl, by decide, rfl⟩

theorem witness_invariant (es : List Event) : (idle es).Inv where
  params := by show small.wf = true; decide
  fits := by show ∀ r : VReg, fits small (Regs.read (Vector.replicate 16 0) r) = true; decide
  bufWf := rfl
  bufBelow := rfl
  errInfo _ := rfl
  inflight _ h := by cases h
  completes := ⟨_, rfl⟩
  inReset h := by cases h

/-- A step from a state with the invariant: an issue. -/
theorem witness_StepKeepsTheInvariant : ∃ s t : State, s.Inv ∧ step s = .next t ∧ t.inflight ≠ none := by
  obtain ⟨t, h1, h2⟩ := exists_next test_issue
  refine ⟨idle [.access 32 0x0000C (.write 0x01000101)], t, witness_invariant _, h1, ?_⟩
  intro h
  have : t.statusWord = 1 := congrArg Prod.fst h2
  have hb : t.busy = false := by rw [State.busy, h]; rfl
  have : t.statusWord.getLsbD 0 = true := by rw [this]; decide
  revert this
  unfold State.statusWord
  rw [hb]
  generalize t.done = d, t.err = e, t.ovr = o, t.irq = i
  revert d e o i
  decide

theorem witness_ResetMeetsTheInvariant : ∃ p : Params, p.wf = true ∧ p ≠ Params.default := ⟨small, by decide, by decide⟩

theorem witness_NoStepChangesTheParameters : ∃ s t : State, step s = .next t ∧ t.cmd = 0x01000101 := by
  obtain ⟨t, h1, h2⟩ := exists_next test_issue
  exact ⟨_, t, h1, congrArg (fun x => x.2.1) h2⟩

/-- Two reads still to come, one of a register that is read exactly and one of a free word. -/
theorem witness_InFlightCommandCompletesAfterReads :
    ∃ s u : State, s.resetLine = false ∧ s.inflight ≠ none ∧ completeInFlight s = .next u ∧
      (∀ e ∈ s.inputs, ∃ o : BitVec 17, o.toNat % 4 = 0 ∧ e = .access 32 o .read) := by
  refine ⟨busyWith [.access 32 0x00008 .read, .access 32 0x1003C .read], _, rfl, nofun, rfl, ?_⟩
  intro e he
  simp only [busyWith, List.mem_cons, List.not_mem_nil, or_false] at he
  rcases he with rfl | rfl
  · exact ⟨0x00008, by decide, rfl⟩
  · exact ⟨0x1003C, by decide, rfl⟩

theorem witness_ResetsLeaveTheTabledState :
    (∃ s : State, s.inputs = [.hardReset true] ∧ s.resetLine = false ∧ s.inflight ≠ none) ∧
    (∃ s : State, s.inputs = [.hardReset false] ∧ s.resetLine = true) ∧
    (∃ (s : State) (w : Word), s.inputs = [.access 32 0x00004 (.write w)] ∧ s.resetLine = false ∧ w.getLsbD 1 = true) ∧
    ∃ t : State, t.errCode = .noError ∧ t.inflight = none ∧ t.done = false ∧ t.ovr = false ∧ t.v = Vector.replicate 16 0 :=
  ⟨⟨busyWith [.hardReset true], rfl, rfl, nofun⟩, ⟨{ idle [.hardReset false] with resetLine := true }, rfl, rfl⟩,
    ⟨idle [.access 32 0x00004 (.write 2)], 2, rfl, rfl, by decide⟩, ⟨idle [], rfl, rfl, rfl, rfl, rfl⟩⟩

/-- The last legal and the first illegal buffer offset bound the third clause. -/
theorem witness_ProtocolViolationsFault :
    (∃ s : State, s.inputs = [.access 32 0x00000 .read] ∧ s.resetLine = true) ∧
    (∃ s : State, s.inputs = [.access 16 0x00004 .read] ∧ s.resetLine = false) ∧
    (∃ s : State, s.inputs = [.access 32 0x00006 .read] ∧ s.resetLine = false) ∧
    ∃ (s : State) (w : Word), s.inputs = [.access 32 0x1003C (.write w)] ∧ s.resetLine = false ∧ s.inflight ≠ none ∧
      (0x1003C : BitVec 17).toNat < 0x10000 + s.params.bufBytes ∧ 0x10000 + s.params.bufBytes ≤ (0x10040 : BitVec 17).toNat :=
  ⟨⟨{ idle [.access 32 0x00000 .read] with resetLine := true }, rfl, rfl⟩, ⟨idle [.access 16 0x00004 .read], rfl, rfl⟩,
    ⟨idle [.access 32 0x00006 .read], rfl, rfl⟩, ⟨busyWith [.access 32 0x1003C (.write 0)], 0, rfl, rfl, nofun, by decide⟩⟩

/-- Result registers, the first and the last word of each window, and an exact register. -/
theorem witness_BusyReadsOfResultsAreFree :
    ∀ o ∈ [(0x00020 : BitVec 17), 0x00048, 0x01000, 0x0100C, 0x10000, 0x1003C, 0x00000, 0x00040],
      ∃ (s : State) (rest : List Event), s.inputs = .access 32 o .read :: rest ∧ s.resetLine = false ∧ o.toNat % 4 = 0 ∧
        s.inflight ≠ none ∧
        (o.toNat ∈ [0x20, 0x24, 0x28, 0x2C, 0x44, 0x48] ∨
          (0x1000 ≤ o.toNat ∧ o.toNat < 0x1000 + 4 * s.params.maxLimbs ∧ o.toNat < 0x10000) ∨
          (0x10000 ≤ o.toNat ∧ o.toNat < 0x10000 + s.params.bufBytes) ∨
          o.toNat ∈ [0x00, 0x04, 0x08, 0x0C, 0x10, 0x14, 0x18, 0x1C, 0x30, 0x34, 0x38, 0x40]) := by
  intro o ho
  refine ⟨busyWith [.access 32 o .read], [], rfl, rfl, ?_, nofun, ?_⟩ <;> revert ho <;>
    simp only [List.mem_cons, List.not_mem_nil, or_false] <;>
    rintro (rfl | rfl | rfl | rfl | rfl | rfl | rfl | rfl) <;> decide

theorem witness_IdleReadsAreExact :
    ∃ (s : State) (rest : List Event), s.inputs = .access 32 0x00000 .read :: rest ∧ s.resetLine = false ∧ s.inflight = none :=
  ⟨idle [.access 32 0x00000 .read], [], rfl, rfl, rfl⟩

theorem witness_HostReadsHaveNoSideEffect :
    ∃ (s t : State) (o : BitVec 17) (rest : List Event), s.inputs = .access 32 o .read :: rest ∧ step s = .next t := by
  obtain ⟨t, h, -⟩ := exists_next test_read_unmapped
  exact ⟨_, t, 0x0004C, [], rfl, h⟩

/-- Where the clauses meet: the first offsets above the registers, the value window and the buffer window are unmapped; ID,
VLEN and the first VLIMB are read-only. -/
theorem witness_UnmappedAndReadOnlyAreInert :
    ∀ o ∈ [(0x0003C : BitVec 17), 0x0004C, 0x00FFC, 0x01010, 0x0FFFC, 0x10040, 0x1FFFC, 0x00000, 0x00048, 0x01000],
      ∃ (s s' : State) (w : Word), s.inputs = [.access 32 o .read] ∧ s'.inputs = [.access 32 o (.write w)] ∧
        s.resetLine = false ∧ s'.resetLine = false ∧ o.toNat % 4 = 0 ∧
        ((0x3C = o.toNat ∨ (0x4C ≤ o.toNat ∧ o.toNat < 0x1000)) ∨
          (0x1000 + 4 * s.params.maxLimbs ≤ o.toNat ∧ o.toNat < 0x10000) ∨ 0x10000 + s.params.bufBytes ≤ o.toNat ∨
          o.toNat ∈ [0x00, 0x20, 0x24, 0x28, 0x2C, 0x30, 0x34, 0x38, 0x44, 0x48] ∨ (0x1000 ≤ o.toNat ∧ o.toNat < 0x10000)) := by
  intro o ho
  refine ⟨idle [.access 32 o .read], idle [.access 32 o (.write 0)], 0, rfl, rfl, rfl, rfl, ?_, ?_⟩ <;> revert ho <;>
    simp only [List.mem_cons, List.not_mem_nil, or_false] <;>
    rintro (rfl | rfl | rfl | rfl | rfl | rfl | rfl | rfl | rfl | rfl) <;> decide

theorem witness_StatusShowsAndClearsItsBits :
    ∃ (s : State) (w : Word), s.inputs = [.access 32 0x00008 (.write w)] ∧ s.resetLine = false ∧ s.done = true ∧ s.ovr = true :=
  ⟨{ idle [.access 32 0x00008 (.write 2)] with done := true, ovr := true }, 2, rfl, rfl, rfl, rfl⟩

/-- The last word of the buffer window: all four bytes written, one of them not, and a write. -/
theorem witness_BufferWindowIsLittleEndian :
    ∃ (s s' s'' : State) (w : Word), s.resetLine = false ∧ s.inflight = none ∧ (0x1003C : BitVec 17).toNat = 0x10000 + 60 ∧
      60 < s.params.bufBytes ∧ s.inputs = [.access 32 0x1003C .read] ∧ s.buf.byteAt 60 = some 1 ∧ s.buf.byteAt 61 = some 2 ∧
      s.buf.byteAt 62 = some 3 ∧ s.buf.byteAt 63 = some 4 ∧ s'.inputs = [.access 32 0x1003C .read] ∧ s'.resetLine = false ∧
      s'.inflight = none ∧ s'.buf.byteAt 63 = none ∧ s''.inputs = [.access 32 0x1003C (.write w)] ∧ s''.resetLine = false ∧
      s''.inflight = none :=
  ⟨{ idle [.access 32 0x1003C .read] with buf := Memory.write [] 60 [1, 2, 3, 4] },
    { idle [.access 32 0x1003C .read] with buf := Memory.write [] 60 [1, 2, 3] },
    idle [.access 32 0x1003C (.write 0x04030201)], 0x04030201, by decide⟩

/-- VSIGN, VLEN, and the last limb of the window. -/
theorem witness_ValueWindowShowsTheSelectedRegister :
    ∀ o ∈ [(0x00044 : BitVec 17), 0x00048, 0x0100C],
      ∃ s : State, s.resetLine = false ∧ s.inflight = none ∧ s.inputs = [.access 32 o .read] ∧ s.v.read s.vsel = -20000001 ∧
        (o.toNat = 0x44 ∨ o.toNat = 0x48 ∨ (3 < s.params.maxLimbs ∧ o.toNat = 0x1000 + 4 * 3)) := by
  intro o ho
  refine ⟨{ idle [.access 32 o .read] with v := regs (-20000001) 0 0, vsel := 1 }, rfl, rfl, rfl, ?_⟩
  simp only [List.mem_cons, List.not_mem_nil, or_false] at ho
  rcases ho with rfl | rfl | rfl <;> decide

theorem witness_NoHostAccessWritesAValueRegister :
    ∃ (s t : State) (w : Word), s.inputs = [.access 32 0x0000C (.write w)] ∧ step s = .next t := by
  obtain ⟨t, h, -⟩ := exists_next test_issue
  exact ⟨_, t, 0x01000101, rfl, h⟩

theorem witness_InterruptFollowsDoneAndEnable :
    (∃ s t : State, s.inflight ≠ none ∧ s.ie = true ∧ completeInFlight s = .next t) ∧
    ∀ x ∈ [((0x00008 : BitVec 17), (2 : Word)), (0x0000C, 0), (0x00004, 0), (0x00004, 3), (0x00004, 1)],
      ∃ s t : State, s.resetLine = false ∧ s.inflight = none ∧ s.inputs = [.access 32 x.1 (.write x.2)] ∧ step s = .next t := by
  refine ⟨⟨{ loaded (regs 0 0 0) [] noArgs with ie := true }, _, nofun, rfl, rfl⟩, fun x hx => ?_⟩
  refine ⟨idle [.access 32 x.1 (.write x.2)], ?_⟩
  simp only [List.mem_cons, List.not_mem_nil, or_false] at hx
  rcases hx with rfl | rfl | rfl | rfl | rfl <;> exact ⟨_, rfl, rfl, rfl, rfl⟩

/-- A TOBE of a negative value in flight. -/
def failing : State :=
  { loaded (regs (-1) 0 0) [] (args 0 0 0 4) with
    inflight := some { flight (regs (-1) 0 0) [] (args 0 0 0 4) with word := 0x00001007 } }

theorem witness_ErrorCompletionChangesOnlyStatus :
    ∃ s t : State, s.inflight ≠ none ∧ completeInFlight s = .next t ∧ t.errCode ≠ .noError := by
  have h : (nextOf (completeInFlight failing)).map (·.errCode) = some .negativeOperand := by decide
  obtain ⟨t, h1, h2⟩ := exists_next h
  exact ⟨failing, t, nofun, h1, by rw [h2]; decide⟩

theorem witness_CompletionSetsStatus : ∃ s t : State, s.inflight ≠ none ∧ completeInFlight s = .next t :=
  ⟨busyWith [], _, nofun, rfl⟩

theorem witness_OnlyTabledCommandsWriteResults :
    (∃ s t : State, exec (.cmp 1 2) s = .next t ∧ t.errCode = .noError) ∧
    (∃ s t : State, exec (.straw 1) s = .next t ∧ t.errCode = .noError) ∧
    (∃ s t : State, exec (.tobe 1) s = .next t ∧ t.errCode ≠ .noError) ∧ ∃ s t : State, exec (.isodd 1) s = .next t := by
  obtain ⟨t1, h1, e1⟩ := exists_next test_cmp
  obtain ⟨t2, h2, e2⟩ := exists_next test_straw_sign
  obtain ⟨t3, h3, e3⟩ := exists_next test_tobe_overflow
  obtain ⟨t4, h4, -⟩ := exists_next test_isodd
  refine ⟨⟨_, t1, h1, congrArg Prod.fst e1⟩, ⟨_, t2, h2, congrArg Prod.fst e2⟩, ⟨_, t3, h3, ?_⟩, ⟨_, t4, h4⟩⟩
  rw [show t3.errCode = .overflow from congrArg Prod.fst e3]
  decide

theorem witness_CommandsKeepOtherRegisters : ∃ (s t : State) (r : VReg), exec (.divrem 3 4 1 2) s = .next t ∧
    r ∉ (Instr.divrem 3 4 1 2).dests := by
  obtain ⟨t, h, -⟩ := exists_next test_divrem_quotient
  exact ⟨_, t, 5, h, by decide⟩

/-- A command that does not store, one that fails, STRAW, and another that stores. -/
theorem witness_CommandsKeepOtherBytes :
    (∃ (s t : State) (c : InFlight), s.inflight = some c ∧ exec (.add 3 1 2) s = .next t) ∧
    (∃ (s t : State) (c : InFlight), s.inflight = some c ∧ exec (.tobe 1) s = .next t ∧ t.errCode ≠ .noError) ∧
    (∃ (s t : State) (c : InFlight), s.inflight = some c ∧ exec (.straw 1) s = .next t ∧ t.errCode = .noError) ∧
    ∃ (s t : State) (c : InFlight), s.inflight = some c ∧ exec (.tostr 1 16) s = .next t ∧ t.errCode = .noError := by
  obtain ⟨t1, h1, -⟩ := exists_next test_add
  obtain ⟨t2, h2, e2⟩ := exists_next test_tobe_overflow
  obtain ⟨t3, h3, e3⟩ := exists_next test_straw
  obtain ⟨t4, h4, e4⟩ := exists_next test_tostr
  refine ⟨⟨_, t1, _, rfl, h1⟩, ⟨_, t2, _, rfl, h2, ?_⟩, ⟨_, t3, _, rfl, h3, congrArg Prod.fst e3⟩,
    ⟨_, t4, _, rfl, h4, congrArg Prod.fst e4⟩⟩
  rw [show t2.errCode = .overflow from congrArg Prod.fst e2]
  decide

/-- The last range in bounds and the first out of bounds, for the source and for the destination. -/
theorem witness_BufferRangesAreChecked :
    (∃ (s : State) (c : InFlight), s.inflight = some c ∧ s.params.bufBytes < c.args.src.toNat + 0 ∧
      (Instr.enc58).sourceSpan c.args = some 0) ∧
    (∃ (s : State) (c : InFlight), s.inflight = some c ∧ c.args.src.toNat + 0 ≤ s.params.bufBytes ∧
      (Instr.enc58).sourceSpan c.args = some 0 ∧ s.params.bufBytes < c.args.dst.toNat + c.args.cap.toNat) ∧
    ∃ (s t : State) (c : InFlight), s.inflight = some c ∧ c.args.src.toNat + 0 ≤ s.params.bufBytes ∧
      (Instr.enc58).sourceSpan c.args = some 0 ∧ c.args.dst.toNat + c.args.cap.toNat ≤ s.params.bufBytes ∧
      exec .enc58 s = .next t := by
  have h : (nextOf (exec .enc58 (loaded (regs 0 0 0) [] (args 64 0 64 0)))).map (·.errCode) = some .noError := by decide
  obtain ⟨t, h1, -⟩ := exists_next h
  exact ⟨⟨loaded (regs 0 0 0) [] (args 65 0 0 0), _, rfl, by decide, by decide⟩,
    ⟨loaded (regs 0 0 0) [] (args 64 0 64 1), _, rfl, by decide, by decide, by decide⟩,
    ⟨_, t, _, rfl, by decide, by decide, by decide, h1⟩⟩

theorem witness_CommandsRaiseOnlyTabledErrors :
    ∃ (i : Instr) (s t : State), i.wf = true ∧ exec i s = .next t ∧ t.errCode = .divideByZero := by
  obtain ⟨t, h, e⟩ := exists_next test_div_zero
  exact ⟨.div 3 1 2, _, t, by decide, h, congrArg Prod.fst e⟩

/-- One command in flight meets the hypotheses of the statements that ask for no more. -/
theorem witness_MoveResults : ∃ (s : State) (c : InFlight), s.inflight = some c := ⟨loaded (regs 0 0 0) [] noArgs, _, rfl⟩

/-- All words legal, and a first word too large at index 1. -/
theorem witness_LdrawResult :
    (∃ (s : State) (c : InFlight) (bs : List Byte), s.inflight = some c ∧ c.Source bs ∧ bs.length = 4 * c.args.len.toNat ∧
      c.args.src.toNat + 4 * c.args.len.toNat ≤ s.params.bufBytes ∧
      ∀ i, i < c.args.len.toNat → limbWordAt bs i < 10 ^ 7) ∧
    ∃ (s : State) (c : InFlight) (bs : List Byte), s.inflight = some c ∧ c.Source bs ∧ bs.length = 4 * c.args.len.toNat ∧
      c.args.src.toNat + 4 * c.args.len.toNat ≤ s.params.bufBytes ∧ 1 < c.args.len.toNat ∧ 10 ^ 7 ≤ limbWordAt bs 1 ∧
      ∀ j, j < 1 → limbWordAt bs j < 10 ^ 7 :=
  ⟨⟨loaded (regs 0 0 0) [0x7F, 0x96, 0x98, 0] (args 0 1 0 0), _, [0x7F, 0x96, 0x98, 0], rfl, source_of_read (by decide),
      by decide, by decide, by decide⟩,
    ⟨loaded (regs 0 0 0) [1, 0, 0, 0, 0x80, 0x96, 0x98, 0] (args 0 2 0 0), _, [1, 0, 0, 0, 0x80, 0x96, 0x98, 0], rfl,
      source_of_read (by decide), by decide, by decide, by decide, by decide, by decide⟩⟩

/-- A capacity of 7 and of 8 bytes for a value of two limbs. -/
theorem witness_StrawResult :
    ∀ cap ∈ [7, 8], ∃ (s : State) (c : InFlight), s.inflight = some c ∧
      c.args.dst.toNat + c.args.cap.toNat ≤ s.params.bufBytes ∧ c.args.cap.toNat = cap ∧ nlimbs (c.v.read 1) = 2 := by
  intro cap hc
  refine ⟨loaded (regs (-20000001) 0 0) [] (args 0 0 0 cap), _, rfl, ?_⟩
  revert cap; decide

theorem witness_LdrawInvertsStraw :
    ∃ (s t s' : State) (c c' : InFlight), s.inflight = some c ∧ exec (.straw 1) s = .next t ∧ t.errCode = .noError ∧
      s'.inflight = some c' ∧ s'.params = s.params ∧ c'.buf = t.buf ∧ c'.args.src = c.args.dst ∧ c'.args.len = t.rLen ∧
      fits s.params (c.v.read 1) = true := by
  obtain ⟨t, h, e⟩ := exists_next test_straw
  exact ⟨_, t, { loaded (regs 0 0 0) [] noArgs with inflight := some { flight (regs 0 0 0) [] noArgs with
    buf := t.buf, args := { src := 0, len := t.rLen, dst := 0, cap := 0 } } }, _, _, rfl, h, congrArg Prod.fst e, rfl, rfl, rfl,
    rfl, rfl, by decide⟩

theorem witness_FrombeResult :
    ∃ (s : State) (c : InFlight) (bs : List Byte), s.inflight = some c ∧ c.Source bs ∧ bs.length = c.args.len.toNat ∧
      c.args.src.toNat + c.args.len.toNat ≤ s.params.bufBytes :=
  ⟨loaded (regs 0 0 0) [1, 2] (args 0 2 0 0), _, [1, 2], rfl, source_of_read (by decide), by decide, by decide⟩

/-- −1, 0, 255 and 256 in one byte. -/
theorem witness_TobeResult :
    ∃ (s : State) (c : InFlight), s.inflight = some c ∧ c.args.dst.toNat + c.args.cap.toNat ≤ s.params.bufBytes ∧
      c.v.read 1 < 0 ∧ (256 ^ c.args.cap.toNat : Int) ≤ c.v.read 2 ∧ 0 ≤ c.v.read 3 ∧ c.v.read 3 < 256 ^ c.args.cap.toNat ∧
      0 ≤ c.v.read 0 ∧ c.v.read 0 < 256 ^ c.args.cap.toNat :=
  ⟨loaded (regs (-1) 256 255) [] (args 0 0 0 1), _, rfl, by decide, by decide, by decide, by decide, by decide, by decide,
    by decide⟩

theorem witness_ParseRejectsIllegalRadix :
    ∀ radix ∈ [(1 : BitVec 8), 37, 255], ∃ (s : State) (c : InFlight), s.inflight = some c ∧
      c.args.src.toNat + c.args.len.toNat ≤ s.params.bufBytes ∧ (radix.toNat = 1 ∨ 36 < radix.toNat) := by
  intro radix hr
  refine ⟨loaded (regs 0 0 0) [] noArgs, _, rfl, by decide, ?_⟩
  revert radix; decide

theorem not_exponential {str : List Byte} (h : expForm str = none) : ¬ IsExponential str := by
  rintro ⟨sg, int, frac, esg, edig, dot, mark, he⟩
  rw [expForm_of_expString he] at h
  cases h

/-- "-0xf" with base omitted: a sign, a prefix and digits; "f-" in radix 16: the byte at offset 1 is no digit; "1." in radix
10: it is a '.'. -/
theorem witness_ParsePlainNumeral :
    (∃ (s : State) (c : InFlight), s.inflight = some c ∧ c.Source [0x2D, 0x30, 0x78, 0x66] ∧ 4 = c.args.len.toNat ∧
      c.args.src.toNat + c.args.len.toNat ≤ s.params.bufBytes ∧ ¬ IsExponential [0x2D, 0x30, 0x78, 0x66] ∧
      PlainString [0x2D, 0x30, 0x78, 0x66] 0 [0x2D] [0x30, 0x78] [0x66] 16 ∧
      ([0x66] : List Byte).map digval = [15].map some) ∧
    (PlainString [0x66, 0x2D] 16 [] [] [0x66, 0x2D] 16 ∧ (∃ d, digval 0x66 = some d ∧ d < 16) ∧ digval 0x2D = none) ∧
    (PlainString [0x31, 0x2E] 10 [] [] [0x31, 0x2E] 10 ∧ ¬ IsExponential [0x31, 0x2E] ∧ digval 0x2E = none) :=
  ⟨⟨loaded (regs 0 0 0) [0x2D, 0x30, 0x78, 0x66] (args 0 4 0 0), _, rfl, source_of_read (by decide), by decide, by decide,
      not_exponential (by decide),
      ⟨rfl, .inr (.inr rfl), nofun, fun h => absurd rfl h, fun _ => .inl (by decide)⟩, by decide⟩,
    ⟨⟨rfl, .inl rfl, fun _ c tail h => by cases h; decide, fun _ => ⟨rfl, rfl⟩, nofun⟩, ⟨15, by decide⟩, by decide⟩,
    ⟨⟨rfl, .inl rfl, fun _ c tail h => by cases h; decide, fun _ => ⟨rfl, rfl⟩, nofun⟩, not_exponential (by decide), by decide⟩⟩

/-- "1.50e2" (k = 0), "150e-1" (k = −1, exact) and "15e-2" (k = −2, not exact). -/
theorem witness_ParseExponentialNumeral :
    (∃ (s : State) (c : InFlight), s.inflight = some c ∧ c.Source [0x31, 0x2E, 0x35, 0x30, 0x65, 0x32] ∧
      6 = c.args.len.toNat ∧ c.args.src.toNat + c.args.len.toNat ≤ s.params.bufBytes ∧
      ExpString [0x31, 0x2E, 0x35, 0x30, 0x65, 0x32] [] [0x31] [0x35, 0x30] [] [0x32] true [0x65] ∧
      valueUnder [] (decimalOf [0x32]) - (2 : Nat) = 0) ∧
    (ExpString [0x31, 0x35, 0x30, 0x65, 0x2D, 0x31] [] [0x31, 0x35, 0x30] [] [0x2D] [0x31] false [0x65] ∧
      valueUnder [0x2D] (decimalOf [0x31]) - (0 : Nat) = -1 ∧ 10 ^ 1 ∣ decimalOf [0x31, 0x35, 0x30]) ∧
    (ExpString [0x31, 0x35, 0x65, 0x2D, 0x32] [] [0x31, 0x35] [] [0x2D] [0x32] false [0x65] ∧
      valueUnder [0x2D] (decimalOf [0x32]) - (0 : Nat) = -2 ∧ ¬ 10 ^ 2 ∣ decimalOf [0x31, 0x35]) :=
  ⟨⟨loaded (regs 0 0 0) [0x31, 0x2E, 0x35, 0x30, 0x65, 0x32] (args 0 6 0 0), _, rfl, source_of_read (by decide), by decide,
      by decide, ⟨rfl, .inl rfl, ⟨nofun, by unfold IsDigits; decide⟩, ⟨by unfold IsDigits; decide, nofun⟩, .inl rfl, .inl rfl,
        ⟨nofun, by unfold IsDigits; decide⟩⟩, by decide⟩,
    ⟨⟨rfl, .inl rfl, ⟨nofun, by unfold IsDigits; decide⟩, ⟨by unfold IsDigits; decide, fun _ => rfl⟩, .inl rfl, .inr (.inr rfl),
        ⟨nofun, by unfold IsDigits; decide⟩⟩, by decide, by decide⟩,
    ⟨⟨rfl, .inl rfl, ⟨nofun, by unfold IsDigits; decide⟩, ⟨by unfold IsDigits; decide, fun _ => rfl⟩, .inl rfl, .inr (.inr rfl),
        ⟨nofun, by unfold IsDigits; decide⟩⟩, by decide, by decide⟩⟩

/-- The smallest and the largest radix, the omitted one, and the illegal ones beside them. -/
theorem witness_TostrResult :
    ∀ radix ∈ [(0 : BitVec 8), 1, 2, 36, 37], ∃ (s : State) (c : InFlight), s.inflight = some c ∧
      c.args.dst.toNat + c.args.cap.toNat ≤ s.params.bufBytes ∧
      ((radix.toNat = 1 ∨ 36 < radix.toNat) ∨ (radix.toNat ≠ 1 ∧ radix.toNat ≤ 36)) := by
  intro radix hr
  refine ⟨loaded (regs (-255) 0 0) [] (args 0 0 0 64), _, rfl, by decide, ?_⟩
  revert radix; decide

theorem witness_ParseInvertsTostr :
    ∃ (s t s' : State) (c c' : InFlight), s.inflight = some c ∧ exec (.tostr 1 16) s = .next t ∧ t.errCode = .noError ∧
      s'.inflight = some c' ∧ s'.params = s.params ∧ c'.buf = t.buf ∧ c'.args.src = c.args.dst ∧ c'.args.len = t.rLen ∧
      fits s.params (c.v.read 1) = true := by
  obtain ⟨t, h, e⟩ := exists_next test_tostr
  exact ⟨_, t, { loaded (regs 0 0 0) [] noArgs with inflight := some { flight (regs 0 0 0) [] noArgs with
    buf := t.buf, args := { src := 8, len := t.rLen, dst := 0, cap := 0 } } }, _, _, rfl, h, congrArg Prod.fst e, rfl, rfl, rfl,
    rfl, rfl, by decide⟩

/-- A sum that fits, one that does not, and a difference of opposite signs that does not. -/
theorem witness_AddSubNegResults :
    ∃ (s : State) (c : InFlight), s.inflight = some c ∧ fits s.params (c.v.read 1) = true ∧ fits s.params (c.v.read 2) = true ∧
      fits s.params (c.v.read 3) = true ∧ fits s.params (c.v.read 2 + c.v.read 2) = true ∧
      fits s.params (c.v.read 1 + c.v.read 2) = false ∧ fits s.params (c.v.read 1 - c.v.read 3) = false :=
  ⟨loaded (regs 9999999999999999999999999999 1 (-1)) [] noArgs, _, rfl, by decide⟩

/-- ADD v4, v1, v2 then SUB v5, v4, v2; and NEG v4, v2 then ADD v5, v1, v4 beside SUB v5, v1, v2. -/
theorem witness_AddSubLaws :
    (∃ (s t s' u : State) (c c' : InFlight), s.inflight = some c ∧ c.v = s.v ∧ (4 : VReg) ≠ 2 ∧ exec (.add 4 1 2) s = .next t ∧
      t.errCode = .noError ∧ s'.inflight = some c' ∧ c'.v = t.v ∧ exec (.sub 5 4 2) s' = .next u ∧ u.errCode = .noError) ∧
    ∃ (s t s' u w : State) (c c' : InFlight), s.inflight = some c ∧ c.v = s.v ∧ (4 : VReg) ≠ 1 ∧ exec (.neg 4 2) s = .next t ∧
      s'.inflight = some c' ∧ c'.v = t.v ∧ exec (.add 5 1 4) s' = .next u ∧ u.errCode = .noError ∧
      exec (.sub 5 1 2) s = .next w ∧ w.errCode = .noError := by
  have a1 : (nextOf (exec (.add 4 1 2) (loaded (regs 3 (-4) 0) [] noArgs))).map (fun t => (t.errCode, t.v))
      = some (.noError, (regs 3 (-4) 0).write 4 (-1)) := by decide
  have a2 : (nextOf (exec (.sub 5 4 2) (loaded ((regs 3 (-4) 0).write 4 (-1)) [] noArgs))).map (·.errCode) = some .noError := by
    decide
  have b1 : (nextOf (exec (.neg 4 2) (loaded (regs 3 (-4) 0) [] noArgs))).map (·.v) = some ((regs 3 (-4) 0).write 4 4) := by decide
  have b2 : (nextOf (exec (.add 5 1 4) (loaded ((regs 3 (-4) 0).write 4 4) [] noArgs))).map (·.errCode) = some .noError := by decide
  have b3 : (nextOf (exec (.sub 5 1 2) (loaded (regs 3 (-4) 0) [] noArgs))).map (·.errCode) = some .noError := by decide
  obtain ⟨t, h1, e1⟩ := exists_next a1
  obtain ⟨u, h2, e2⟩ := exists_next a2
  obtain ⟨t', h3, e3⟩ := exists_next b1
  obtain ⟨u', h4, e4⟩ := exists_next b2
  obtain ⟨w, h5, e5⟩ := exists_next b3
  exact ⟨⟨_, t, _, u, _, _, rfl, rfl, by decide, h1, congrArg Prod.fst e1, rfl, (congrArg Prod.snd e1).symm, h2, e2⟩,
    ⟨_, t', _, u', w, _, _, rfl, rfl, by decide, h3, rfl, e3.symm, h4, e4, h5, e5⟩⟩

theorem witness_MulSqrResults : ∃ (s : State) (c : InFlight), s.inflight = some c := witness_MoveResults

/-- A DIVREM word with different destinations and one with the same; a zero divisor and another. -/
theorem witness_DivideResults :
    ((0x00421320 : Word) &&& 0xFF0000FF = 0x20 ∧ fieldAt 0x00421320 8 ≠ fieldAt 0x00421320 20) ∧
    ((0x00321320 : Word) &&& 0xFF0000FF = 0x20 ∧ fieldAt 0x00321320 8 = fieldAt 0x00321320 20) ∧
    ∃ (s : State) (c : InFlight), s.inflight = some c ∧ c.v.read 0 = 0 ∧ c.v.read 1 ≠ 0 :=
  ⟨by decide, by decide, ⟨loaded (regs 1 0 0) [] noArgs, _, rfl, by decide, by decide⟩⟩

theorem witness_DivisionLaw :
    ∃ (s t : State) (c : InFlight), s.inflight = some c ∧ (3 : VReg) ≠ 4 ∧ exec (.divrem 3 4 1 2) s = .next t ∧
      t.errCode = .noError := by
  obtain ⟨t, h, e⟩ := exists_next test_divrem_quotient
  exact ⟨_, t, _, rfl, by decide, h, congrArg Prod.fst e⟩

/-- |n| = 2^31 and 2^31 − 1; a negative exponent with a zero base and with another; a zero exponent. -/
theorem witness_PowResult :
    ∃ (s : State) (c : InFlight), s.inflight = some c ∧ 2 ^ 31 - 1 < (c.v.read 1).natAbs ∧
      (c.v.read 2).natAbs ≤ 2 ^ 31 - 1 ∧ c.v.read 2 < 0 ∧ c.v.read 0 = 0 ∧ c.v.read 3 ≠ 0 ∧ 0 ≤ c.v.read 0 :=
  ⟨loaded (regs 2147483648 (-2147483647) 2) [] noArgs, _, rfl, by decide⟩

theorem witness_ModpowResult :
    ∃ (s : State) (c : InFlight), s.inflight = some c ∧ c.v.read 1 < 0 ∧ 0 ≤ c.v.read 0 ∧ c.v.read 0 = 0 ∧ c.v.read 2 ≠ 0 :=
  ⟨loaded (regs (-1) 497 0) [] noArgs, _, rfl, by decide⟩

theorem witness_CompareResults : ∃ (s : State) (c : InFlight), s.inflight = some c := witness_MoveResults

theorem witness_PredicateResults : ∃ (s : State) (c : InFlight), s.inflight = some c := witness_MoveResults

/-- Raw blocks of 0, 1, 8 and 9 bytes. -/
theorem witness_Enc58bResult :
    (∀ n ∈ [0, 9], ∃ (s : State) (c : InFlight), s.inflight = some c ∧
      c.args.src.toNat + c.args.len.toNat ≤ s.params.bufBytes ∧ c.args.dst.toNat + c.args.cap.toNat ≤ s.params.bufBytes ∧
      c.args.len.toNat = n ∧ (n < 1 ∨ 8 < n)) ∧
    ∀ raw ∈ [[(0xFF : Byte)], [1, 2, 3, 4, 5, 6, 7, 8]], ∃ (s : State) (c : InFlight), s.inflight = some c ∧
      c.args.src.toNat + c.args.len.toNat ≤ s.params.bufBytes ∧ c.args.dst.toNat + c.args.cap.toNat ≤ s.params.bufBytes ∧
      c.Source raw ∧ raw.length = c.args.len.toNat ∧ 1 ≤ raw.length ∧ raw.length ≤ 8 := by
  refine ⟨fun n hn => ?_, fun raw hr => ?_⟩
  · refine ⟨loaded (regs 0 0 0) [] (args 0 n 32 16), _, rfl, ?_⟩
    revert n; decide
  · refine ⟨loaded (regs 0 0 0) raw (args 0 raw.length 32 16), _, rfl, ?_⟩
    simp only [List.mem_cons, List.not_mem_nil, or_false] at hr
    rcases hr with rfl | rfl
    · exact ⟨by decide, by decide, source_of_read (by decide), by decide, by decide, by decide⟩
    · exact ⟨by decide, by decide, source_of_read (by decide), by decide, by decide, by decide⟩

/-- A block of one symbol; "5l" with a byte that is no symbol; "5R", whose value is 256, and "5Q", whose value is 255. -/
theorem witness_Dec58bResult :
    (∀ t ∈ [[(0x35 : Byte)], [0x35, 0x6C], [0x35, 0x52], [0x35, 0x51]], ∃ (s : State) (c : InFlight), s.inflight = some c ∧
      s.params.wf = true ∧ c.args.src.toNat + c.args.len.toNat ≤ s.params.bufBytes ∧
      c.args.dst.toNat + c.args.cap.toNat ≤ s.params.bufBytes ∧ c.Source t ∧ t.length = c.args.len.toNat) ∧
    ¬ IsSymbol small 0x6C ∧
    (SymbolsOf small [4, 24] [0x35, 0x52] ∧ encLenTable.getD 1 0 = 2 ∧ 256 ^ 1 ≤ sumOf 58 [4, 24]) ∧
    SymbolsOf small [4, 23] [0x35, 0x51] ∧ sumOf 58 [4, 23] < 256 ^ 1 := by
  refine ⟨fun t ht => ?_, ?_, ⟨⟨by decide, by decide⟩, by decide, by decide⟩, ⟨by decide, by decide⟩, by decide⟩
  · refine ⟨loaded (regs 0 0 0) t (args 0 t.length 32 16), _, rfl, by show small.wf = true; decide, ?_⟩
    simp only [List.mem_cons, List.not_mem_nil, or_false] at ht
    rcases ht with rfl | rfl | rfl | rfl <;>
    · exact ⟨by decide, by decide, source_of_read (by decide), by decide⟩
  · unfold IsSymbol; decide

theorem witness_Enc58Result :
    ∃ (s : State) (c : InFlight) (raw : List Byte), s.inflight = some c ∧
      c.args.src.toNat + c.args.len.toNat ≤ s.params.bufBytes ∧ c.args.dst.toNat + c.args.cap.toNat ≤ s.params.bufBytes ∧
      c.Source raw ∧ raw.length = c.args.len.toNat :=
  ⟨loaded (regs 0 0 0) [0xFF, 0xFF, 0xFF, 0xFF] (args 0 4 8 16), _, [0xFF, 0xFF, 0xFF, 0xFF], rfl, by decide, by decide,
    source_of_read (by decide), by decide⟩

/-- "5Q" encodes the one byte FF. -/
theorem encodedBlock_5Q : EncodedBlock small [0xFF] [0x35, 0x51] :=
  ⟨by decide, by decide, [4, 23], by decide, ⟨by decide, by decide⟩, by decide⟩

/-- A length of 1; "5Q", whose only block is an encoding; "5l" and "5R", whose only block is none. -/
theorem witness_Dec58Result :
    (∀ t ∈ [[(0x35 : Byte)], [0x35, 0x6C], [0x35, 0x52], [0x35, 0x51]], ∃ (s : State) (c : InFlight), s.inflight = some c ∧
      s.params.wf = true ∧ c.args.src.toNat + c.args.len.toNat ≤ s.params.bufBytes ∧
      c.args.dst.toNat + c.args.cap.toNat ≤ s.params.bufBytes ∧ c.Source t ∧ t.length = c.args.len.toNat) ∧
    (1 % 11 ∈ [1, 4, 8] ∧ 2 % 11 ∉ [1, 4, 8] ∧ (2 + 10) / 11 = 1) ∧
    EncodedBlock small [0xFF] (blockAt 11 0 [0x35, 0x51]) ∧
    (blockAt 11 0 [(0x35 : Byte), 0x6C] = [0x35] ++ 0x6C :: [] ∧ ¬ IsSymbol small 0x6C) ∧
    SymbolsOf small [4, 24] (blockAt 11 0 [0x35, 0x52]) ∧ 256 ^ 1 ≤ sumOf 58 [4, 24] :=
  ⟨witness_Dec58bResult.1, by decide, encodedBlock_5Q, ⟨by decide, witness_Dec58bResult.2.1⟩, ⟨by decide, by decide⟩, by decide⟩

theorem witness_Dec58InvertsEnc58 :
    ∃ (s t s' : State) (c c' : InFlight) (raw : List Byte), s.inflight = some c ∧ s.params.wf = true ∧ c.Source raw ∧
      raw.length = c.args.len.toNat ∧ exec .enc58 s = .next t ∧ t.errCode = .noError ∧ s'.inflight = some c' ∧
      s'.params = s.params ∧ c'.buf = t.buf ∧ c'.args.src = c.args.dst ∧ c'.args.len = t.rLen ∧
      c'.args.dst.toNat + c'.args.cap.toNat ≤ s'.params.bufBytes ∧ raw.length ≤ c'.args.cap.toNat := by
  obtain ⟨t, h, e⟩ := exists_next test_enc58
  exact ⟨_, t, { loaded (regs 0 0 0) [] noArgs with inflight := some { flight (regs 0 0 0) [] noArgs with
    buf := t.buf, args := { src := 8, len := t.rLen, dst := 32, cap := 4 } } }, _, _, [0xFF, 0xFF, 0xFF, 0xFF], rfl,
    by show small.wf = true; decide, source_of_read (by decide), by decide, h, congrArg Prod.fst e, rfl, rfl, rfl, rfl, rfl,
    by show (32 : BitVec 32).toNat + (4 : BitVec 32).toNat ≤ 64; decide, by show 4 ≤ (4 : BitVec 32).toNat; decide⟩

theorem witness_Enc58InvertsDec58 :
    ∃ (s t s' : State) (c c' : InFlight) (syms : List Byte), s.inflight = some c ∧ s.params.wf = true ∧ c.Source syms ∧
      syms.length = c.args.len.toNat ∧ exec .dec58 s = .next t ∧ t.errCode = .noError ∧ s'.inflight = some c' ∧
      s'.params = s.params ∧ c'.buf = t.buf ∧ c'.args.src = c.args.dst ∧ c'.args.len = t.rLen ∧
      c'.args.dst.toNat + c'.args.cap.toNat ≤ s'.params.bufBytes ∧ syms.length ≤ c'.args.cap.toNat := by
  obtain ⟨t, h, e⟩ := exists_next test_dec58
  exact ⟨_, t, { loaded (regs 0 0 0) [] noArgs with inflight := some { flight (regs 0 0 0) [] noArgs with
    buf := t.buf, args := { src := 8, len := t.rLen, dst := 32, cap := 2 } } }, _, _, [0x31, 0x31], rfl,
    by show small.wf = true; decide, source_of_read (by decide), by decide, h, congrArg Prod.fst e, rfl, rfl, rfl, rfl, rfl,
    by show (32 : BitVec 32).toNat + (2 : BitVec 32).toNat ≤ 64; decide, by show 2 ≤ (2 : BitVec 32).toNat; decide⟩

end Sys2Proof.Tests
end

section
/-! PROOFS. The statements of 00_scope.md: what a completion depends on (R13, R40). -/

namespace Sys2Proof.Machine

/-! ### What a run leaves to its writes -/

/-- The writes name every result of command i: its destination registers, and R_VAL and R_LEN where R42 lists it. -/
structure Covers (i : Instr) (w : Writes) : Prop where
  regs : w.regs.map Prod.fst = i.dests
  val : w.rVal.isSome = i.writesVal
  len : w.rLen.isSome = i.storing

/-- The run raises only real errors, and where it raises none its writes name every result of command i. Both are needed of
one run: a state with the code of no error must come from writes that name the results, not from an error of that code. -/
def Settles (i : Instr) (r : Run Writes) : Prop := RaisesOnly realErrors r ∧ ∀ w, r = .ok w → Covers i w

section
variable {i : Instr} {p : Params} {c : InFlight}

theorem settles_ok {w : Writes} (h : Covers i w) : Settles i (.ok w) :=
  ⟨raisesOnly_ok, fun _ e => by cases e; exact h⟩

theorem settles_error {α : Type} {r : Run α} {e : Halt} (hr : RaisesOnly realErrors r) (he : r = .error e) :
    Settles i (.error e) := ⟨raisesOnly_error hr he, nofun⟩

theorem settles_raise {e : ErrCode} {info : Nat} (h : e ∈ realErrors) : Settles i (raise e info) :=
  settles_error (raisesOnly_raise (α := Writes) h) rfl

theorem settles_ite {q : Prop} [Decidable q] {a b : Run Writes} (ha : Settles i a) (hb : Settles i b) :
    Settles i (if q then a else b) := by split <;> assumption

theorem settles_withSource {n : Nat} {k : Run Writes} (h : Settles i k) : Settles i (withSource p c n k) :=
  settles_ite h (settles_raise (by decide))

theorem settles_withDest {k : Run Writes} (h : Settles i k) : Settles i (withDest p c k) :=
  settles_ite h (settles_raise (by decide))

theorem settles_readSource {n : Nat} {k : List Byte → Run Writes} (h : ∀ bs, bs.length = n → Settles i (k bs)) :
    Settles i (readSource c n k) :=
  ⟨raisesOnly_readSource fun bs hn => (h bs hn).1, fun w e => by
    obtain ⟨bs, hbs, hk⟩ := readSource_ok.mp e
    exact (h bs (Memory.read_length hbs)).2 w hk⟩

theorem settles_storeValue {r : VReg} {x : Int} (h : Covers i { regs := [(r, x)] }) : Settles i (storeValue p r x) :=
  settles_ite (settles_ok h) (settles_raise (by decide))

theorem settles_storePower {r : VReg} {a : Int} {n : Nat} (h : ∀ x, Covers i { regs := [(r, x)] }) :
    Settles i (storePower p r a n) := by
  unfold storePower
  split
  · exact settles_raise (by decide)
  · exact settles_storeValue (h _)

theorem settles_emit {bs : List Byte} (h : ∀ a l, Covers i { dst := a, bytes := bs, rLen := some l }) :
    Settles i (emit c bs) := settles_ite (settles_raise (by decide)) (settles_ok (h _ _))

theorem settles_emitRun {r : Run (List Byte)} (hr : RaisesOnly realErrors r)
    (h : ∀ bs a l, Covers i { dst := a, bytes := bs, rLen := some l }) : Settles i (emitRun c r) := by
  cases r with
  | error e => exact settles_error hr rfl
  | ok bs => exact settles_emit (h bs)

end

/-! ### Two completions of one command (R40) -/

/-- The next states t of s and t' of s' show the same outcome of command i: the same code, and after a success the same
results. -/
def SameOutcome (i : Instr) (s s' t t' : State) : Prop :=
  t'.errCode = t.errCode ∧ t'.errInfo = t.errInfo ∧
    (t.errCode = .noError →
      (∀ r ∈ i.dests, t'.v.read r = t.v.read r) ∧
      (i.writesVal = true → t'.rVal = t.rVal) ∧ (i.storing = true → t'.rLen = t.rLen) ∧
      (s'.buf = s.buf → t'.buf = t.buf))

/-- After the same writes, two register files agree in every register they agreed in before or that is written. -/
theorem Regs.read_writeAll_congr {v v' : Regs} {ws : List (VReg × Int)} {r : VReg}
    (h : v'.read r = v.read r ∨ r ∈ ws.map Prod.fst) : (v'.writeAll ws).read r = (v.writeAll ws).read r := by
  induction ws generalizing v v' with
  | nil => simpa using h
  | cons w ws ih =>
    rw [Regs.writeAll_cons, Regs.writeAll_cons]
    refine ih ?_
    by_cases hr : r = w.1
    · exact .inl (by rw [hr, Regs.read_write_same, Regs.read_write_same])
    · rw [Regs.read_write_other v' _ hr, Regs.read_write_other v _ hr]
      simpa [hr] using h

theorem sameOutcome_succeed {i : Instr} {w : Writes} (hw : Covers i w) (s s' : State) :
    SameOutcome i s s' (s.succeed w) (s'.succeed w) := by
  refine ⟨rfl, rfl, fun _ => ⟨fun r hr => ?_, fun hv => ?_, fun hs => ?_, fun hb => ?_⟩⟩
  · exact Regs.read_writeAll_congr (.inr (hw.regs ▸ hr))
  · obtain ⟨x, hx⟩ := Option.isSome_iff_exists.mp (hw.val.trans hv)
    simp [hx]
  · obtain ⟨x, hx⟩ := Option.isSome_iff_exists.mp (hw.len.trans hs)
    simp [hx]
  · simp [hb]

theorem sameOutcome_fail (i : Instr) {e : ErrCode} (he : e ≠ .noError) (info : Nat) (s s' : State) :
    SameOutcome i s s' (s.fail e info) (s'.fail e info) := ⟨rfl, rfl, fun h => absurd h he⟩

/-- One run, completed in two states with the same command in flight. -/
theorem command_sameOutcome {i : Instr} {s s' t : State} {c : InFlight} {body body' : InFlight → Run Writes}
    (hc : s.inflight = some c) (hc' : s'.inflight = some c) (hb : body' c = body c) (hi : Settles i (body c))
    (h : s.command body = .next t) : ∃ t', s'.command body' = .next t' ∧ SameOutcome i s s' t t' := by
  rw [State.command_eq hc] at h
  rw [State.command_eq hc', hb]
  rcases State.complete_next h with ⟨w, hr, rfl⟩ | ⟨e, info, hr, rfl⟩
  · exact ⟨s'.succeed w, by rw [hr]; rfl, sameOutcome_succeed (hi.2 w hr) s s'⟩
  · exact ⟨s'.fail e info, by rw [hr]; rfl,
      sameOutcome_fail i ((mem_realErrors e).mp (hi.1 e info hr)) info s s'⟩

/-- The meaning of every command is one run of the in-flight command and the parameters, and that run settles the command:
the cases follow the shape of each command's pseudocode. -/
theorem exec_sameOutcome {i : Instr} {s s' t : State} {c : InFlight} (hc : s.inflight = some c)
    (hc' : s'.inflight = some c) (hp : s'.params = s.params) (h : exec i s = .next t) :
    ∃ t', exec i s' = .next t' ∧ SameOutcome i s s' t t' := by
  cases i
  all_goals refine command_sameOutcome hc hc' (by simp only [hp]) ?_ h
  case nop | ldk | mov | neg | cmp | cmpabs | sgn | iszero | isunit | iseven | isodd | ispos | isneg =>
    exact settles_ok ⟨rfl, rfl, rfl⟩
  case add | sub | mul | sqr => exact settles_storeValue ⟨rfl, rfl, rfl⟩
  case div | rem => exact settles_ite (settles_raise (by decide)) (settles_ok ⟨rfl, rfl, rfl⟩)
  case divrem | modpow =>
    exact settles_ite (settles_raise (by decide)) (settles_ite (settles_raise (by decide)) (settles_ok ⟨rfl, rfl, rfl⟩))
  case ldraw =>
    refine settles_withSource (settles_readSource fun bs _ => ?_)
    dsimp only
    split
    · exact settles_raise (by decide)
    · exact settles_storeValue ⟨rfl, rfl, rfl⟩
  case straw => exact settles_withDest (settles_ite (settles_raise (by decide)) (settles_ok ⟨rfl, rfl, rfl⟩))
  case frombe => exact settles_withSource (settles_readSource fun _ _ => settles_storeValue ⟨rfl, rfl, rfl⟩)
  case tobe =>
    exact settles_withDest (settles_ite (settles_raise (by decide))
      (settles_ite (settles_raise (by decide)) (settles_ok ⟨rfl, rfl, rfl⟩)))
  case parse =>
    refine settles_withSource (settles_ite (settles_raise (by decide)) (settles_readSource fun bs _ => ?_))
    split
    · exact settles_storeValue ⟨rfl, rfl, rfl⟩
    · next he => exact settles_error (raisesOnly_numeral (by decide) (by decide) (by decide) _ _ _) he
  case tostr =>
    exact settles_withDest (settles_ite (settles_raise (by decide)) (settles_emit fun _ _ => ⟨rfl, rfl, rfl⟩))
  case pow =>
    exact settles_ite (settles_raise (by decide)) (settles_ite (settles_storeValue ⟨rfl, rfl, rfl⟩)
      (settles_ite (settles_ite (settles_raise (by decide)) (settles_storeValue ⟨rfl, rfl, rfl⟩))
        (settles_storePower fun _ => ⟨rfl, rfl, rfl⟩)))
  case enc58 =>
    exact settles_withSource (settles_withDest (settles_readSource fun _ hn =>
      settles_emitRun (raisesOnly_encodeBlocks hn) fun _ _ _ => ⟨rfl, rfl, rfl⟩))
  case enc58b =>
    exact settles_withSource (settles_withDest (settles_ite (settles_raise (by decide)) (settles_readSource fun _ _ =>
      settles_emitRun (raisesOnly_encodeBlock (by decide) _ _) fun _ _ _ => ⟨rfl, rfl, rfl⟩)))
  case dec58 =>
    exact settles_withSource (settles_withDest (settles_ite (settles_raise (by decide)) (settles_readSource fun _ _ =>
      settles_emitRun (raisesOnly_decodeBlocks (by decide) (by decide) (by decide) _ _ _ _)
        fun _ _ _ => ⟨rfl, rfl, rfl⟩)))
  case dec58b =>
    exact settles_withSource (settles_withDest (settles_readSource fun _ _ =>
      settles_emitRun (raisesOnly_decodeBlock (by decide) (by decide) (by decide) _ _ _) fun _ _ _ => ⟨rfl, rfl, rfl⟩))

theorem completeInFlight_of_inflight {s : State} {c : InFlight} (h : s.inflight = some c) :
    completeInFlight s = runWord c.word s := by
  rw [completeInFlight, h]

theorem runWord_of_decode {w : Word} {i : Instr} (h : decode w = some i) (s : State) : runWord w s = exec i s := by
  rw [runWord, h]

theorem runWord_of_illegal {w : Word} (h : decode w = none) (s : State) :
    runWord w s = .next (s.fail .illegalCommand 0) := by
  rw [runWord, h]; rfl

/-- Settles O10: a legal word is one run in both states (`exec_sameOutcome`), an illegal word one error. -/
theorem completionDependsOnTheSnapshotAlone : Obligations.CompletionDependsOnTheSnapshotAlone := by
  intro s s' t hin hne hp ht
  obtain ⟨c, hc⟩ := Option.ne_none_iff_exists'.mp hne
  have hc' : s'.inflight = some c := hin.trans hc
  rw [completeInFlight_of_inflight hc] at ht
  rw [completeInFlight_of_inflight hc']
  cases hd : decode c.word with
  | none =>
    rw [runWord_of_illegal hd] at ht ⊢
    cases ht
    refine ⟨_, rfl, rfl, rfl, fun c₁ i hc₁ hi => ?_⟩
    cases hc.symm.trans hc₁
    exact absurd (hd.symm.trans hi) nofun
  | some i =>
    rw [runWord_of_decode hd] at ht ⊢
    obtain ⟨t', ht', hcode, hinfo, hres⟩ := exec_sameOutcome hc hc' hp ht
    refine ⟨t', ht', hcode, hinfo, fun c₁ i₁ hc₁ hi => ?_⟩
    cases hc.symm.trans hc₁
    cases hd.symm.trans hi
    exact hres

end Sys2Proof.Machine
end

section
/-! PROOFS. The statements of 00_scope.md: the limbs of a value (R11). -/

namespace Sys2Proof.Machine

/-- |v| is the sum of the limbs, each with the weight of its place (R11). -/
theorem sum_limbs (v : Int) : ∑ i ∈ Finset.range (nlimbs v), (limbs v).getD i 0 * 10 ^ (7 * i) = v.natAbs := by
  rw [← valueOf_limbs v, valueOf_reverse_eq_sum, nlimbs]
  simp only [limbBase_eq, ← pow_mul]

/-- No leading zero limb (R11). -/
theorem limbs_top_ne_zero {v : Int} {k : Nat} (h : nlimbs v = k + 1) : (limbs v).getD k 0 ≠ 0 := by
  have hk : k < (limbs v).length := by rw [← nlimbs, h]; exact k.lt_succ_self
  have hne : limbs v ≠ [] := List.ne_nil_of_length_pos (Nat.zero_lt_of_lt hk)
  have hlast : (limbs v).getLast hne = (limbs v).getD k 0 := by
    have hk' : (limbs v).length - 1 = k := by rw [← nlimbs, h]; rfl
    rw [List.getLast_eq_getElem, List.getD_eq_getElem _ _ hk]
    simp only [hk']
  exact hlast ▸ digits_getLast_ne_zero (by decide) v.natAbs hne

/-- Settles O24, from the laws of numerals in base 10^7. -/
theorem limbsAreCanonical : Obligations.LimbsAreCanonical := by
  intro v
  have hzero : limbs 0 = [] := (digits_eq_nil (by decide) _).mpr rfl
  exact ⟨sum_limbs v, limbs_lt v, fun _ h => limbs_top_ne_zero h, hzero,
    fun p => ⟨by rw [fits_iff, nlimbs_le], fits_iff p v⟩⟩

end Sys2Proof.Machine
end

section
/-! PROOFS. The statements of 00_scope.md: truncated division (R10). -/

namespace Sys2Proof.Machine

/-- The remainder is 0 or has the sign of the dividend (R10). -/
theorem trem_zero_or_sign (a b : Int) : trem a b = 0 ∨ (trem a b).sign = a.sign := by
  rw [trem_eq_tmod, ← Int.sign_eq_zero_iff_zero, Int.sign_tmod]
  split
  · exact .inl rfl
  · exact .inr rfl

/-- Quotient and remainder are the only pair with the three properties of R10. -/
theorem tdiv_trem_unique {a b q r : Int} (heq : a = b * q + r) (hlt : r.natAbs < b.natAbs)
    (hs : r = 0 ∨ r.sign = a.sign) : q = tdiv a b ∧ r = trem a b := by
  have hb : b ≠ 0 := by rintro rfl; simp at hlt
  have key : a.tdiv b = q ∧ a.tmod b = r := by
    rcases le_total 0 a with ha | ha
    · have hr : 0 ≤ r := hs.elim Eq.ge fun h => Int.sign_nonneg_iff.mp (h ▸ Int.sign_nonneg_iff.mpr ha)
      rw [Int.tdiv_tmod_unique ha hb]
      omega
    · have hr : r ≤ 0 := hs.elim Eq.le fun h => Int.sign_nonpos_iff.mp (h ▸ Int.sign_nonpos_iff.mpr ha)
      rw [Int.tdiv_tmod_unique' ha hb]
      omega
  exact ⟨key.1.symm, (trem_eq_tmod a b).trans key.2 |>.symm⟩

theorem exec_divrem {s : State} {c : InFlight} {vq vr : VReg} (hc : s.inflight = some c) (hne : vq ≠ vr) (va vb : VReg) :
    exec (.divrem vq vr va vb) s =
      if c.v.read vb = 0 then .next (s.fail .divideByZero 0)
      else .next (s.succeed
        { regs := [(vq, tdiv (c.v.read va) (c.v.read vb)), (vr, trem (c.v.read va) (c.v.read vb))] }) := by
  rw [exec, execDivrem, State.command_eq hc, if_neg hne]
  split <;> rfl

theorem exec_div {s : State} {c : InFlight} (hc : s.inflight = some c) (vd va : VReg) {vb : VReg} (hb : c.v.read vb ≠ 0) :
    exec (.div vd va vb) s = .next (s.afterWrite vd (tdiv (c.v.read va) (c.v.read vb))) := by
  rw [exec, execDiv, State.command_eq hc, if_neg hb, complete_setReg]

theorem exec_rem {s : State} {c : InFlight} (hc : s.inflight = some c) (vd va : VReg) {vb : VReg} (hb : c.v.read vb ≠ 0) :
    exec (.rem vd va vb) s = .next (s.afterWrite vd (trem (c.v.read va) (c.v.read vb))) := by
  rw [exec, execRem, State.command_eq hc, if_neg hb, complete_setReg]

/-- A DIVREM that completes without error had a divisor, and leaves quotient and remainder. -/
theorem exec_divrem_noError {s t : State} {c : InFlight} {vq vr va vb : VReg} (hc : s.inflight = some c) (hne : vq ≠ vr)
    (h : exec (.divrem vq vr va vb) s = .next t) (he : t.errCode = .noError) :
    c.v.read vb ≠ 0 ∧ t.v.read vq = tdiv (c.v.read va) (c.v.read vb) ∧
      t.v.read vr = trem (c.v.read va) (c.v.read vb) := by
  rw [exec_divrem hc hne] at h
  split at h
  · cases h
    exact absurd he nofun
  · next hb =>
    cases h
    exact ⟨hb, by simp [Regs.read_write_other _ _ hne], by simp⟩

/-- Settles O50: a DIVREM that succeeds leaves tdiv and trem, which have the three properties and are the only such pair. -/
theorem divisionLaw : Obligations.DivisionLaw := by
  intro s t c vq vr va vb hc hne h he
  obtain ⟨hb, hq, hr⟩ := exec_divrem_noError hc hne h he
  rw [hq, hr]
  exact ⟨by rw [mul_comm]; exact tdiv_add_trem _ _, trem_natAbs_lt _ hb, trem_zero_or_sign _ _,
    fun _ _ => tdiv_trem_unique, fun vd => ⟨exec_div hc vd va hb, exec_rem hc vd va hb⟩⟩

end Sys2Proof.Machine
end

section
/-! PROOFS. The statements of 00_scope.md: digit values (R15). -/

namespace Sys2Proof.Machine

/-- The table of R15, read from the digit value to the bytes that have it. -/
theorem digval_eq_some (ch : Byte) (d : Nat) :
    digval ch = some d ↔ (d < 10 ∧ ch.toNat = 0x30 + d) ∨
      (10 ≤ d ∧ d < 36 ∧ (ch.toNat = 0x41 + (d - 10) ∨ ch.toNat = 0x61 + (d - 10))) := by
  unfold digval
  dsimp only
  split_ifs
  case neg => exact iff_of_false nofun (by omega)
  all_goals rw [Option.some.injEq]; omega

/-- The bytes radix r accepts (R15, R88): the first r of the digits, then of the letters in either case. -/
theorem exists_digval_lt (ch : Byte) {r : Nat} (hr : r ≤ 36) :
    (∃ d, digval ch = some d ∧ d < r) ↔
      (0x30 ≤ ch.toNat ∧ ch.toNat < 0x30 + min r 10) ∨
      (0x41 ≤ ch.toNat ∧ ch.toNat < 0x41 + (r - 10)) ∨ (0x61 ≤ ch.toNat ∧ ch.toNat < 0x61 + (r - 10)) := by
  simp only [digval_eq_some]
  constructor
  · rintro ⟨d, hd, hlt⟩
    omega
  · rintro (h | h | h)
    · exact ⟨ch.toNat - 0x30, by omega, by omega⟩
    · exact ⟨ch.toNat - 0x41 + 10, by omega, by omega⟩
    · exact ⟨ch.toNat - 0x61 + 10, by omega, by omega⟩

/-- Settles O40: the sets are those of `exists_digval_lt` at the five radixes. -/
theorem digitSets : Obligations.DigitSets := by
  intro ch
  refine ⟨?_, ?_, ?_, ?_, ?_, fun d => (digval_eq_some ch d).mp⟩
  all_goals rw [exists_digval_lt ch (by decide)]
  · have hmem : ch ∈ [0x30, 0x31] ↔ ch.toNat = 0x30 ∨ ch.toNat = 0x31 := by
      simp [← BitVec.toNat_inj]
    rw [hmem]
    omega
  all_goals omega

end Sys2Proof.Machine
end

section
/-! PROOFS. The statements of 10_state.md: what a host access and a step can do, said once (R17, R20, R24 to R39), with what
follows for the parameters and the value registers. -/

namespace Sys2Proof.Machine

/-! ### Host accesses -/

theorem regAt_eq_ctrl {p : Params} {o : Nat} (h : regAt p o = .ctrl) : o = 0x04 := by
  unfold regAt at h
  split at h
  · split at h
    case h_2 => rfl
    all_goals cases h
  · split at h
    · split at h <;> cases h
    · split at h <;> cases h

/-- The next states of a host access to offset `o` of a block that is not being reset. -/
inductive HostEffect (s : State) (o : Nat) (op : HostOp) : State → Prop where
  /-- Fields that the block's values, its buffer and the command in flight do not depend on; DONE is at most cleared. -/
  | quiet (ie done ovr : Bool) (args : Args) (vsel : VReg) (rdata : Word) (freeCount : Nat)
      (hdone : s.done = false → done = false) :
      HostEffect s o op { s with
        ie := ie, done := done, ovr := ovr, args := args, vsel := vsel, rdata := rdata, freeCount := freeCount }
  /-- A CTRL write with SRST set (R147). -/
  | softReset (w : Word) (hop : op = .write w) (ho : o = 0x04) (hw : w.getLsbD 1 = true) :
      HostEffect s o op (s.softReset (w.getLsbD 0))
  /-- A CMD write with no command in flight: the issue of a command that can complete (R28). -/
  | issue (w : Word) (t : State) (hidle : s.inflight = none) (ht : completeInFlight (s.latch w) = .next t) :
      HostEffect s o op (s.latch w)
  /-- A BUFWIN write with no command in flight (R39). -/
  | bufWrite (k : Nat) (w : Word) (hidle : s.inflight = none) (hk : k % 4 = 0) (hin : k < s.params.bufBytes) :
      HostEffect s o op { s with buf := s.buf.write k (wordBytes w) }

section
variable {s t : State}

theorem hostRead_effect {r : HostReg} {o : Nat} {op : HostOp} (h : hostRead r s = .next t) : HostEffect s o op t := by
  unfold hostRead at h
  split at h
  · cases h
    exact .quiet _ _ _ _ _ _ _ id
  · split at h
    · cases h
      exact .quiet _ _ _ _ _ _ _ id
    · cases h

/-- An issue that answers leaves the latched command, which can complete. -/
theorem issue_next {w : Word} (h : issue w s = .next t) :
    t = s.latch w ∧ ∃ u, completeInFlight (s.latch w) = .next u := by
  unfold issue at h
  split at h
  · cases h
  · cases h
  · next u hu =>
    cases h
    exact ⟨rfl, u, hu⟩

theorem busy_eq_false : s.busy = false ↔ s.inflight = none := Option.isSome_eq_false_iff.trans Option.isNone_iff_eq_none

theorem hostWrite_effect {o : Nat} {w : Word} (ho : o % 4 = 0) (h : hostWrite (regAt s.params o) w s = .next t) :
    HostEffect s o (.write w) t := by
  cases hr : regAt s.params o <;> rw [hr] at h <;> dsimp only [hostWrite] at h
  case ctrl =>
    split at h
    · next hw =>
      cases h
      exact .softReset w rfl (regAt_eq_ctrl hr) hw
    · cases h
      exact .quiet _ _ _ _ _ _ _ id
  case status =>
    cases h
    exact .quiet _ _ _ _ _ _ _ fun hd => by rw [hd, Bool.false_and]
  case cmd =>
    split at h
    · cases h
      exact .quiet _ _ _ _ _ _ _ id
    · next hb =>
      obtain ⟨rfl, u, hu⟩ := issue_next h
      exact .issue w u (busy_eq_false.mp (Bool.not_eq_true _ ▸ hb)) hu
  case bufWin k =>
    obtain ⟨hk, hin⟩ := regAt_eq_bufWin hr
    split at h
    · cases h
    · next hb =>
      cases h
      exact .bufWrite k w (busy_eq_false.mp (Bool.not_eq_true _ ▸ hb)) (by omega) hin
  all_goals
    cases h
    exact .quiet _ _ _ _ _ _ _ id

/-- What a host access can do when it answers a next state. -/
theorem hostAccess_next {width : Nat} {o : BitVec 17} {op : HostOp} (h : hostAccess width o op s = .next t) :
    s.resetLine = false ∧ HostEffect s o.toNat op t := by
  unfold hostAccess at h
  split at h
  · cases h
  · next hr =>
    split at h
    · cases h
    · next hal =>
      refine ⟨Bool.not_eq_true _ ▸ hr, ?_⟩
      cases op with
      | read => exact hostRead_effect h
      | write w => exact hostWrite_effect (by omega) h

/-! ### Steps -/

/-- The sequencer's turn with a legal word in flight. -/
theorem completeInFlight_exec {c : InFlight} {i : Instr} (hc : s.inflight = some c)
    (hd : decode c.word = some i) : completeInFlight s = exec i s := by
  rw [completeInFlight_of_inflight hc, runWord_of_decode hd]

/-- The sequencer's turn with an illegal word in flight (R72). -/
theorem completeInFlight_illegal {c : InFlight} (hc : s.inflight = some c) (hd : decode c.word = none) :
    completeInFlight s = .next (s.fail .illegalCommand 0) := by
  rw [completeInFlight_of_inflight hc, runWord_of_illegal hd]

/-- An idle block keeps its state (R145). -/
theorem completeInFlight_idle (hi : s.inflight = none) : completeInFlight s = .next s := by
  rw [completeInFlight, hi]

/-- A step that answers is the sequencer's turn when no event is left, and the next event otherwise. -/
theorem step_next (h : step s = .next t) :
    completeInFlight s = .next t ∨ ∃ e rest, s.inputs = e :: rest ∧ handle e { s with inputs := rest } = .next t := by
  cases hin : s.inputs with
  | nil => exact .inl (step_idle hin ▸ h)
  | cons e rest => exact .inr ⟨e, rest, rfl, step_event hin ▸ h⟩

/-! ### The parameters (R34, R43) -/

theorem HostEffect.params_eq {o : Nat} {op : HostOp} (h : HostEffect s o op t) : t.params = s.params := by
  cases h <;> rfl

theorem completeInFlight_params (h : completeInFlight s = .next t) : t.params = s.params := by
  rcases completeInFlight_next h with ⟨-, rfl⟩ | ⟨c, -, ⟨i, w, -, -, rfl⟩ | ⟨e, info, rfl⟩⟩ <;> rfl

theorem setResetLine_params (level : Bool) (s : State) : (setResetLine level s).params = s.params := by
  unfold setResetLine
  split <;> rfl

theorem handle_params {e : Event} (h : handle e s = .next t) : t.params = s.params := by
  cases e with
  | access width o op => exact (hostAccess_next h).2.params_eq
  | hardReset level =>
    cases h
    exact setResetLine_params level s
  | sequencer => exact completeInFlight_params h

/-! ### The value registers (R20) -/

/-- Only a soft reset writes a value register. -/
theorem HostEffect.v_eq {o : Nat} {op : HostOp} (h : HostEffect s o op t)
    (hsoft : ∀ w, op = .write w → o = 0x04 → w.getLsbD 1 = false) : t.v = s.v := by
  cases h with
  | softReset w hop ho hw => exact absurd (hw.symm.trans (hsoft w hop ho)) nofun
  | quiet | issue | bufWrite => rfl

end

/-- Settles O13: by cases over what a step can be. -/
theorem noStepChangesTheParameters : Obligations.NoStepChangesTheParameters := by
  intro s t h
  rcases step_next h with hc | ⟨e, rest, -, he⟩
  · exact completeInFlight_params hc
  · exact (handle_params he).trans rfl

/-- Settles O25: by cases over what an access can do (`HostEffect`). -/
theorem noHostAccessWritesAValueRegister : Obligations.NoHostAccessWritesAValueRegister := by
  intro s t width o op rest hin h hsoft
  rw [step_event hin] at h
  exact (hostAccess_next h).2.v_eq hsoft

end Sys2Proof.Machine
end

section
/-! PROOFS. The statements of 10_state.md: the invariant of the block (R18, R20, R22, R33, R40). -/

namespace Sys2Proof.Machine

section
variable {s t : State}

/-- Whether the sequencer's turn answers a next state depends on the command in flight and the parameters alone (R40). -/
theorem completes_congr {s' : State} (hi : s'.inflight = s.inflight) (hp : s'.params = s.params)
    (h : ∃ t, completeInFlight s = .next t) : ∃ t, completeInFlight s' = .next t := by
  obtain ⟨t, ht⟩ := h
  cases hc : s.inflight with
  | none => exact ⟨s', completeInFlight_idle (hi.trans hc)⟩
  | some c =>
    obtain ⟨r, hr⟩ := completeInFlight_run s.params c
    rw [hr s hc rfl] at ht
    rw [hr s' (hi.trans hc) hp]
    rcases State.complete_next ht with ⟨w, rfl, -⟩ | ⟨e, info, rfl, -⟩
    · exact ⟨_, rfl⟩
    · exact ⟨_, rfl⟩

/-- A completion without error leaves ERR_INFO 0 (R33). -/
theorem completeInFlight_errInfo {c : InFlight} (hc : s.inflight = some c) (h : completeInFlight s = .next t)
    (he : t.errCode = .noError) : t.errInfo = 0 := by
  rcases completeInFlight_ends (by rw [hc]; exact nofun) h with ⟨w, rfl⟩ | ⟨e, info, hne, rfl⟩
  · rfl
  · exact absurd he hne

theorem fits_zero (p : Params) : fits p 0 = true := (fits_iff p 0).mpr (Nat.pow_pos (by decide))

theorem Regs.fits_writeAll {p : Params} {v : Regs} {ws : List (VReg × Int)} (hv : ∀ r, fits p (v.read r) = true)
    (hw : ∀ x ∈ ws, fits p x.2 = true) (r : VReg) : fits p ((v.writeAll ws).read r) = true := by
  induction ws generalizing v with
  | nil => exact hv r
  | cons w ws ih =>
    rw [Regs.writeAll_cons]
    refine ih (fun q => ?_) fun x hx => hw x (List.mem_cons_of_mem _ hx)
    rw [Regs.read_write]
    split
    · exact hw w List.mem_cons_self
    · exact hv q

/-! ### The invariant, by what a step can do -/

/-- With nothing in flight, only the clauses on the parameters, the values, the buffer and ERR_INFO are left. -/
theorem State.inv_of_idle (hi : t.inflight = none) (hp : t.params.wf = true)
    (hf : ∀ r : VReg, Machine.fits t.params (t.v.read r) = true) (hw : t.buf.wf = true)
    (hb : t.buf.below t.params.bufBytes = true) (he : t.errCode = .noError → t.errInfo = 0)
    (hr : t.resetLine = true → t.buf = []) : t.Inv where
  params := hp
  fits := hf
  bufWf := hw
  bufBelow := hb
  errInfo := he
  inflight _ hc := absurd (hi.symm.trans hc) nofun
  completes := ⟨t, completeInFlight_idle hi⟩
  inReset h := ⟨hi, hr h⟩

theorem Params.four_le_maxLimbs {p : Params} (h : p.wf = true) : 4 ≤ p.maxLimbs := by
  simp only [Params.wf, Bool.and_eq_true, decide_eq_true_eq] at h
  omega

theorem Params.bufBytes_mod_four {p : Params} (h : p.wf = true) : p.bufBytes % 4 = 0 := by
  simp only [Params.wf, Bool.and_eq_true, decide_eq_true_eq] at h
  omega

variable (h : s.Inv)
include h

/-- Fields the invariant does not mention may change, and DONE may be cleared. -/
theorem State.Inv.quiet {ie done ovr : Bool} {args : Args} {vsel : VReg} {rdata : Word} {freeCount : Nat}
    {inputs : List Event} (hdone : s.done = false → done = false) :
    State.Inv { s with
      ie := ie, done := done, ovr := ovr, args := args, vsel := vsel, rdata := rdata, freeCount := freeCount
      inputs := inputs } where
  params := h.params
  fits := h.fits
  bufWf := h.bufWf
  bufBelow := h.bufBelow
  errInfo := h.errInfo
  inflight c hc := by
    obtain ⟨hword, hv, hbuf, hd, hr⟩ := h.inflight c hc
    exact ⟨hword, hv, hbuf, hdone hd, hr⟩
  completes := completes_congr (s := s) rfl rfl h.completes
  inReset := h.inReset

theorem State.Inv.hardReset (level : Bool) : State.Inv { s.hardReset with resetLine := level } :=
  State.inv_of_idle rfl h.params (fun r => by simpa using fits_zero s.params) rfl rfl (fun _ => rfl) fun _ => rfl

theorem State.Inv.setResetLine (level : Bool) : (setResetLine level s).Inv := by
  unfold Machine.setResetLine
  split
  · exact h.hardReset level
  · exact h

theorem State.Inv.softReset (hr : s.resetLine = false) (ie : Bool) : (s.softReset ie).Inv :=
  State.inv_of_idle rfl h.params (fun r => by simpa using fits_zero s.params) h.bufWf h.bufBelow (fun _ => rfl)
    fun hr' => absurd (hr.symm.trans hr') nofun

theorem State.Inv.latch (hr : s.resetLine = false) {w : Word} {u : State} (hu : completeInFlight (s.latch w) = .next u) :
    (s.latch w).Inv where
  params := h.params
  fits := h.fits
  bufWf := h.bufWf
  bufBelow := h.bufBelow
  errInfo := h.errInfo
  inflight c hc := by
    cases hc
    exact ⟨rfl, rfl, rfl, rfl, hr⟩
  completes := ⟨u, hu⟩
  inReset hr' := absurd (hr.symm.trans hr') nofun

/-- A word written to the window stays inside the buffer, whose size is a multiple of 4 (R7). -/
theorem State.Inv.bufWrite (hr : s.resetLine = false) (hidle : s.inflight = none) {k : Nat} (hk : k % 4 = 0)
    (hin : k < s.params.bufBytes) (w : Word) : State.Inv { s with buf := s.buf.write k (wordBytes w) } := by
  have hroom : k + (wordBytes w).length ≤ s.params.bufBytes := by
    have := Params.bufBytes_mod_four h.params
    have : (wordBytes w).length = 4 := rfl
    omega
  exact State.inv_of_idle hidle h.params h.fits (Memory.wf_write _ _ _ h.bufWf)
    (Memory.below_write _ _ _ _ h.bufBelow hroom) h.errInfo fun hr' => absurd (hr.symm.trans hr') nofun

/-- What a command stores, it stores inside the buffer (`WritesOk`). -/
theorem State.Inv.below_store {c : InFlight} {i : Instr} {w : Writes} (hw : WritesOk s.params c i w) :
    (s.buf.write w.dst w.bytes).below s.params.bufBytes = true := by
  cases hs : i.storing with
  | false =>
    rw [hw.bytes hs]
    exact h.bufBelow
  | true =>
    refine Memory.below_write _ _ _ _ h.bufBelow ?_
    have hroom := hw.room
    have hbounds := hw.bounds hs
    rw [hw.dst hs]
    omega

theorem State.Inv.succeed {c : InFlight} {i : Instr} {w : Writes} (hc : s.inflight = some c)
    (hw : WritesOk s.params c i w) : (s.succeed w).Inv := by
  obtain ⟨-, hv, -, -, hr⟩ := h.inflight c hc
  have hfits : ∀ x ∈ w.regs, Machine.fits s.params x.2 = true :=
    hw.fits (Params.four_le_maxLimbs h.params) (hv ▸ h.fits)
  exact State.inv_of_idle rfl h.params (Regs.fits_writeAll h.fits hfits) (Memory.wf_write _ _ _ h.bufWf)
    (h.below_store hw) (fun _ => rfl) fun hr' => absurd (hr.symm.trans hr') nofun

theorem State.Inv.completion (ht : completeInFlight s = .next t) : t.Inv := by
  rcases completeInFlight_next ht with ⟨-, rfl⟩ | ⟨c, hc, ⟨i, w, -, hw, rfl⟩ | ⟨e, info, rfl⟩⟩
  · exact h
  · exact h.succeed hc hw
  · obtain ⟨-, -, -, -, hr⟩ := h.inflight c hc
    exact State.inv_of_idle rfl h.params h.fits h.bufWf h.bufBelow (completeInFlight_errInfo hc ht)
      fun hr' => absurd (hr.symm.trans hr') nofun

theorem State.Inv.hostEffect (hr : s.resetLine = false) {o : Nat} {op : HostOp} (ht : HostEffect s o op t) : t.Inv := by
  cases ht with
  | quiet ie done ovr args vsel rdata freeCount hdone => exact h.quiet hdone
  | softReset w => exact h.softReset hr _
  | issue w u hidle hu => exact h.latch hr hu
  | bufWrite k w hidle hk hin => exact h.bufWrite hr hidle hk hin w

theorem State.Inv.handle {e : Event} (ht : handle e s = .next t) : t.Inv := by
  cases e with
  | access width o op =>
    obtain ⟨hr, heff⟩ := hostAccess_next ht
    exact h.hostEffect hr heff
  | hardReset level =>
    cases ht
    exact h.setResetLine level
  | sequencer => exact h.completion ht

end

/-- Settles O11: each kind of step keeps the invariant, a completion by `WritesOk`, an issue because it answers only when
the command can complete. -/
theorem stepKeepsTheInvariant : Obligations.StepKeepsTheInvariant := by
  intro s t h ht
  rcases step_next ht with hc | ⟨e, rest, -, he⟩
  · exact h.completion hc
  · exact (h.quiet id).handle he

end Sys2Proof.Machine
end

section
/-! PROOFS. The statements of 10_state.md: host reads and writes, register by register (R24 to R39). -/

namespace Sys2Proof.Machine

/-! ### Writes (R26, R27, R29, R35) -/

/-- A legal write of a register of the map. -/
theorem step_writeReg {s : State} {o : BitVec 17} {r : HostReg} {w : Word} {rest : List Event}
    (h : s.inputs = .access 32 o (.write w) :: rest) (hr : s.resetLine = false) (hreg : (o.toNat, r) ∈ regMap)
    (ho : o.toNat % 4 = 0) : step s = hostWrite r w { s with inputs := rest } := by
  rw [step_write h hr ho, regAt_register _ _ _ hreg]

/-- Settles O9: each of the six writes is its own arm of `hostWrite`. -/
theorem argumentWritesLeaveTheRunningCommand : Obligations.ArgumentWritesLeaveTheRunningCommand := by
  intro s w rest hr
  refine ⟨fun h => ?_, fun h => ?_, fun h => ?_, fun h => ?_, fun h => ?_, fun h hw => ?_⟩
  · exact step_writeReg (r := .aSrc) h hr (by decide) (by decide)
  · exact step_writeReg (r := .aLen) h hr (by decide) (by decide)
  · exact step_writeReg (r := .aDst) h hr (by decide) (by decide)
  · exact step_writeReg (r := .aCap) h hr (by decide) (by decide)
  · exact step_writeReg (r := .vsel) h hr (by decide) (by decide)
  · rw [step_writeReg (r := .ctrl) h hr (by decide) (by decide), hostWrite, hw]
    rfl

/-! ### STATUS (R27) -/

/-- Five flags in bits 0 to 4 of a word, and 0 above. -/
theorem flagBits (b0 b1 b2 b3 b4 : Bool) (k : Nat) :
    (BitVec.ofNat 32 (b0.toNat + 2 * b1.toNat + 4 * b2.toNat + 8 * b3.toNat + 16 * b4.toNat)).getLsbD k =
      [b0, b1, b2, b3, b4].getD k false := by
  rcases Nat.lt_or_ge k 5 with hk | hk
  · revert b0 b1 b2 b3 b4
    interval_cases k <;> decide
  · have hlt : b0.toNat + 2 * b1.toNat + 4 * b2.toNat + 8 * b3.toNat + 16 * b4.toNat < 2 ^ k := by
      have h32 : 2 ^ 5 ≤ 2 ^ k := Nat.pow_le_pow_right (by decide) hk
      have := b0.toNat_le
      have := b1.toNat_le
      have := b2.toNat_le
      have := b3.toNat_le
      have := b4.toNat_le
      omega
    rw [BitVec.getLsbD_ofNat, Nat.testBit_lt_two_pow hlt, Bool.and_false, List.getD_eq_default _ _ hk]

theorem err_eq (s : State) : s.err = decide (s.errCode ≠ .noError) := by
  unfold State.err
  cases s.errCode <;> rfl

/-- Settles O21: the bits are those of `flagBits`; the write is the STATUS arm of `hostWrite`. -/
theorem statusShowsAndClearsItsBits : Obligations.StatusShowsAndClearsItsBits := by
  constructor
  · intro s
    have bit (k : Nat) : s.statusWord.getLsbD k = [s.busy, s.done, s.err, s.ovr, s.irq].getD k false := flagBits ..
    refine ⟨bit 0, bit 1, (bit 2).trans (err_eq s), bit 3, bit 4, fun k hk => ?_⟩
    rw [bit k, List.getD_eq_default _ _ hk]
  · intro s w rest h hr
    have clear (flag clr : Bool) : (flag && !clr) = if clr then false else flag := by cases flag <;> cases clr <;> rfl
    rw [step_writeReg (r := .status) h hr (by decide) (by decide), hostWrite, clear, clear]

/-! ### Reads with no command in flight -/

/-- With no command in flight a legal read of what stands at its offset returns the exact value. -/
theorem step_read_idle {s : State} {o : BitVec 17} {rest : List Event} {w : Word}
    (h : s.inputs = .access 32 o .read :: rest) (hr : s.resetLine = false) (hi : s.inflight = none)
    (ho : o.toNat % 4 = 0) (hw : s.readReg (regAt s.params o.toNat) = some w) :
    step s = .next { s with inputs := rest, rdata := w } := by
  have hbusy : State.busy { s with inputs := rest } = false := busy_eq_false.mpr hi
  have hval : State.readReg { s with inputs := rest } (regAt s.params o.toNat) = some w := by
    rw [← hw]
    cases regAt s.params o.toNat <;> rfl
  rw [step_read h hr ho, hostRead, hbusy, Bool.false_and, hval]
  rfl

/-- The CTRL word is IE in bit 0 and 0 above (R26). -/
theorem ctrlWord_bits (s : State) (k : Nat) : s.ctrlWord.getLsbD k = [s.ie].getD k false := by
  cases k with
  | zero => unfold State.ctrlWord; cases s.ie <;> rfl
  | succ k =>
    have hlt : s.ie.toNat < 2 ^ (k + 1) := Nat.lt_of_le_of_lt s.ie.toNat_le (Nat.one_lt_two_pow k.succ_ne_zero)
    rw [State.ctrlWord, BitVec.getLsbD_ofNat, Nat.testBit_lt_two_pow hlt, Bool.and_false]
    rfl

/-- Settles O18: the list is the first sixteen entries of the register map, each with what `readReg` gives it. -/
theorem idleReadsAreExact : Obligations.IdleReadsAreExact := by
  constructor
  · intro s
    exact ⟨ctrlWord_bits s 0, fun k hk => by rw [ctrlWord_bits, List.getD_eq_default _ _ hk]⟩
  · intro s o rest w h hr hi hmem
    have hmap : (o.toNat, some w) ∈ (regMap.take 16).map fun e => (e.1, s.readReg e.2) :=
      List.mem_map_of_mem (f := fun e : Nat × Word => (e.1, some e.2)) hmem
    obtain ⟨⟨o', r⟩, hin, he⟩ := List.mem_map.mp hmap
    obtain ⟨rfl, hval⟩ := Prod.mk.inj he
    have hreg : (o.toNat, r) ∈ regMap := List.mem_of_mem_take hin
    have haligned : ∀ e ∈ regMap, e.1 % 4 = 0 := by decide
    refine step_read_idle h hr hi (haligned _ hreg) ?_
    rwa [regAt_register _ _ _ hreg]

/-- Settles O23: the sign is `sext32_sign`, limb k is `limbs_getD`. -/
theorem valueWindowShowsTheSelectedRegister : Obligations.ValueWindowShowsTheSelectedRegister := by
  intro s off rest hr hi h
  refine ⟨fun ho => ?_, fun ho => ?_, fun k hk hk' ho => ?_⟩
  · refine step_read_idle h hr hi (by omega) ?_
    rw [ho, regAt_register s.params 0x44 .vsign (by decide), State.readReg, sext32_sign]
    rfl
  · refine step_read_idle h hr hi (by omega) ?_
    rw [ho, regAt_register s.params 0x48 .vlen (by decide), State.readReg]
  · have hlimb : (off.toNat - 0x1000) / 4 = k := by omega
    refine step_read_idle h hr hi (by omega) ?_
    rw [regAt_window _ _ (by omega) (by omega), hlimb, if_pos hk, State.readReg, limbs_getD]

/-! ### The buffer window (R39) -/

/-- A word of the window is unreadable when one of its bytes is unwritten (R23). -/
theorem bufferWord_eq_none {m : Memory} {o j : Nat} (hj : j < 4) (h : m.byteAt (o + j) = none) :
    bufferWord m o = none := by
  unfold bufferWord
  split
  · next h0 h1 h2 h3 =>
    interval_cases j
    · exact absurd (h.symm.trans h0) nofun
    · exact absurd (h.symm.trans h1) nofun
    · exact absurd (h.symm.trans h2) nofun
    · exact absurd (h.symm.trans h3) nofun
  · rfl

theorem regAt_bufWin {p : Params} {o k : Nat} (h : o = 0x10000 + k) (hk : k < p.bufBytes) : regAt p o = .bufWin k := by
  have hsub : o - 0x10000 = k := by omega
  rw [regAt_buffer p o (by omega), hsub, if_pos hk]

/-- Settles O22: reads by `bufferWord`, the write by the laws of `Memory.write`. -/
theorem bufferWindowIsLittleEndian : Obligations.BufferWindowIsLittleEndian := by
  intro s off o rest hr hi hoff hal hin
  have hreg : regAt s.params off.toNat = .bufWin o := regAt_bufWin hoff hin
  have ho : off.toNat % 4 = 0 := by omega
  have hbusy : State.busy { s with inputs := rest } = false := busy_eq_false.mpr hi
  refine ⟨fun b0 b1 b2 b3 h0 h1 h2 h3 h => ?_, fun j hj hnone h => ?_, fun w h => ?_⟩
  · refine step_read_idle h hr hi ho ?_
    rw [hreg, State.readReg, bufferWord, h0, h1, h2, h3]
  · rw [step_read h hr ho, hreg, hostRead, hbusy, Bool.false_and, State.readReg, bufferWord_eq_none hj hnone]
    rfl
  · have inside (i : Nat) (hi : i < 4) := s.buf.byteAt_write_inside o i (wordBytes w) hi
    refine ⟨s.buf.write o (wordBytes w), ?_, inside 0 (by decide), inside 1 (by decide), inside 2 (by decide),
      inside 3 (by decide), fun x hx => s.buf.byteAt_write_outside o x (wordBytes w) hx⟩
    rw [step_write h hr ho, hreg, hostWrite, hbusy]
    rfl

end Sys2Proof.Machine
end

section
/-! PROOFS. The statements of 10_state.md: the sequencer's turn and the placed command word (R17, R28, R41). -/

namespace Sys2Proof.Machine

/-- Settles O5: the sequencer has the turn by its event or when no event is left, and then the word in flight decides. -/
theorem stepRunsInFlightCommand : Obligations.StepRunsInFlightCommand := by
  refine ⟨fun s c hc => ⟨fun i hd => ⟨fun rest h => ?_, fun h => ?_⟩, fun hd => ⟨fun rest h => ?_, fun h => ?_⟩⟩,
    fun s hi => ⟨fun rest h => ?_, fun h => ?_⟩, fun s rest hr h => ?_⟩
  · rw [step_sequencer h]
    exact completeInFlight_exec hc hd
  · rw [step_idle h]
    exact completeInFlight_exec hc hd
  · rw [step_sequencer h]
    exact completeInFlight_illegal hc hd
  · rw [step_idle h]
    exact completeInFlight_illegal hc hd
  · rw [step_sequencer h]
    exact completeInFlight_idle hi
  · rw [step_idle h]
    exact completeInFlight_idle hi
  · rw [step_event h, handle, setResetLine, hr]
    rfl

/-- Settles O6: `withFetchWord` leaves the word in flight and the sequencer's turn next. -/
theorem placedWordRunsNext : Obligations.PlacedWordRunsNext := by
  intro s nbits n i hd
  obtain ⟨w, hw, hdec⟩ := Option.bind_eq_some_iff.mp hd
  refine ⟨w, hw, ?_⟩
  rw [State.withFetchWord, hw, step_sequencer rfl]
  exact completeInFlight_exec rfl hdec

end Sys2Proof.Machine
end

section
/-! PROOFS. The statements of 10_state.md: which commands write R_VAL and R_LEN (R30, R31, R42). -/

namespace Sys2Proof.Machine

theorem signWord_cases (x : Int) : signWord x = 0xFFFFFFFF ∨ signWord x = 0 ∨ signWord x = 1 := by
  unfold signWord
  split
  · exact .inl rfl
  · split
    · exact .inr (.inl rfl)
    · exact .inr (.inr rfl)

theorem flagWord_cases (b : Bool) : flagWord b = 0 ∨ flagWord b = 1 := by
  cases b
  · exact .inl rfl
  · exact .inr rfl

section
variable {s t : State}

/-- A command that answers a next state completes the command in flight. -/
theorem command_next {body : InFlight → Run Writes} (h : s.command body = .next t) :
    ∃ c, s.inflight = some c ∧ s.complete (body c) = .next t := by
  cases hc : s.inflight with
  | none =>
    rw [State.command, hc] at h
    cases h
  | some c => exact ⟨c, rfl, State.command_eq hc body ▸ h⟩

/-- What a command whose one write is R_VAL leaves there. -/
theorem command_setVal {x : InFlight → Word} (h : s.command (fun c => setVal (x c)) = .next t) : ∃ c, t.rVal = x c := by
  obtain ⟨c, -, hn⟩ := command_next h
  rw [complete_setVal] at hn
  cases hn
  exact ⟨c, rfl⟩

/-- A completion with the code of no error is a success: its writes took effect. -/
theorem command_noError {body : InFlight → Run Writes} (h : s.command body = .next t)
    (hb : ∀ c, RaisesOnly realErrors (body c)) (he : t.errCode = .noError) : ∃ c w, body c = .ok w ∧ t = s.succeed w := by
  obtain ⟨c, -, hn⟩ := command_next h
  rcases State.complete_next hn with ⟨w, hw, ht⟩ | ⟨e, info, hr, rfl⟩
  · exact ⟨c, w, hw, ht⟩
  · exact absurd he ((mem_realErrors e).mp (hb c e info hr))

theorem straw_rVal {va : VReg} (h : exec (.straw va) s = .next t) (he : t.errCode = .noError) :
    ∃ c : InFlight, t.rVal = signWord (c.v.read va) := by
  obtain ⟨c, w, hw, rfl⟩ := command_noError h (fun c => raisesOnly_withDest (by decide)
    (raisesOnly_ite (raisesOnly_raise (by decide)) raisesOnly_ok)) he
  obtain ⟨-, hw⟩ := withDest_ok.mp hw
  obtain ⟨-, hw⟩ := ite_raise_ok.mp hw
  cases hw
  exact ⟨c, sext32_sign _⟩

/-- The results of R42 are written by the commands that name them, and only by a success. -/
theorem exec_results {i : Instr} (h : exec i s = .next t) :
    (i.writesVal = false → t.rVal = s.rVal) ∧ (i.storing = false → t.rLen = s.rLen) ∧
      (t.errCode ≠ .noError → t.rVal = s.rVal ∧ t.rLen = s.rLen) := by
  obtain ⟨c, -, ⟨w, hw, rfl⟩ | ⟨e, info, rfl⟩⟩ := exec_next h
  · refine ⟨fun hv => ?_, fun hs => ?_, fun he => absurd rfl he⟩
    · have hnone : w.rVal = none := Option.isSome_eq_false_iff.mp (hw.val.trans hv) |> Option.isNone_iff_eq_none.mp
      rw [State.succeed_rVal, hnone, Option.getD_none]
    · have hnone : w.rLen = none := Option.isSome_eq_false_iff.mp (hw.len.trans hs) |> Option.isNone_iff_eq_none.mp
      rw [State.succeed_rLen, hnone, Option.getD_none]
  · exact ⟨fun _ => rfl, fun _ => rfl, fun _ => ⟨rfl, rfl⟩⟩

end

/-- Settles O29: the frame is `exec_results`; the values are signs (`signWord_cases`) and flags (`flagWord_cases`). -/
theorem onlyTabledCommandsWriteResults : Obligations.OnlyTabledCommandsWriteResults := by
  intro i s t h
  obtain ⟨hval, hlen, herr⟩ := exec_results h
  refine ⟨hval, hlen, herr, fun va vb hi he => ?_, fun va hi => ?_⟩
  · rcases hi with rfl | rfl | rfl | rfl
    case inr.inr.inr =>
      obtain ⟨c, hc⟩ := straw_rVal h he
      exact hc ▸ signWord_cases _
    all_goals
      obtain ⟨c, hc⟩ := command_setVal h
      rw [hc, sext32_sign]
      exact signWord_cases _
  · simp only [List.mem_cons, List.not_mem_nil, or_false] at hi
    rcases hi with rfl | rfl | rfl | rfl | rfl | rfl
    all_goals
      obtain ⟨c, hc⟩ := command_setVal h
      exact hc ▸ flagWord_cases _

end Sys2Proof.Machine
end

section
/-! PROOFS. The statements of 10_state.md: which issues are the model fault of R23, and what the others leave (R28). -/

namespace Sys2Proof.Machine

/-! ### Runs that end without a fault -/

/-- The run ends with writes or with an error of the block. -/
def NeverFaults {α : Type} (r : Run α) : Prop := ∀ f, r ≠ .error (.fault f)

section
variable {α : Type} {p : Params} {c : InFlight}

theorem neverFaults_ok {a : α} : NeverFaults (.ok a) := nofun

theorem neverFaults_raise {e : ErrCode} {info : Nat} : NeverFaults (raise e info : Run α) := nofun

/-- An error handed on is no fault if what raised it never faults. -/
theorem neverFaults_error {β : Type} {r : Run β} {h : Halt} (hr : NeverFaults r) (he : r = .error h) :
    NeverFaults (.error h : Run α) := fun f hf => by
  cases hf
  exact hr f he

theorem neverFaults_ite {q : Prop} [Decidable q] {a b : Run α} (ha : NeverFaults a) (hb : NeverFaults b) :
    NeverFaults (if q then a else b) := by split <;> assumption

theorem neverFaults_withDest {k : Run α} (h : NeverFaults k) : NeverFaults (withDest p c k) :=
  neverFaults_ite h neverFaults_raise

theorem neverFaults_storeValue {r : VReg} {x : Int} : NeverFaults (storeValue p r x) :=
  neverFaults_ite neverFaults_ok neverFaults_raise

theorem neverFaults_storePower {r : VReg} {a : Int} {n : Nat} : NeverFaults (storePower p r a n) := by
  unfold storePower
  split
  · exact neverFaults_raise
  · exact neverFaults_storeValue

theorem neverFaults_emit {bs : List Byte} : NeverFaults (emit c bs) := neverFaults_ite neverFaults_raise neverFaults_ok

theorem neverFaults_emitRun {r : Run (List Byte)} (hr : NeverFaults r) : NeverFaults (emitRun c r) := by
  cases r with
  | error e => exact neverFaults_error hr rfl
  | ok bs => exact neverFaults_emit

theorem neverFaults_scanDigits (r i : Nat) (s : List Byte) : NeverFaults (scanDigits r i s) := by
  induction s generalizing i with
  | nil => exact neverFaults_ok
  | cons b bs ih =>
    unfold scanDigits
    refine neverFaults_ite neverFaults_raise ?_
    split
    · exact neverFaults_raise
    · refine neverFaults_ite ?_ neverFaults_raise
      split
      · exact neverFaults_ok
      · next he => exact neverFaults_error (ih _) he

theorem neverFaults_expMagnitude (e : ExpForm) : NeverFaults (expMagnitude p e) :=
  neverFaults_ite neverFaults_ok (neverFaults_ite (neverFaults_ite neverFaults_ok neverFaults_raise)
    (neverFaults_ite neverFaults_raise (neverFaults_ite neverFaults_ok neverFaults_raise)))

theorem neverFaults_plainNumeral (r : Nat) (s : List Byte) : NeverFaults (plainNumeral r s) := by
  unfold plainNumeral
  dsimp only
  split
  · exact neverFaults_ok
  · next he => exact neverFaults_error (neverFaults_scanDigits _ _ _) he

theorem neverFaults_numeral (r : Nat) (s : List Byte) : NeverFaults (numeral p r s) := by
  unfold numeral
  split
  · split
    · exact neverFaults_ok
    · next he => exact neverFaults_error (neverFaults_expMagnitude _) he
  · exact neverFaults_plainNumeral r s

theorem neverFaults_encodeBlock (b : List Byte) : NeverFaults (encodeBlock p b) :=
  neverFaults_ite neverFaults_raise neverFaults_ok

theorem neverFaults_encodeBlocks {n : Nat} {b : List Byte} (h : b.length = n) :
    NeverFaults (encodeBlocks p (n / 8) b) := by
  obtain ⟨encs, -, -, he⟩ := encodeBlocks_ok p (n / 8) b (by rw [h])
  rw [he]
  exact neverFaults_ok

theorem neverFaults_decodeBlock (t : List Byte) (base : Nat) : NeverFaults (decodeBlock p t base) := fun f hf => by
  obtain ⟨e, info, hraise, -⟩ := decodeBlock_raises hf
  cases hraise

theorem neverFaults_decodeBlocks (q base : Nat) (t : List Byte) : NeverFaults (decodeBlocks p q base t) := fun f hf => by
  obtain ⟨e, info, hraise, -⟩ := decodeBlocks_raises hf
  cases hraise

/-! ### Where a fault comes from -/

theorem withSource_fault {n : Nat} {k : Run α} {f : Fault} :
    withSource p c n k = .error (.fault f) ↔ c.args.src.toNat + n ≤ p.bufBytes ∧ k = .error (.fault f) := by
  unfold withSource
  split <;> simp_all [raise]

theorem withDest_fault {k : Run α} {f : Fault} :
    withDest p c k = .error (.fault f) ↔
      c.args.dst.toNat + c.args.cap.toNat ≤ p.bufBytes ∧ k = .error (.fault f) := by
  unfold withDest
  split <;> simp_all [raise]

theorem ite_raise_fault {q : Prop} [Decidable q] {e : ErrCode} {info : Nat} {k : Run α} {f : Fault} :
    (if q then raise e info else k) = .error (.fault f) ↔ ¬q ∧ k = .error (.fault f) := by
  split <;> simp_all [raise]

theorem readSource_fault {n : Nat} {k : List Byte → Run α} {f : Fault} (hk : ∀ bs, bs.length = n → NeverFaults (k bs)) :
    readSource c n k = .error (.fault f) ↔ c.buf.read c.args.src.toNat n = none ∧ f = .uninitialisedBuffer := by
  unfold readSource
  split
  · next bs hbs => exact iff_of_false (hk bs (Memory.read_length hbs) f) (by rw [hbs]; exact nofun)
  · next hnone =>
    rw [Except.error.injEq, Halt.fault.injEq]
    exact ⟨fun h => ⟨hnone, h.symm⟩, fun h => h.2.symm⟩

end

theorem State.complete_eq_fault {s : State} {r : Run Writes} {f : Fault} :
    s.complete r = .fault f ↔ r = .error (.fault f) := by
  constructor
  · intro h
    match r, h with
    | .error (.fault g), h =>
      cases h
      rfl
  · rintro rfl
    rfl

/-! ### The command that reads an unwritten byte -/

/-- Command i reaches the MemRead of its source range, `span` bytes at A_SRC: both ranges are in bounds, and no check before
the read raises (R57, R130). -/
structure ReachesRead (p : Params) (args : Args) (i : Instr) (span : Nat) : Prop where
  source : i.sourceSpan args = some span
  sourceRange : args.src.toNat + span ≤ p.bufBytes
  destRange : i.storing = true → args.dst.toNat + args.cap.toNat ≤ p.bufBytes
  radix : ∀ vd radix, i = .parse vd radix → radix.toNat ≠ 1 ∧ radix.toNat ≤ 36
  rawBlock : i = .enc58b → 1 ≤ span ∧ span ≤ 8
  lastBlock : i = .dec58 → span % 11 ≠ 1 ∧ span % 11 ≠ 4 ∧ span % 11 ≠ 8

section
variable {s : State} {c : InFlight} {i : Instr} {f : Fault}

theorem exec_ne_fault (hc : s.inflight = some c) (hi : i.sourceSpan c.args = none) : exec i s ≠ .fault f := by
  have key {body : InFlight → Run Writes} (hb : NeverFaults (body c)) : s.command body ≠ .fault f := by
    rw [State.command_eq hc, Ne, State.complete_eq_fault]
    exact hb f
  cases i
  case nop | ldk | mov | neg | cmp | cmpabs | sgn | iszero | isunit | iseven | isodd | ispos | isneg =>
    exact key neverFaults_ok
  case add | sub | mul | sqr => exact key neverFaults_storeValue
  case div | rem => exact key (neverFaults_ite neverFaults_raise neverFaults_ok)
  case divrem | modpow =>
    exact key (neverFaults_ite neverFaults_raise (neverFaults_ite neverFaults_raise neverFaults_ok))
  case pow =>
    exact key (neverFaults_ite neverFaults_raise (neverFaults_ite neverFaults_storeValue
      (neverFaults_ite (neverFaults_ite neverFaults_raise neverFaults_storeValue) neverFaults_storePower)))
  case straw => exact key (neverFaults_withDest (neverFaults_ite neverFaults_raise neverFaults_ok))
  case tobe =>
    exact key (neverFaults_withDest (neverFaults_ite neverFaults_raise (neverFaults_ite neverFaults_raise neverFaults_ok)))
  case tostr => exact key (neverFaults_withDest (neverFaults_ite neverFaults_raise neverFaults_emit))
  case ldraw | frombe | parse | enc58 | dec58 | enc58b | dec58b => cases hi

/-- The read of n bytes that all of Q allow is the read of the span, and it faults on an unwritten byte. -/
theorem unwritten_read_iff {n : Nat} {Q : Prop} (hn : i.sourceSpan c.args = some n)
    (hQ : Q ↔ ReachesRead s.params c.args i n) :
    (Q ∧ c.buf.read c.args.src.toNat n = none) ∧ f = .uninitialisedBuffer ↔
      f = .uninitialisedBuffer ∧
        ∃ span, ReachesRead s.params c.args i span ∧ c.buf.read c.args.src.toNat span = none := by
  constructor
  · rintro ⟨⟨hq, hnone⟩, rfl⟩
    exact ⟨rfl, n, hQ.mp hq, hnone⟩
  · rintro ⟨rfl, span, hr, hnone⟩
    cases hn.symm.trans hr.source
    exact ⟨⟨hQ.mpr hr, hnone⟩, rfl⟩

/-- A command with a source range faults exactly when its MemRead is reached and one of the bytes is unwritten. -/
theorem exec_fault_iff_of_source {n : Nat} (hc : s.inflight = some c) (hi : i.sourceSpan c.args = some n) :
    exec i s = .fault f ↔ f = .uninitialisedBuffer ∧
      ∃ span, ReachesRead s.params c.args i span ∧ c.buf.read c.args.src.toNat span = none := by
  have key (body : InFlight → Run Writes) : s.command body = .fault f ↔ body c = .error (.fault f) := by
    rw [State.command_eq hc, State.complete_eq_fault]
  cases i
  case ldraw =>
    rw [exec, execLdraw, key, withSource_fault, readSource_fault, ← and_assoc]
    · exact unwritten_read_iff rfl ⟨fun h => ⟨rfl, h, nofun, nofun, nofun, nofun⟩, fun h => h.sourceRange⟩
    · intro bs _
      dsimp only
      split
      · exact neverFaults_raise
      · exact neverFaults_storeValue
  case frombe =>
    rw [exec, execFrombe, key, withSource_fault, readSource_fault fun _ _ => neverFaults_storeValue, ← and_assoc]
    exact unwritten_read_iff rfl ⟨fun h => ⟨rfl, h, nofun, nofun, nofun, nofun⟩, fun h => h.sourceRange⟩
  case parse vd radix =>
    rw [exec, execParse, key, withSource_fault, ite_raise_fault, readSource_fault, ← and_assoc, ← and_assoc]
    · refine unwritten_read_iff rfl ⟨fun ⟨hsrc, hr⟩ => ⟨rfl, hsrc, nofun, fun vd' radix' he => ?_, nofun, nofun⟩,
        fun h => ⟨h.sourceRange, ?_⟩⟩
      · cases he
        omega
      · have := h.radix vd radix rfl
        omega
    · intro bs _
      split
      · exact neverFaults_storeValue
      · next he => exact neverFaults_error (neverFaults_numeral _ _) he
  case enc58 =>
    rw [exec, execEnc58, key, withSource_fault, withDest_fault,
      readSource_fault fun _ hb => neverFaults_emitRun (neverFaults_encodeBlocks hb), ← and_assoc, ← and_assoc]
    exact unwritten_read_iff rfl ⟨fun ⟨hsrc, hdst⟩ => ⟨rfl, hsrc, fun _ => hdst, nofun, nofun, nofun⟩,
      fun h => ⟨h.sourceRange, h.destRange rfl⟩⟩
  case dec58 =>
    rw [exec, execDec58, key, withSource_fault, withDest_fault, ite_raise_fault,
      readSource_fault fun _ _ => neverFaults_emitRun (neverFaults_decodeBlocks _ _ _), ← and_assoc, ← and_assoc,
      ← and_assoc]
    refine unwritten_read_iff rfl ⟨fun ⟨⟨hsrc, hdst⟩, hlen⟩ => ⟨rfl, hsrc, fun _ => hdst, nofun, nofun, fun _ => ?_⟩,
      fun h => ⟨⟨h.sourceRange, h.destRange rfl⟩, ?_⟩⟩
    · omega
    · have := h.lastBlock rfl
      omega
  case enc58b =>
    rw [exec, execEnc58b, key, withSource_fault, withDest_fault, ite_raise_fault,
      readSource_fault fun _ _ => neverFaults_emitRun (neverFaults_encodeBlock _), ← and_assoc, ← and_assoc,
      ← and_assoc]
    refine unwritten_read_iff rfl ⟨fun ⟨⟨hsrc, hdst⟩, hlen⟩ => ⟨rfl, hsrc, fun _ => hdst, nofun, fun _ => ?_, nofun⟩,
      fun h => ⟨⟨h.sourceRange, h.destRange rfl⟩, ?_⟩⟩
    · omega
    · have := h.rawBlock rfl
      omega
  case dec58b =>
    rw [exec, execDec58b, key, withSource_fault, withDest_fault,
      readSource_fault fun _ _ => neverFaults_emitRun (neverFaults_decodeBlock _ _), ← and_assoc, ← and_assoc]
    exact unwritten_read_iff rfl ⟨fun ⟨hsrc, hdst⟩ => ⟨rfl, hsrc, fun _ => hdst, nofun, nofun, nofun⟩,
      fun h => ⟨h.sourceRange, h.destRange rfl⟩⟩
  case nop | ldk | mov | straw | tobe | tostr | add | sub | neg | mul | sqr | divrem | div | rem | pow | modpow | cmp
      | cmpabs | sgn | iszero | isunit | iseven | isodd | ispos | isneg => cases hi

/-- A command faults exactly when its MemRead is reached and one of the bytes is unwritten (R23; log entry 6). -/
theorem exec_fault_iff (hc : s.inflight = some c) :
    exec i s = .fault f ↔ f = .uninitialisedBuffer ∧
      ∃ span, ReachesRead s.params c.args i span ∧ c.buf.read c.args.src.toNat span = none := by
  cases hi : i.sourceSpan c.args with
  | none =>
    refine iff_of_false (exec_ne_fault hc hi) ?_
    rintro ⟨-, span, hr, -⟩
    exact absurd (hi.symm.trans hr.source) nofun
  | some n => exact exec_fault_iff_of_source hc hi

/-! ### Issue (R28) -/

/-- An issue whose command would fault is that fault. -/
theorem issue_of_fault {w : Word} (h : completeInFlight (s.latch w) = .fault f) : issue w s = .fault f := by
  rw [issue, h]

/-- Every other issue leaves the latched command. -/
theorem issue_of_no_fault {w : Word} (h : ∀ f, completeInFlight (s.latch w) ≠ .fault f) :
    issue w s = .next (s.latch w) := by
  obtain ⟨r, hr⟩ := completeInFlight_run s.params { word := w, args := s.args, v := s.v, buf := s.buf }
  have hrun : completeInFlight (s.latch w) = (s.latch w).complete r := hr (s.latch w) rfl rfl
  match r, hrun with
  | .ok _, hrun | .error (.raise _ _), hrun => rw [issue, hrun]; rfl
  | .error (.fault f), hrun => exact absurd hrun (h f)

/-- The issue of a legal word faults exactly when its command reads an unwritten byte. -/
theorem completeInFlight_latch_fault_iff {w : Word} (hd : decode w = some i) :
    completeInFlight (s.latch w) = .fault f ↔ f = .uninitialisedBuffer ∧
      ∃ span, ReachesRead s.params s.args i span ∧ s.buf.read s.args.src.toNat span = none := by
  rw [completeInFlight_exec (State.latch_inflight s w) hd]
  exact exec_fault_iff (State.latch_inflight s w)

end

theorem step_cmd_idle {s : State} {w : Word} {rest : List Event}
    (h : s.inputs = .access 32 0x0000C (.write w) :: rest) (hr : s.resetLine = false) (hi : s.inflight = none) :
    step s = issue w { s with inputs := rest } := by
  have hbusy : State.busy { s with inputs := rest } = false := busy_eq_false.mpr hi
  rw [step_writeReg (r := .cmd) h hr (by decide) (by decide), hostWrite, hbusy]
  rfl

theorem step_cmd_busy {s : State} {c : InFlight} {w : Word} {rest : List Event}
    (h : s.inputs = .access 32 0x0000C (.write w) :: rest) (hr : s.resetLine = false) (hc : s.inflight = some c) :
    step s = .next { s with inputs := rest, ovr := true } := by
  have hbusy : State.busy { s with inputs := rest } = true := by rw [State.busy, hc]; rfl
  rw [step_writeReg (r := .cmd) h hr (by decide) (by decide), hostWrite, hbusy]
  rfl

/-- Settles O8: the premises say that the read is reached (`ReachesRead`) and that a byte of it is unwritten. -/
theorem unwrittenSourceByteFaults : Obligations.UnwrittenSourceByteFaults := by
  intro s w i rest span a h hr hi hd hspan hsrc hdst hlo hhi hbyte hradix hraw hlast
  rw [step_cmd_idle h hr hi]
  refine issue_of_fault ((completeInFlight_latch_fault_iff hd).mpr ⟨rfl, span, ?_, ?_⟩)
  · exact ⟨hspan, hsrc, hdst, hradix, fun he => ⟨by omega, hraw he⟩, hlast⟩
  · have ha : s.args.src.toNat + (a - s.args.src.toNat) = a := by omega
    exact (Memory.read_eq_none _ _ _).mpr ⟨a - s.args.src.toNat, by omega, by rw [ha]; exact hbyte⟩

/-- Settles O7: an issue that faulted would read an unwritten byte, which the premise excludes. -/
theorem cmdWriteIssuesOrSetsOverrun : Obligations.CmdWriteIssuesOrSetsOverrun := by
  intro s w rest h hr
  refine ⟨fun hi hwritten => ?_, fun c hc => step_cmd_busy h hr hc⟩
  rw [step_cmd_idle h hr hi]
  refine issue_of_no_fault fun f hf => ?_
  cases hd : decode w with
  | none =>
    rw [completeInFlight_illegal (State.latch_inflight _ w) hd] at hf
    cases hf
  | some i =>
    obtain ⟨-, span, hreach, hnone⟩ := (completeInFlight_latch_fault_iff hd).mp hf
    obtain ⟨hspan, hsrc, hdst, hradix, hraw, hlast⟩ := hreach
    obtain ⟨j, hj, hbyte⟩ := (Memory.read_eq_none _ _ _).mp hnone
    exact hwritten i span hd hspan hsrc hdst hradix (fun he => (hraw he).2) hlast (s.args.src.toNat + j) (by omega)
      (Nat.add_lt_add_left hj _) hbyte

end Sys2Proof.Machine
end

section
/-! PROOFS. The statements of 20_memory.md: host accesses the rules forbid, ignore or leave free (R47 to R50). -/

namespace Sys2Proof.Machine

/-! ### Protocol violations (R49) -/

theorem step_access {s : State} {width : Nat} {o : BitVec 17} {op : HostOp} {rest : List Event}
    (h : s.inputs = .access width o op :: rest) : step s = hostAccess width o op { s with inputs := rest } :=
  step_event h

theorem hostAccess_inReset {s : State} {width : Nat} {o : BitVec 17} {op : HostOp} (hr : s.resetLine = true) :
    hostAccess width o op s = .fault (.hostProtocolViolation .accessDuringReset) := if_pos hr

theorem hostAccess_notAlignedWord {s : State} {width : Nat} {o : BitVec 17} {op : HostOp} (hr : s.resetLine = false)
    (hbad : width ≠ 32 ∨ o.toNat % 4 ≠ 0) :
    hostAccess width o op s = .fault (.hostProtocolViolation .notAlignedWord) := by
  unfold hostAccess
  rw [if_neg (Bool.not_eq_true _ ▸ hr), if_pos hbad]

theorem busy_eq_true {s : State} : s.busy = true ↔ s.inflight ≠ none := Option.isSome_iff_ne_none

/-- Settles O16: the first two are the checks of `hostAccess` in order, the third is the BUFWIN arm of `hostWrite`. -/
theorem protocolViolationsFault : Obligations.ProtocolViolationsFault := by
  intro s width o op rest h
  refine ⟨fun hr => ?_, fun hr hbad => ?_, fun w hr hwidth hal hop hne hlo hhi => ?_⟩
  · exact (step_access h).trans (hostAccess_inReset hr)
  · exact (step_access h).trans (hostAccess_notAlignedWord hr hbad)
  · subst hwidth hop
    have hreg : regAt s.params o.toNat = .bufWin (o.toNat - 0x10000) := regAt_bufWin (by omega) (by omega)
    have hbusy : State.busy { s with inputs := rest } = true := busy_eq_true.mpr hne
    rw [step_write h hr hal, hreg, hostWrite, if_pos hbusy]

/-! ### Reads (R47, R48, R50) -/

/-- A read that answers changes only the returned word and the count of free words. -/
theorem hostRead_frame {r : HostReg} {s t : State} (h : hostRead r s = .next t) :
    t = { s with rdata := t.rdata, freeCount := t.freeCount } := by
  unfold hostRead at h
  split at h
  · cases h
    rfl
  · split at h
    · cases h
      rfl
    · cases h

/-- Settles O19: an access that answers has passed the checks of R49, so it is a `hostRead`. -/
theorem hostReadsHaveNoSideEffect : Obligations.HostReadsHaveNoSideEffect := by
  intro s t width o rest hin h
  rw [step_access hin, hostAccess] at h
  split at h
  · cases h
  · split at h
    · cases h
    · exact hostRead_frame h

section
variable {s : State} {o : BitVec 17} {rest : List Event}

/-- While a command is in flight a legal read of a volatile register or window returns a free word (R50). -/
theorem step_read_free (h : s.inputs = .access 32 o .read :: rest) (hr : s.resetLine = false) (ho : o.toNat % 4 = 0)
    (hne : s.inflight ≠ none) (hvol : (regAt s.params o.toNat).volatile = true) :
    step s = .next { s with
      inputs := rest, rdata := Config.freeWord s.freeCount, freeCount := s.freeCount + 1 } := by
  have hbusy : State.busy { s with inputs := rest } = true := busy_eq_true.mpr hne
  rw [step_read h hr ho, hostRead, hbusy, hvol]
  rfl

/-- A legal read of a register that is not volatile returns its exact value, whether a command is in flight or not. -/
theorem step_read_exact {w : Word} (h : s.inputs = .access 32 o .read :: rest) (hr : s.resetLine = false)
    (ho : o.toNat % 4 = 0) (hvol : (regAt s.params o.toNat).volatile = false)
    (hw : s.readReg (regAt s.params o.toNat) = some w) : step s = .next { s with inputs := rest, rdata := w } := by
  have hval : State.readReg { s with inputs := rest } (regAt s.params o.toNat) = some w := by
    rw [← hw]
    cases regAt s.params o.toNat <;> rfl
  rw [step_read h hr ho, hostRead, hvol, Bool.and_false, hval]
  rfl

end

/-- The offsets of R50's volatile registers and windows. -/
theorem regAt_volatile {p : Params} {o : Nat}
    (h : o ∈ [0x20, 0x24, 0x28, 0x2C, 0x44, 0x48] ∨ (0x1000 ≤ o ∧ o < 0x1000 + 4 * p.maxLimbs ∧ o < 0x10000) ∨
      (0x10000 ≤ o ∧ o < 0x10000 + p.bufBytes)) : (regAt p o).volatile = true := by
  rcases h with hmem | ⟨hlo, hlimb, hhi⟩ | ⟨hlo, hhi⟩
  · have hmap : o ∈ (regMap.filter fun e => e.2.volatile).map Prod.fst := hmem
    obtain ⟨⟨_, r⟩, hr, rfl⟩ := List.mem_map.mp hmap
    obtain ⟨hreg, hvol⟩ := List.mem_filter.mp hr
    rw [regAt_register p _ r hreg]
    exact hvol
  · rw [regAt_window p o hlo hhi, if_pos (by omega)]
    rfl
  · rw [regAt_buffer p o hlo, if_pos (by omega)]
    rfl

/-- Settles O17: the exact ones are the entries of the register map that are not volatile, each with what `readReg`
gives it. -/
theorem busyReadsOfResultsAreFree : Obligations.BusyReadsOfResultsAreFree := by
  intro s o rest h hr ho hne
  refine ⟨fun hoff => step_read_free h hr ho hne (regAt_volatile hoff), fun w hmem => ?_⟩
  have hmap : (o.toNat, some w) ∈
      (regMap.filter fun e => !e.2.volatile).map fun e => (e.1, s.readReg e.2) :=
    List.mem_map_of_mem (f := fun e : Nat × Word => (e.1, some e.2)) hmem
  obtain ⟨⟨_, r⟩, hin, he⟩ := List.mem_map.mp hmap
  obtain ⟨rfl, hval⟩ := Prod.mk.inj he
  obtain ⟨hreg, hvol⟩ := List.mem_filter.mp hin
  have hat : regAt s.params o.toNat = r := regAt_register _ _ _ hreg
  exact step_read_exact h hr ho (by rw [hat]; simpa using hvol) (by rw [hat]; exact hval)

/-! ### Unmapped offsets and read-only registers (R47) -/

/-- What a write to is ignored (R47). -/
def HostReg.readOnly : HostReg → Bool
  | .id | .rVal | .rLen | .errCode | .errInfo | .cfgNv | .cfgMaxl | .cfgBuf | .vsign | .vlen | .vlimb _
  | .unmapped => true
  | .ctrl | .status | .cmd | .aSrc | .aLen | .aDst | .aCap | .vsel | .bufWin _ => false

theorem hostWrite_readOnly {r : HostReg} (h : r.readOnly = true) (w : Word) (s : State) :
    hostWrite r w s = .next s := by
  cases r
  case ctrl | status | cmd | aSrc | aLen | aDst | aCap | vsel | bufWin => cases h
  all_goals rfl

theorem step_write_readOnly {s : State} {o : BitVec 17} {w : Word} {rest : List Event}
    (h : s.inputs = .access 32 o (.write w) :: rest) (hr : s.resetLine = false) (ho : o.toNat % 4 = 0)
    (hro : (regAt s.params o.toNat).readOnly = true) : step s = .next { s with inputs := rest } := by
  rw [step_write h hr ho, hostWrite_readOnly hro]

/-- The holes of the map: between the registers, and above either window (R24). -/
theorem regAt_unmapped {p : Params} {o : Nat}
    (h : (0x3C = o ∨ (0x4C ≤ o ∧ o < 0x1000)) ∨ (0x1000 + 4 * p.maxLimbs ≤ o ∧ o < 0x10000) ∨
      0x10000 + p.bufBytes ≤ o) : regAt p o = .unmapped := by
  rcases h with hhole | ⟨hlo, hhi⟩ | hbuf
  · exact regAt_hole p o (hhole.imp_left Eq.symm)
  · rw [regAt_window p o (by omega) hhi, if_neg (by omega)]
  · rw [regAt_buffer p o (by omega), if_neg (by omega)]

/-- The read-only registers of the map, and the whole range of the value window. -/
theorem regAt_readOnly {p : Params} {o : Nat}
    (h : o ∈ [0x00, 0x20, 0x24, 0x28, 0x2C, 0x30, 0x34, 0x38, 0x44, 0x48] ∨ (0x1000 ≤ o ∧ o < 0x10000)) :
    (regAt p o).readOnly = true := by
  rcases h with hmem | ⟨hlo, hhi⟩
  · have hmap : o ∈ (regMap.filter fun e => e.2.readOnly).map Prod.fst := hmem
    obtain ⟨⟨_, r⟩, hr, rfl⟩ := List.mem_map.mp hmap
    obtain ⟨hreg, hro⟩ := List.mem_filter.mp hr
    rw [regAt_register p _ r hreg]
    exact hro
  · rw [regAt_window p o hlo hhi]
    split <;> rfl

/-- Settles O20: a hole is `.unmapped`, which reads 0 and ignores writes; so do the read-only registers. -/
theorem unmappedAndReadOnlyAreInert : Obligations.UnmappedAndReadOnlyAreInert := by
  intro s o rest hr ho
  refine ⟨fun hoff => ⟨fun h => ?_, fun w h => ?_⟩, fun hoff w h => step_write_readOnly h hr ho (regAt_readOnly hoff)⟩
  · exact step_read_exact h hr ho (by rw [regAt_unmapped hoff]; rfl) (by rw [regAt_unmapped hoff]; rfl)
  · exact step_write_readOnly h hr ho (by rw [regAt_unmapped hoff]; rfl)

end Sys2Proof.Machine
end

section
/-! PROOFS. The statements of 20_memory.md: the buffer ranges of a command and the bytes it leaves alone (R57). -/

namespace Sys2Proof.Machine

/-! ### The range checks of every command (R57, R69, R130) -/

/-- The pseudocode `k` of command i behind its range checks: the source range if it has one, then the destination range if
it stores. -/
def rangeChecked (p : Params) (c : InFlight) (i : Instr) (k : Run Writes) : Run Writes :=
  match i.sourceSpan c.args with
  | some span => withSource p c span (bif i.storing then withDest p c k else k)
  | none => bif i.storing then withDest p c k else k

/-- What a command can raise once its ranges are in bounds. -/
def laterErrors : List ErrCode := realErrors.erase .bufferBounds

section
variable {s t : State} {c : InFlight} {i : Instr}

/-- Every command checks its ranges first, and what follows raises no BufferBounds. -/
theorem exec_rangeChecked (hc : s.inflight = some c) (i : Instr) :
    ∃ k, exec i s = s.complete (rangeChecked s.params c i k) ∧ RaisesOnly laterErrors k := by
  cases i
  all_goals refine ⟨_, State.command_eq hc _, ?_⟩
  case nop | ldk | mov | neg | cmp | cmpabs | sgn | iszero | isunit | iseven | isodd | ispos | isneg =>
    exact raisesOnly_ok
  case add | sub | mul | sqr => exact raisesOnly_storeValue (by decide)
  case div | rem | straw => exact raisesOnly_ite (raisesOnly_raise (by decide)) raisesOnly_ok
  case divrem | modpow | tobe =>
    exact raisesOnly_ite (raisesOnly_raise (by decide)) (raisesOnly_ite (raisesOnly_raise (by decide)) raisesOnly_ok)
  case ldraw =>
    refine raisesOnly_readSource fun bs _ => ?_
    dsimp only
    split
    · exact raisesOnly_raise (by decide)
    · exact raisesOnly_storeValue (by decide)
  case frombe => exact raisesOnly_readSource fun _ _ => raisesOnly_storeValue (by decide)
  case parse =>
    refine raisesOnly_ite (raisesOnly_raise (by decide)) (raisesOnly_readSource fun bs _ => ?_)
    split
    · exact raisesOnly_storeValue (by decide)
    · next he => exact raisesOnly_error (raisesOnly_numeral (by decide) (by decide) (by decide) _ _ _) he
  case tostr => exact raisesOnly_ite (raisesOnly_raise (by decide)) (raisesOnly_emit (by decide))
  case pow =>
    exact raisesOnly_ite (raisesOnly_raise (by decide)) (raisesOnly_ite (raisesOnly_storeValue (by decide))
      (raisesOnly_ite (raisesOnly_ite (raisesOnly_raise (by decide)) (raisesOnly_storeValue (by decide)))
        (raisesOnly_storePower (by decide) _ _ _ _)))
  case enc58 => exact raisesOnly_readSource fun _ hb => raisesOnly_emitRun (by decide) (raisesOnly_encodeBlocks hb)
  case dec58 =>
    exact raisesOnly_ite (raisesOnly_raise (by decide)) (raisesOnly_readSource fun _ _ =>
      raisesOnly_emitRun (by decide) (raisesOnly_decodeBlocks (by decide) (by decide) (by decide) _ _ _ _))
  case enc58b =>
    exact raisesOnly_ite (raisesOnly_raise (by decide)) (raisesOnly_readSource fun _ _ =>
      raisesOnly_emitRun (by decide) (raisesOnly_encodeBlock (by decide) _ _))
  case dec58b =>
    exact raisesOnly_readSource fun _ _ =>
      raisesOnly_emitRun (by decide) (raisesOnly_decodeBlock (by decide) (by decide) (by decide) _ _ _)

variable {p : Params} {k : Run Writes}

theorem rangeChecked_source_out {span : Nat} (hspan : i.sourceSpan c.args = some span)
    (hout : p.bufBytes < c.args.src.toNat + span) : rangeChecked p c i k = raise .bufferBounds 0 := by
  rw [rangeChecked, hspan]
  exact if_neg (by omega)

/-- With the source range in bounds, or none, only the destination check is left. -/
theorem rangeChecked_source_in
    (hin : ∀ span, i.sourceSpan c.args = some span → c.args.src.toNat + span ≤ p.bufBytes) :
    rangeChecked p c i k = bif i.storing then withDest p c k else k := by
  rw [rangeChecked]
  split
  · next span hspan => exact withSource_pos (hin span hspan)
  · rfl

theorem destChecked_out (hs : i.storing = true) (hout : p.bufBytes < c.args.dst.toNat + c.args.cap.toNat) :
    (bif i.storing then withDest p c k else k) = raise .bufferBounds 1 := by
  rw [hs]
  exact if_neg (by omega)

theorem destChecked_in (hin : i.storing = true → c.args.dst.toNat + c.args.cap.toNat ≤ p.bufBytes) :
    (bif i.storing then withDest p c k else k) = k := by
  cases hs : i.storing with
  | false => rfl
  | true => exact withDest_pos (hin hs)

/-- A completion has an error code that its run raises, or none. -/
theorem complete_errCode {es : List ErrCode} (hk : RaisesOnly es k) (h : s.complete k = .next t) :
    t.errCode = .noError ∨ t.errCode ∈ es := by
  rcases State.complete_next h with ⟨w, -, rfl⟩ | ⟨e, info, hr, rfl⟩
  · exact .inl rfl
  · exact .inr (hk e info hr)

/-! ### The bytes a command leaves alone (R57, R131) -/

/-- A command that does not store, or that fails, leaves the buffer. -/
theorem exec_buf_eq (h : exec i s = .next t) (hno : i.storing = false ∨ t.errCode ≠ .noError) : t.buf = s.buf := by
  obtain ⟨c, -, ⟨w, hw, rfl⟩ | ⟨e, info, rfl⟩⟩ := exec_next h
  · rcases hno with hs | he
    · rw [State.succeed_buf, hw.bytes hs, Memory.write_nil]
    · exact absurd rfl he
  · rfl

/-- No command writes outside the A_CAP bytes from A_DST on. -/
theorem exec_byteAt_outside_cap (hc : s.inflight = some c) (h : exec i s = .next t) {x : Nat}
    (hx : x < c.args.dst.toNat ∨ c.args.dst.toNat + c.args.cap.toNat ≤ x) : t.buf.byteAt x = s.buf.byteAt x := by
  cases hs : i.storing with
  | false => rw [exec_buf_eq h (.inl hs)]
  | true =>
    obtain ⟨c', hc', ⟨w, hw, rfl⟩ | ⟨e, info, rfl⟩⟩ := exec_next h
    · cases hc.symm.trans hc'
      have hroom := hw.room
      rw [State.succeed_buf, hw.dst hs]
      exact Memory.byteAt_write_outside _ _ _ _ (by omega)
    · rfl

end

/-- Settles O32: the checks by `exec_rangeChecked`, the frame by `exec_byteAt_outside_cap`. -/
theorem bufferRangesAreChecked : Obligations.BufferRangesAreChecked := by
  intro i s c hc
  obtain ⟨k, hexec, hk⟩ := exec_rangeChecked hc i
  refine ⟨fun span hspan hout => ?_, fun hsrc hs hout => ?_, fun hsrc hdst t h => ?_,
    fun t h x hx => exec_byteAt_outside_cap hc h hx⟩
  · rw [hexec, rangeChecked_source_out hspan hout, complete_raise_eq]
  · rw [hexec, rangeChecked_source_in hsrc, destChecked_out hs hout, complete_raise_eq]
  · rw [hexec, rangeChecked_source_in hsrc, destChecked_in hdst] at h
    rcases complete_errCode hk h with he | he
    · rw [he]
      exact nofun
    · have hnot : ErrCode.bufferBounds ∉ laterErrors := by decide
      exact fun hb => hnot (hb ▸ he)

/-! ### How many bytes a success stores (R31, R82) -/

/-- The bytes a storing command stores for each unit it counts in R_LEN: STRAW counts limbs, the others bytes. -/
def bytesPerLen : Instr → Nat
  | .straw _ => 4
  | _ => 1

/-- The writes store at A_DST the bytes that R_LEN counts in units of `unit` bytes. -/
structure StoresCounted (unit : Nat) (c : InFlight) (w : Writes) : Prop where
  dst : w.dst = c.args.dst.toNat
  count : ∃ l, w.rLen = some l ∧ w.bytes.length = unit * l.toNat

section
variable {s t : State} {c : InFlight} {i : Instr} {w : Writes}

/-- A number no greater than a word is its own word. -/
theorem toNat_ofNat_of_le {n : Nat} {a : Word} (h : n ≤ a.toNat) : (BitVec.ofNat 32 n).toNat = n := by
  rw [BitVec.toNat_ofNat, Nat.mod_eq_of_lt (Nat.lt_of_le_of_lt h a.isLt)]

theorem storesCounted_emit {bs : List Byte} (h : emit c bs = .ok w) : StoresCounted 1 c w := by
  obtain ⟨hroom, rfl⟩ := emit_ok.mp h
  exact ⟨rfl, _, rfl, by rw [toNat_ofNat_of_le hroom, Nat.one_mul]⟩

theorem storesCounted_emitRun {r : Run (List Byte)} (h : emitRun c r = .ok w) : StoresCounted 1 c w := by
  obtain ⟨_, -, h⟩ := emitRun_ok.mp h
  exact storesCounted_emit h

/-- A completion whose writes are counted leaves the buffer, or stores as many bytes as R_LEN then counts. -/
theorem command_stores {unit : Nat} {body : InFlight → Run Writes} (hc : s.inflight = some c)
    (h : s.command body = .next t) (hb : ∀ w, body c = .ok w → StoresCounted unit c w) :
    t.buf = s.buf ∨
      ∃ bs, t.buf = s.buf.write c.args.dst.toNat bs ∧ bs.length = unit * t.rLen.toNat := by
  rw [State.command_eq hc] at h
  rcases State.complete_next h with ⟨w, hw, rfl⟩ | ⟨e, info, -, rfl⟩
  · obtain ⟨hdst, l, hl, hlen⟩ := hb w hw
    exact .inr ⟨w.bytes, by rw [State.succeed_buf, hdst], by rw [State.succeed_rLen, hl, Option.getD_some, hlen]⟩
  · exact .inl rfl

/-- A storing command leaves the buffer, or stores at A_DST as many bytes as it counts in R_LEN. -/
theorem exec_stores (hc : s.inflight = some c) (hs : i.storing = true) (h : exec i s = .next t) :
    t.buf = s.buf ∨
      ∃ bs, t.buf = s.buf.write c.args.dst.toNat bs ∧ bs.length = bytesPerLen i * t.rLen.toNat := by
  cases i
  case straw =>
    refine command_stores hc h fun w hw => ?_
    obtain ⟨-, hw⟩ := withDest_ok.mp hw
    obtain ⟨hroom, hw⟩ := ite_raise_ok.mp hw
    cases hw
    refine ⟨rfl, _, rfl, ?_⟩
    rw [toNat_ofNat_of_le (a := c.args.cap) (by omega), flatMap_limbBytes_length]
    rfl
  case tobe =>
    refine command_stores hc h fun w hw => ?_
    obtain ⟨-, hw⟩ := withDest_ok.mp hw
    obtain ⟨-, hw⟩ := ite_raise_ok.mp hw
    obtain ⟨-, hw⟩ := ite_raise_ok.mp hw
    cases hw
    exact ⟨rfl, _, rfl, by simp [bytesPerLen]⟩
  case tostr =>
    refine command_stores hc h fun w hw => ?_
    obtain ⟨-, hw⟩ := withDest_ok.mp hw
    obtain ⟨-, hw⟩ := ite_raise_ok.mp hw
    exact storesCounted_emit hw
  case enc58 | dec58b =>
    refine command_stores hc h fun w hw => ?_
    obtain ⟨-, hw⟩ := withSource_ok.mp hw
    obtain ⟨-, hw⟩ := withDest_ok.mp hw
    obtain ⟨_, -, hw⟩ := readSource_ok.mp hw
    exact storesCounted_emitRun hw
  case dec58 | enc58b =>
    refine command_stores hc h fun w hw => ?_
    obtain ⟨-, hw⟩ := withSource_ok.mp hw
    obtain ⟨-, hw⟩ := withDest_ok.mp hw
    obtain ⟨-, hw⟩ := ite_raise_ok.mp hw
    obtain ⟨_, -, hw⟩ := readSource_ok.mp hw
    exact storesCounted_emitRun hw
  all_goals cases hs

/-- Every byte outside those that R_LEN counts from A_DST on reads as before. -/
theorem exec_byteAt_outside_len (hc : s.inflight = some c) (hs : i.storing = true) (h : exec i s = .next t) {x : Nat}
    (hx : x < c.args.dst.toNat ∨ c.args.dst.toNat + bytesPerLen i * t.rLen.toNat ≤ x) :
    t.buf.byteAt x = s.buf.byteAt x := by
  rcases exec_stores hc hs h with hbuf | ⟨bs, hbuf, hlen⟩
  · rw [hbuf]
  · rw [hbuf]
    exact Memory.byteAt_write_outside _ _ _ _ (hlen ▸ hx)

theorem bytesPerLen_of_ne_straw (h : ∀ vs, i ≠ .straw vs) : bytesPerLen i = 1 := by
  cases i
  case straw vs => exact absurd rfl (h vs)
  all_goals rfl

end

/-- Settles O31: the stored bytes by the laws of `Memory.write`, the frame by `exec_buf_eq` and
`exec_byteAt_outside_len`. -/
theorem commandsKeepOtherBytes : Obligations.CommandsKeepOtherBytes := by
  refine ⟨fun s a bs => ⟨fun i hi => ?_, fun x hx => s.buf.byteAt_write_outside a x bs hx⟩, fun i s t c hc h => ?_⟩
  · rw [List.getD_eq_getElem _ _ hi]
    exact s.buf.byteAt_write_inside a i bs hi
  · refine ⟨fun hs x => by rw [exec_buf_eq h (.inl hs)], fun he x => by rw [exec_buf_eq h (.inr he)],
      fun _ vs hi x hx => ?_, fun _ hs hne x hx => ?_⟩
    · subst hi
      exact exec_byteAt_outside_len hc rfl h hx
    · refine exec_byteAt_outside_len hc hs h ?_
      rwa [bytesPerLen_of_ne_straw hne, Nat.one_mul]

end Sys2Proof.Machine
end

section
/-! PROOFS. The statements of 30_encoding.md: the decoder and the encoder are inverse to each other, and exactly the words
outside the opcode map are illegal (R65 to R73). -/

namespace Sys2Proof

open Laws.MatchesRow (format opcode)

/-! ### A command's row of the opcode map (R67, R70) -/

/-- (mask, match) of the row of command i. -/
def Instr.row (i : Instr) : Word × Word := ((format i).mask, (opcode i).setWidth 32)

/-- Word w matches the row of command i: (w AND mask) = match (R67). -/
def Instr.Matches (i : Instr) (w : Word) : Prop := w &&& i.row.1 = i.row.2

/-- The command of the same row as i whose operands are the fields of w (R66, R70). -/
def Instr.reread : Instr → Word → Instr
  | .nop, _ => .nop
  | .ldk _ _, w => .ldk (rdField w) (immField w)
  | .mov _ _, w => .mov (rdField w) (rs1Field w)
  | .ldraw _ _, w => .ldraw (rdField w) ((immField w).getLsbD 0)
  | .straw _, w => .straw (rs1Field w)
  | .frombe _, w => .frombe (rdField w)
  | .tobe _, w => .tobe (rs1Field w)
  | .parse _ _, w => .parse (rdField w) (immField w)
  | .tostr _ _, w => .tostr (rs1Field w) (immField w)
  | .add _ _ _, w => .add (rdField w) (rs1Field w) (rs2Field w)
  | .sub _ _ _, w => .sub (rdField w) (rs1Field w) (rs2Field w)
  | .neg _ _, w => .neg (rdField w) (rs1Field w)
  | .mul _ _ _, w => .mul (rdField w) (rs1Field w) (rs2Field w)
  | .sqr _ _, w => .sqr (rdField w) (rs1Field w)
  | .divrem _ _ _ _, w => .divrem (rdField w) (rs3Field w) (rs1Field w) (rs2Field w)
  | .div _ _ _, w => .div (rdField w) (rs1Field w) (rs2Field w)
  | .rem _ _ _, w => .rem (rdField w) (rs1Field w) (rs2Field w)
  | .pow _ _ _, w => .pow (rdField w) (rs1Field w) (rs2Field w)
  | .modpow _ _ _ _, w => .modpow (rdField w) (rs1Field w) (rs2Field w) (rs3Field w)
  | .cmp _ _, w => .cmp (rs1Field w) (rs2Field w)
  | .cmpabs _ _, w => .cmpabs (rs1Field w) (rs2Field w)
  | .sgn _, w => .sgn (rs1Field w)
  | .iszero _, w => .iszero (rs1Field w)
  | .isunit _, w => .isunit (rs1Field w)
  | .iseven _, w => .iseven (rs1Field w)
  | .isodd _, w => .isodd (rs1Field w)
  | .ispos _, w => .ispos (rs1Field w)
  | .isneg _, w => .isneg (rs1Field w)
  | .enc58, _ => .enc58
  | .dec58, _ => .dec58
  | .enc58b, _ => .enc58b
  | .dec58b, _ => .dec58b

section
variable {i : Instr} {w : Word}

theorem opField_of_matches (h : i.Matches w) : opField w = opcode i := opField_of_match (format i) (opcode i) w h

/-! ### The decoder by rows (R71) -/

theorem accept_eq_some {f : Format} {op : BitVec 8} {j : Instr} (h : accept f op w j = some i) :
    w &&& f.mask = op.setWidth 32 ∧ j = i := by
  simpa [accept] using h

/-- What the decoder does with a word that has the opcode of command i. -/
theorem decode_of_opField (h : opField w = opcode i) :
    decode w = if (i.reread w).wf then accept (format i) (opcode i) w (i.reread w) else none := by
  rw [decode, h]
  cases i
  case divrem =>
    show (if rdField w = rs3Field w then none else _) = _
    by_cases hd : rdField w = rs3Field w <;> simp [hd, Instr.reread, Instr.wf, format, opcode]
  all_goals rfl

theorem decode_of_matches (h : i.Matches w) : decode w = if (i.reread w).wf then some (i.reread w) else none := by
  rw [decode_of_opField (opField_of_matches h), accept_match h]

/-- A decoded command has the opcode of its word. -/
theorem opField_of_decode (h : decode w = some i) : opField w = opcode i := by
  unfold decode at h
  split at h
  case h_33 => cases h
  case h_15 ho =>
    split at h
    · cases h
    · obtain ⟨-, rfl⟩ := accept_eq_some h
      exact BitVec.eq_of_toNat_eq ho
  all_goals
    obtain ⟨-, rfl⟩ := accept_eq_some h
    exact BitVec.eq_of_toNat_eq ‹_›

theorem decode_eq_some_iff : decode w = some i ↔ i.wf = true ∧ i.Matches w ∧ i.reread w = i := by
  constructor
  · intro h
    have hrow := decode_of_opField (opField_of_decode h)
    rw [h] at hrow
    split at hrow
    · next hwf =>
      obtain ⟨hm, hr⟩ := accept_eq_some hrow.symm
      exact ⟨hr ▸ hwf, hm, hr⟩
    · cases hrow
  · rintro ⟨hwf, hm, hr⟩
    rw [decode_of_matches hm, hr, if_pos hwf]

/-! ### The encoder by rows (R66, R67) -/

/-- A command's word matches its row. -/
theorem encode_matches : ∀ i : Instr, i.Matches (encode i)
  | .nop => Laws.MatchesRow.nop
  | .ldk _ _ => Laws.MatchesRow.ldk _ _
  | .mov _ _ => Laws.MatchesRow.mov _ _
  | .ldraw _ _ => Laws.MatchesRow.ldraw _ _
  | .straw _ => Laws.MatchesRow.straw _
  | .frombe _ => Laws.MatchesRow.frombe _
  | .tobe _ => Laws.MatchesRow.tobe _
  | .parse _ _ => Laws.MatchesRow.parse _ _
  | .tostr _ _ => Laws.MatchesRow.tostr _ _
  | .add _ _ _ => Laws.MatchesRow.add _ _ _
  | .sub _ _ _ => Laws.MatchesRow.sub _ _ _
  | .neg _ _ => Laws.MatchesRow.neg _ _
  | .mul _ _ _ => Laws.MatchesRow.mul _ _ _
  | .sqr _ _ => Laws.MatchesRow.sqr _ _
  | .divrem _ _ _ _ => Laws.MatchesRow.divrem _ _ _ _
  | .div _ _ _ => Laws.MatchesRow.div _ _ _
  | .rem _ _ _ => Laws.MatchesRow.rem _ _ _
  | .pow _ _ _ => Laws.MatchesRow.pow _ _ _
  | .modpow _ _ _ _ => Laws.MatchesRow.modpow _ _ _ _
  | .cmp _ _ => Laws.MatchesRow.cmp _ _
  | .cmpabs _ _ => Laws.MatchesRow.cmpabs _ _
  | .sgn _ => Laws.MatchesRow.sgn _
  | .iszero _ => Laws.MatchesRow.iszero _
  | .isunit _ => Laws.MatchesRow.isunit _
  | .iseven _ => Laws.MatchesRow.iseven _
  | .isodd _ => Laws.MatchesRow.isodd _
  | .ispos _ => Laws.MatchesRow.ispos _
  | .isneg _ => Laws.MatchesRow.isneg _
  | .enc58 => Laws.MatchesRow.enc58
  | .dec58 => Laws.MatchesRow.dec58
  | .enc58b => Laws.MatchesRow.enc58b
  | .dec58b => Laws.MatchesRow.dec58b

/-- Every operand is read back from the field it was packed into. -/
theorem reread_encode (i : Instr) : i.reread (encode i) = i := by
  cases i
  case ldraw vd neg => cases neg <;> simp [encode, Instr.reread]
  all_goals simp [encode, Instr.reread]

/-- The masks of R67 by fields: 0 where the format has an operand, all ones elsewhere, but for the one operand bit of KS. -/
theorem mask_eq_pack_fields : ∀ f : Format, f.mask = match f with
  | .N | .B => pack 0xFF 15 15 15 15 0xFF
  | .K => pack 0 15 15 15 0 0xFF
  | .KS => pack 0xFE 15 15 15 0 0xFF
  | .R2 => pack 0xFF 15 15 0 0 0xFF
  | .R3 => pack 0xFF 15 0 0 0 0xFF
  | .R4 | .Q => pack 0xFF 0 0 0 0 0xFF
  | .D => pack 0xFF 15 15 15 0 0xFF
  | .S1 => pack 0xFF 15 15 0 15 0xFF
  | .S1I => pack 0 15 15 0 15 0xFF
  | .S2 => pack 0xFF 15 0 0 15 0xFF := by
  intro f
  cases f <;> rfl

/-- A packed word matches a row iff its fields are zero under the mask's and its opcode is the row's. -/
theorem pack_and_eq_setWidth_iff {imm mi op op' : BitVec 8} {a b c d ma mb mc md : VReg} :
    pack imm a b c d op &&& pack mi ma mb mc md 0xFF = op'.setWidth 32 ↔
      imm &&& mi = 0 ∧ maskReg a ma = 0 ∧ maskReg b mb = 0 ∧ maskReg c mc = 0 ∧ maskReg d md = 0 ∧ op = op' := by
  rw [pack_and, setWidth_eq_pack, pack_injective, and_ones]

/-- `and_ones` with the literal as `simp` writes it. -/
theorem and_255 (b : BitVec 8) : b &&& 255#8 = b := and_ones b

/-- A byte with no bit above bit 0 is that bit. -/
theorem lowBit_eq_of_and_eq_zero {imm : BitVec 8} (h : imm &&& 0xFE = 0) : (if imm.getLsbD 0 then 1 else 0) = imm := by
  revert imm
  decide

theorem exists_pack (w : Word) : ∃ imm rs3 rs2 rs1 rd op, w = pack imm rs3 rs2 rs1 rd op :=
  ⟨_, _, _, _, _, _, (pack_fields w).symm⟩

/-- A word that matches a row is the word of the command its fields make: the mask leaves no other bit. -/
theorem encode_reread (h : i.Matches w) : encode (i.reread w) = w := by
  obtain ⟨imm, rs3, rs2, rs1, rd, op, rfl⟩ := exists_pack w
  rw [Instr.Matches, Instr.row, mask_eq_pack_fields] at h
  cases i
  case ldraw =>
    obtain ⟨himm, h3, h2, h1, -, rfl⟩ := pack_and_eq_setWidth_iff.mp h
    rw [maskReg_ones] at h3 h2 h1
    rw [Instr.reread, rdField_pack, immField_pack, encode, lowBit_eq_of_and_eq_zero himm, h3, h2, h1]
    rfl
  all_goals
    obtain ⟨himm, h3, h2, h1, hd, rfl⟩ := pack_and_eq_setWidth_iff.mp h
    simp_all [encode, Instr.reread, opcode, and_255]

end

/-- Settles O1: a command's word matches its row and its fields are the operands. -/
theorem decodeOfEncodeIsIdentity : Obligations.DecodeOfEncodeIsIdentity := fun i hwf =>
  decode_eq_some_iff.mpr ⟨hwf, encode_matches i, reread_encode i⟩

/-- Settles O2: a decoded command is the one its word's fields make, and its word is that word (`encode_reread`). -/
theorem encodeOfDecodeIsIdentity : Obligations.EncodeOfDecodeIsIdentity := by
  intro w i h
  obtain ⟨hwf, hm, hr⟩ := decode_eq_some_iff.mp h
  exact ⟨hwf, by rw [← hr, encode_reread hm]⟩

/-! ### The rows of the opcode map and the illegal words (R70, R72) -/

/-- One command of each row of the opcode map, in its order. -/
def rowSamples : List Instr :=
  [.nop, .ldk 0 0, .mov 0 0, .ldraw 0 false, .straw 0, .frombe 0, .tobe 0, .parse 0 0, .tostr 0 0, .add 0 0 0, .sub 0 0 0,
   .neg 0 0, .mul 0 0 0, .sqr 0 0, .divrem 0 0 0 0, .div 0 0 0, .rem 0 0 0, .pow 0 0 0, .modpow 0 0 0 0, .cmp 0 0,
   .cmpabs 0 0, .sgn 0, .iszero 0, .isunit 0, .iseven 0, .isodd 0, .ispos 0, .isneg 0, .enc58, .dec58, .enc58b, .dec58b]

theorem opcodeRows_eq_map : opcodeRows = rowSamples.map Instr.row := by decide

theorem row_mem_opcodeRows (i : Instr) : i.row ∈ opcodeRows := by
  cases i <;> simp [opcodeRows, Instr.row, format, opcode, Format.mask]

theorem exists_row_of_mem {row : Word × Word} (h : row ∈ opcodeRows) : ∃ i : Instr, i.row = row := by
  rw [opcodeRows_eq_map] at h
  obtain ⟨i, -, hi⟩ := List.mem_map.mp h
  exact ⟨i, hi⟩

theorem rdField_eq_rs3Field_iff {w : Word} : rdField w = rs3Field w ↔ w.extractLsb' 8 4 = w.extractLsb' 20 4 :=
  BitVec.toFin_inj

/-- The one row with ill-formed commands is that of DIVREM. -/
theorem row_of_reread_not_wf {i : Instr} {w : Word} (h : (i.reread w).wf ≠ true) :
    i.row = (0xFF0000FF, 0x20) ∧ rdField w = rs3Field w := by
  cases i
  case divrem => exact ⟨rfl, by simpa [Instr.reread, Instr.wf] using h⟩
  all_goals exact absurd rfl h

theorem decode_eq_none_iff {w : Word} :
    decode w = none ↔
      (∀ row ∈ opcodeRows, w &&& row.1 ≠ row.2) ∨ (w &&& 0xFF0000FF = 0x20 ∧ rdField w = rs3Field w) := by
  constructor
  · intro h
    by_cases hrow : ∃ i : Instr, i.Matches w
    · obtain ⟨i, hm⟩ := hrow
      have hwf : (i.reread w).wf ≠ true := fun hwf => by
        rw [decode_of_matches hm, if_pos hwf] at h
        cases h
      obtain ⟨hi, hd⟩ := row_of_reread_not_wf hwf
      rw [Instr.Matches, hi] at hm
      exact .inr ⟨hm, hd⟩
    · refine .inl fun row hmem hm => hrow ?_
      obtain ⟨i, rfl⟩ := exists_row_of_mem hmem
      exact ⟨i, hm⟩
  · rintro (hno | ⟨hm, hd⟩)
    · rw [Option.eq_none_iff_forall_ne_some]
      intro i h
      obtain ⟨-, hm, -⟩ := decode_eq_some_iff.mp h
      exact hno _ (row_mem_opcodeRows i) hm
    · rw [decode_of_matches (i := .divrem 0 0 0 0) hm, if_neg (by simp [Instr.reread, Instr.wf, hd])]

/-- Settles O3: a word outside every row, or a DIVREM with RD = RD2, decodes to nothing (`decode_eq_none_iff`). -/
theorem illegalWordsCompleteWithIllegalCommand : Obligations.IllegalWordsCompleteWithIllegalCommand := by
  refine fun w => ⟨by rw [decode_eq_none_iff, rdField_eq_rs3Field_iff], fun h s c hc hw => ?_⟩
  subst hw
  exact Machine.completeInFlight_illegal hc h

end Sys2Proof
end

section
/-! PROOFS. The statements of 40_data_movement.md: the rows of the opcode map and the words of the
Example lines, decoded (R65 to R72). -/

namespace Sys2Proof

/-- A row of the opcode map whose every word is well formed: all but DIVREM's. -/
theorem encodes_row (i : Instr) (hwf : ∀ w, (i.reread w).wf = true) : Encodes i.row.1 i.row.2 i.reread :=
  encodes_of (Laws.MatchesRow.format i) (Laws.MatchesRow.opcode i) i.reread _ _ rfl rfl fun w ho => by
    rw [decode_of_opField ho, if_pos (hwf w)]

/-- Settles O4: each word is evaluated. -/
theorem specExampleWordsDecode : Obligations.SpecExampleWordsDecode := by
  unfold Obligations.SpecExampleWordsDecode
  decide

end Sys2Proof
end

section
/-! PROOFS. The statements of 40_data_movement.md: what NOP, LDK, MOV, LDRAW, STRAW, FROMBE and TOBE leave (R77 to R84). -/

namespace Sys2Proof.Machine

/-! ### The registers a command leaves alone (R77) -/

/-- A register that no pending write names keeps its value. -/
theorem Regs.read_writeAll_other {v : Regs} {ws : List (VReg × Int)} {r : VReg} (h : r ∉ ws.map Prod.fst) :
    (v.writeAll ws).read r = v.read r := by
  induction ws generalizing v with
  | nil => rfl
  | cons x ws ih =>
    rw [List.map_cons, List.mem_cons, not_or] at h
    rw [Regs.writeAll_cons, ih h.2, Regs.read_write_other v x.2 h.1]

/-- Settles O30: the pending writes name the destinations (`exec_next`), and an error writes nothing. -/
theorem commandsKeepOtherRegisters : Obligations.CommandsKeepOtherRegisters := by
  refine ⟨fun i s t r h hr => ?_, fun v r q x => ⟨v.read_write_same r x, v.read_write_other x⟩⟩
  obtain ⟨c, -, ⟨w, hw, rfl⟩ | ⟨e, info, rfl⟩⟩ := exec_next h
  · exact Regs.read_writeAll_other (hw.regs ▸ hr)
  · rfl

/-! ### NOP, LDK, MOV (R78 to R80) -/

/-- IMM8 read as signed (R79). -/
theorem toInt_byte (b : Byte) : b.toInt = if b.toNat < 128 then (b.toNat : Int) else (b.toNat : Int) - 256 := by
  rw [BitVec.toInt_eq_toNat_cond]
  split <;> split <;> omega

/-- Settles O34: the rows by `encodes_row`, the results by the completion of one register write. -/
theorem moveResults : Obligations.MoveResults := by
  refine ⟨encodes_row .nop fun _ => rfl, encodes_row (.ldk 0 0) fun _ => rfl, encodes_row (.mov 0 0) fun _ => rfl,
    fun s c hc => ⟨State.command_eq hc _, fun vd imm => ?_, fun vd vs => ?_⟩⟩
  · rw [exec, execLdk, State.command_eq hc, complete_setReg, toInt_byte]
  · rw [exec, execMov, State.command_eq hc, complete_setReg]

/-! ### LDRAW (R81) -/

section
variable {s : State} {c : InFlight} {vd : VReg} {neg : Bool} {bs : List Byte}

/-- LDRAW of words that are all limbs. -/
theorem exec_ldraw_limbs (hc : s.inflight = some c) (hsrc : c.Source bs) (hlen : bs.length = 4 * c.args.len.toNat)
    (hin : c.args.src.toNat + 4 * c.args.len.toNat ≤ s.params.bufBytes)
    (hw : ∀ i, i < c.args.len.toNat → limbWordAt bs i < 10 ^ 7) :
    exec (.ldraw vd neg) s = .next (s.afterResult vd ((if neg then -1 else 1) *
      ((∑ i ∈ Finset.range c.args.len.toNat, limbWordAt bs i * 10 ^ (7 * i) : Nat) : Int))) := by
  rw [exec, execLdraw, State.command_eq hc]
  simp only [withSource_pos hin, readSource_source hsrc hlen, findLimb_none _ _ hlen hw]
  rw [complete_storeValue, signed_eq_mul, valueOf_limbWords _ _ hlen]

/-- LDRAW of words of which word i is the lowest that is no limb. -/
theorem exec_ldraw_invalidDigit (hc : s.inflight = some c) (hsrc : c.Source bs) (hlen : bs.length = 4 * c.args.len.toNat)
    (hin : c.args.src.toNat + 4 * c.args.len.toNat ≤ s.params.bufBytes) {i : Nat} (hi : i < c.args.len.toNat)
    (hw : 10 ^ 7 ≤ limbWordAt bs i) (hl : ∀ j, j < i → limbWordAt bs j < 10 ^ 7) :
    exec (.ldraw vd neg) s = .next (s.afterError .invalidDigit i) := by
  rw [exec, execLdraw, State.command_eq hc]
  simp only [withSource_pos hin, readSource_source hsrc hlen, findLimb_some _ _ hlen i hi hw hl]
  rw [complete_raise_eq]

end

/-- The sign bit of LDRAW's row is bit 0 of IMM8 (R81). -/
theorem immField_getLsbD_zero (w : Word) : (immField w).getLsbD 0 = w.getLsbD 24 := by
  simp [immField]

/-- Settles O35: the search for a word of 10^7 or more finds none, or the lowest. -/
theorem ldrawResult : Obligations.LdrawResult := by
  refine ⟨?_, fun s c vd neg bs hc hsrc hlen hin => ⟨exec_ldraw_limbs hc hsrc hlen hin,
    fun i hi => exec_ldraw_invalidDigit hc hsrc hlen hin hi⟩⟩
  simp only [← immField_getLsbD_zero]
  exact encodes_row (.ldraw 0 false) fun _ => rfl

/-! ### STRAW (R82) -/

/-- The bytes STRAW stores for v: its limbs, 4 little-endian bytes each (R55, R82). -/
def limbString (v : Int) : List Byte := (limbs v).flatMap limbBytes

theorem limbString_length (v : Int) : (limbString v).length = 4 * nlimbs v := flatMap_limbBytes_length _

theorem limbString_getD (v : Int) {i j : Nat} (hi : i < nlimbs v) (hj : j < 4) :
    ((limbString v).getD (4 * i + j) 0).toNat = v.natAbs / 10 ^ (7 * i) % 10 ^ 7 / 256 ^ j % 256 := by
  rw [limbString, flatMap_limbBytes_getD _ i j hi hj, limbs_getD]

theorem limbWordAt_limbString (v : Int) {i : Nat} (hi : i < nlimbs v) :
    limbWordAt (limbString v) i = (limbs v).getD i 0 := limbWordAt_flatMap _ (limbs_lt v) i hi

section
variable {s t : State} {c : InFlight} {vs : VReg}

theorem exec_straw_outputSpace (hc : s.inflight = some c) (hin : c.args.dst.toNat + c.args.cap.toNat ≤ s.params.bufBytes)
    (hcap : c.args.cap.toNat < 4 * nlimbs (c.v.read vs)) :
    exec (.straw vs) s = .next (s.afterError .outputSpace (4 * nlimbs (c.v.read vs))) := by
  rw [exec, execStraw, State.command_eq hc]
  simp only [withDest_pos hin, if_pos hcap, complete_raise_eq]

theorem exec_straw_stores (hc : s.inflight = some c) (hin : c.args.dst.toNat + c.args.cap.toNat ≤ s.params.bufBytes)
    (hcap : 4 * nlimbs (c.v.read vs) ≤ c.args.cap.toNat) :
    exec (.straw vs) s = .next { s.afterStore c.args.dst.toNat (limbString (c.v.read vs)) with
      rLen := BitVec.ofNat 32 (nlimbs (c.v.read vs)), rVal := signWord (c.v.read vs) } := by
  rw [exec, execStraw, State.command_eq hc]
  simp only [withDest_pos hin, if_neg hcap.not_gt, sext32_sign]
  rfl

/-- STRAW succeeds only with its range in bounds and room for the limbs. -/
theorem straw_success (hc : s.inflight = some c) (h : exec (.straw vs) s = .next t) (he : t.errCode = .noError) :
    c.args.dst.toNat + c.args.cap.toNat ≤ s.params.bufBytes ∧ 4 * nlimbs (c.v.read vs) ≤ c.args.cap.toNat := by
  obtain ⟨-, hout, -⟩ := bufferRangesAreChecked (.straw vs) s c hc
  have hin : c.args.dst.toNat + c.args.cap.toNat ≤ s.params.bufBytes := by
    by_contra hb
    cases h.symm.trans (hout nofun rfl (Nat.lt_of_not_le hb))
    cases he
  refine ⟨hin, ?_⟩
  by_contra hcap
  cases h.symm.trans (exec_straw_outputSpace hc hin (Nat.lt_of_not_le hcap))
  cases he

end

/-- Settles O36: the stored bytes are `limbString`. -/
theorem strawResult : Obligations.StrawResult :=
  ⟨encodes_row (.straw 0) fun _ => rfl, fun _ _ _ hc hin => ⟨exec_straw_outputSpace hc hin, fun hcap =>
    ⟨_, limbString_length _, fun _ _ => limbString_getD _, exec_straw_stores hc hin hcap⟩⟩⟩

/-! ### LDRAW of STRAW's output (R82) -/

/-- A value is its sign times the sum of the words STRAW stores. -/
theorem signed_sum_limbString (v : Int) :
    (if decide (signWord v = 0xFFFFFFFF) then -1 else 1) *
      ((∑ i ∈ Finset.range (nlimbs v), limbWordAt (limbString v) i * 10 ^ (7 * i) : Nat) : Int) = v := by
  rw [Finset.sum_congr rfl fun i hi => by rw [limbWordAt_limbString v (Finset.mem_range.mp hi)], sum_limbs]
  simp only [signWord_eq_minus_one, decide_eq_true_eq]
  split <;> omega

/-- Settles O37: LDRAW reads the bytes STRAW stored (`Memory.read_write`), whose words are the limbs. -/
theorem ldrawInvertsStraw : Obligations.LdrawInvertsStraw := by
  intro s t s' c c' vs vd hc h he hc' hp hbuf hsrc hlen hfits
  obtain ⟨hin, hcap⟩ := straw_success hc h he
  cases h.symm.trans (exec_straw_stores hc hin hcap)
  generalize hv : c.v.read vs = v at *
  have hn : c'.args.len.toNat = nlimbs v := by rw [hlen]; exact toNat_ofNat_of_le (a := c.args.cap) (by omega)
  have hsource : c'.Source (limbString v) := by
    rw [source_iff_read, hbuf, hsrc]
    exact Memory.read_write _ _ _
  rw [exec_ldraw_limbs hc' hsource (by rw [limbString_length, hn]) (by rw [hp, hsrc, hn]; omega) fun i hi => ?_, hn,
    signed_sum_limbString, afterResult_of_fits (hp ▸ hfits)]
  rw [hn] at hi
  rw [limbWordAt_limbString v hi, limbs_getD]
  exact Nat.mod_lt _ (by norm_num)

/-! ### FROMBE (R83) -/

/-- Settles O38: the big-endian value is the sum the spec writes (`beValue_eq_sumOf`). -/
theorem frombeResult : Obligations.FrombeResult := by
  refine ⟨encodes_row (.frombe 0) fun _ => rfl, fun s c vd bs hc hsrc hlen hin => ?_⟩
  rw [exec, execFrombe, State.command_eq hc]
  simp only [withSource_pos hin, readSource_source hsrc hlen, complete_storeValue, beValue_eq_sumOf]

/-! ### TOBE (R84) -/

section
variable {s : State} {c : InFlight} {vs : VReg}

/-- The digit count TOBE compares with A_CAP says whether the value is 256^A_CAP or more. -/
theorem lt_digits_length_iff (n m : Nat) : n < (digits 256 m).length ↔ 256 ^ n ≤ m := by
  rw [← not_le, digits_length_le (by norm_num), not_lt]

theorem exec_tobe_negative (hc : s.inflight = some c) (hin : c.args.dst.toNat + c.args.cap.toNat ≤ s.params.bufBytes)
    (hv : c.v.read vs < 0) : exec (.tobe vs) s = .next (s.afterError .negativeOperand 0) := by
  rw [exec, execTobe, State.command_eq hc]
  simp only [withDest_pos hin, if_pos hv, complete_raise_eq]

theorem exec_tobe_overflow (hc : s.inflight = some c) (hin : c.args.dst.toNat + c.args.cap.toNat ≤ s.params.bufBytes)
    {m : Nat} (hv : c.v.read vs = m) (hm : 256 ^ c.args.cap.toNat ≤ m) :
    exec (.tobe vs) s = .next (s.afterError .overflow 0) := by
  rw [exec, execTobe, State.command_eq hc]
  simp only [withDest_pos hin, hv, Int.natAbs_natCast, if_neg (Int.natCast_nonneg m).not_gt,
    if_pos ((lt_digits_length_iff _ _).mpr hm), complete_raise_eq]

theorem exec_tobe_stores (hc : s.inflight = some c) (hin : c.args.dst.toNat + c.args.cap.toNat ≤ s.params.bufBytes)
    {m : Nat} (hv : c.v.read vs = m) (hm : m < 256 ^ c.args.cap.toNat) :
    exec (.tobe vs) s = .next (s.afterStore c.args.dst.toNat (beBytes c.args.cap.toNat m)) := by
  rw [exec, execTobe, State.command_eq hc, State.afterStore, beBytes_length]
  simp only [withDest_pos hin, hv, Int.natAbs_natCast, if_neg (Int.natCast_nonneg m).not_gt,
    if_neg (mt (lt_digits_length_iff _ _).mp hm.not_ge)]
  rfl

end

/-- Settles O39: a value that is not negative is a natural number, below 256^A_CAP or not. -/
theorem tobeResult : Obligations.TobeResult := by
  refine ⟨encodes_row (.tobe 0) fun _ => rfl, fun s c vs hc hin => ⟨exec_tobe_negative hc hin, fun hm => ?_,
    fun h0 hm => ?_⟩⟩
  · obtain ⟨m, hv⟩ := Int.eq_ofNat_of_zero_le (le_trans (by positivity) hm)
    exact exec_tobe_overflow hc hin hv (by exact_mod_cast hv ▸ hm)
  · obtain ⟨m, hv⟩ := Int.eq_ofNat_of_zero_le h0
    have hm' : m < 256 ^ c.args.cap.toNat := by exact_mod_cast hv ▸ hm
    refine ⟨_, beBytes_length _ m, ?_, exec_tobe_stores hc hin hv hm'⟩
    rw [← beValue_eq_sumOf, beValue_beBytes _ _ hm', hv]

end Sys2Proof.Machine
end

section
/-! PROOFS. The statements of 41_parse_format.md: what PARSE leaves (R85 to R87). -/

namespace Sys2Proof.Machine

/-! ### The completion of PARSE, by what the numeral comes to (R87) -/

section
variable {s : State} {c : InFlight} {vd : VReg} {radix : BitVec 8} {str : List Byte}

theorem exec_parse_invalidRadix (hc : s.inflight = some c)
    (hin : c.args.src.toNat + c.args.len.toNat ≤ s.params.bufBytes) (hr : radix.toNat = 1 ∨ 36 < radix.toNat) :
    exec (.parse vd radix) s = .next (s.afterError .invalidRadix radix.toNat) := by
  rw [exec, execParse, State.command_eq hc]
  simp only [withSource_pos hin, if_pos hr, complete_raise_eq]

theorem exec_parse_of_ok (hc : s.inflight = some c) (hsrc : c.Source str) (hlen : str.length = c.args.len.toNat)
    (hin : c.args.src.toNat + c.args.len.toNat ≤ s.params.bufBytes) (hr : ¬(radix.toNat = 1 ∨ 36 < radix.toNat))
    {v : Int} (hv : numeral s.params radix.toNat str = .ok v) :
    exec (.parse vd radix) s = .next (s.afterResult vd v) := by
  rw [exec, execParse, State.command_eq hc]
  simp only [withSource_pos hin, if_neg hr, readSource_source hsrc hlen, hv, complete_storeValue]

theorem exec_parse_of_raise (hc : s.inflight = some c) (hsrc : c.Source str) (hlen : str.length = c.args.len.toNat)
    (hin : c.args.src.toNat + c.args.len.toNat ≤ s.params.bufBytes) (hr : ¬(radix.toNat = 1 ∨ 36 < radix.toNat))
    {e : ErrCode} {info : Nat} (he : numeral s.params radix.toNat str = raise e info) :
    exec (.parse vd radix) s = .next (s.afterError e info) := by
  rw [exec, execParse, State.command_eq hc]
  simp only [withSource_pos hin, if_neg hr, readSource_source hsrc hlen, he]
  rfl

end

/-- Settles O41: the radix check comes before the read. -/
theorem parseRejectsIllegalRadix : Obligations.ParseRejectsIllegalRadix :=
  ⟨encodes_row (.parse 0 0) fun _ => rfl, fun _ _ _ _ hc hin hr => exec_parse_invalidRadix hc hin hr⟩

/-! ### Plain numerals (R87, steps 2 to 5) -/

section
variable {p : Params} {str sg pre rest : List Byte} {imm r : Nat}

/-- A string step 1 does not expand goes to step 2. -/
theorem numeral_of_not_exponential (h : ¬((imm = 0 ∨ imm = 10) ∧ IsExponential str)) :
    numeral p imm str = plainNumeral imm str := by
  have hnone : (if imm = 0 ∨ imm = 10 then expForm str else none) = none := by
    split
    · next hi => exact expForm_eq_none fun he => h ⟨hi, he⟩
    · rfl
  rw [numeral, hnone]

theorem numeral_of_digits (h : ¬((imm = 0 ∨ imm = 10) ∧ IsExponential str)) (hl : PlainString str imm sg pre rest r)
    {ds : List Nat} (hm : rest.map digval = ds.map some) (hd : ∀ d ∈ ds, d < r) :
    numeral p imm str = .ok (valueUnder sg (sumOf r ds)) := by
  rw [numeral_of_not_exponential h, plainNumeral_of_layout hl, scanDigits_ok _ _ _ ds hm hd]

theorem numeral_of_bad_digit (h : ¬((imm = 0 ∨ imm = 10) ∧ IsExponential str)) (hl : PlainString str imm sg pre rest r)
    {good : List Byte} {bad : Byte} {tail : List Byte} (hrest : rest = good ++ bad :: tail)
    (hg : ∀ ch ∈ good, ∃ d, digval ch = some d ∧ d < r) (hb : ∀ d, digval bad = some d → r ≤ d) :
    numeral p imm str =
      raise (if bad = 0x2E then .invalidFormat else .invalidDigit) (sg.length + pre.length + good.length) := by
  rw [numeral_of_not_exponential h, plainNumeral_of_layout hl, hrest, scanDigits_bad _ _ good bad tail hg hb]
  rfl

end

/-- Settles O42: every string has a layout (`plainString_exists`), and its digits are all legal or one is the first that is
not. -/
theorem parsePlainNumeral : Obligations.ParsePlainNumeral := by
  refine ⟨plainString_exists, fun s c vd radix str sg pre rest r hc hsrc hlen hin h1 h36 hexp hl => ?_⟩
  have hr : ¬(radix.toNat = 1 ∨ 36 < radix.toNat) := by omega
  exact ⟨fun ds hm hd => exec_parse_of_ok hc hsrc hlen hin hr (numeral_of_digits hexp hl hm hd),
    fun good bad tail hrest hg hb => exec_parse_of_raise hc hsrc hlen hin hr (numeral_of_bad_digit hexp hl hrest hg hb)⟩

/-! ### The exponential form (R86) -/

theorem isDigits_append {xs ys : List Byte} (hx : IsDigits xs) (hy : IsDigits ys) : IsDigits (xs ++ ys) :=
  fun ch h => (List.mem_append.mp h).elim (hx ch) (hy ch)

/-- A run of n decimal digits is below 10^n. -/
theorem decimalOf_lt {ds : List Byte} (h : IsDigits ds) : decimalOf ds < 10 ^ ds.length := by
  have hlt := valueOf_lt 10 (ds.map fun ch => ch.toNat - 0x30) fun d hd => by
    obtain ⟨ch, hch, rfl⟩ := List.mem_map.mp hd
    have := h ch hch
    omega
  rwa [List.length_map, valueOf_eq_sumOf] at hlt

theorem valueUnder_natAbs (sg : List Byte) (m : Nat) : (valueUnder sg m).natAbs = m := by
  rw [← signed_eq_valueUnder, signed_natAbs]

theorem afterResult_of_not_fits {s : State} {r : VReg} {x : Int} (h : 10 ^ (7 * s.params.maxLimbs) ≤ x.natAbs) :
    s.afterResult r x = s.afterError .capacityExceeded 0 := if_neg h.not_gt

section
variable {p : Params} {e : ExpForm} {k : Nat}

/-- The power of ten that is not computed is of a result that does not fit (R86). -/
theorem expMagnitude_of_nonneg_shift (hk : e.shift = k) :
    expMagnitude p e = .ok (decimalOf (e.int ++ e.frac) * 10 ^ k) ∨
      (expMagnitude p e = raise .capacityExceeded 0 ∧ 10 ^ (7 * p.maxLimbs) ≤ decimalOf (e.int ++ e.frac) * 10 ^ k) := by
  unfold expMagnitude
  simp only [decimalValue_eq, hk, Int.natCast_nonneg, if_true, Int.toNat_natCast, power_eq]
  by_cases hm : decimalOf (e.int ++ e.frac) = 0
  · rw [if_pos hm, hm, Nat.zero_mul]
    exact .inl rfl
  · rw [if_neg hm]
    split
    · exact .inl rfl
    · next hbig =>
      refine .inr ⟨rfl, ?_⟩
      calc 10 ^ (7 * p.maxLimbs) ≤ 10 ^ k := Nat.pow_le_pow_right (by norm_num) (by omega)
        _ ≤ decimalOf (e.int ++ e.frac) * 10 ^ k := Nat.le_mul_of_pos_left _ (Nat.pos_of_ne_zero hm)

/-- A quotient M / 10^k is taken where it is exact. The length check raises only where it is not: 0 < M < 10^k (R86). -/
theorem expMagnitude_of_neg_shift (hd : IsDigits (e.int ++ e.frac)) (hk : e.shift = -(k : Int)) (hpos : 0 < k) :
    expMagnitude p e =
      if 10 ^ k ∣ decimalOf (e.int ++ e.frac) then .ok (decimalOf (e.int ++ e.frac) / 10 ^ k) else raise .invalidFormat 0 := by
  have hneg : ¬ (0 : Int) ≤ -(k : Int) := by omega
  unfold expMagnitude
  simp only [decimalValue_eq, hk, if_neg hneg, neg_neg, Int.toNat_natCast, power_eq, ← Nat.dvd_iff_mod_eq_zero]
  by_cases hm : decimalOf (e.int ++ e.frac) = 0
  · rw [if_pos hm, hm, if_pos (dvd_zero _), Nat.zero_div]
  rw [if_neg hm]
  split
  · next hshort =>
    have hlt : decimalOf (e.int ++ e.frac) < 10 ^ k :=
      (decimalOf_lt hd).trans (Nat.pow_lt_pow_right (by norm_num) hshort)
    rw [if_neg (Nat.not_dvd_of_pos_of_lt (Nat.pos_of_ne_zero hm) hlt)]
  · rfl

end

/-- The parts of a string of the grammar as step 1 reads them (R85). -/
def expParts (sg int frac esg edig : List Byte) : ExpForm :=
  { neg := decide (sg = [0x2D]), int := int, frac := frac, expNeg := decide (esg = [0x2D]), exp := edig }

/-- k = E − len(FRAC), from the parts (R86). -/
theorem expParts_shift (sg int frac esg edig : List Byte) :
    (expParts sg int frac esg edig).shift = valueUnder esg (decimalOf edig) - frac.length := by
  rw [← signed_eq_valueUnder, ← decimalValue_eq]
  rfl

section
variable {p : Params} {imm : Nat} {str sg int frac esg edig mark : List Byte} {dot : Bool}

/-- Step 1 of R87 expands a string of the grammar: its magnitude, under its sign. -/
theorem numeral_of_expString (hi : imm = 0 ∨ imm = 10) (h : ExpString str sg int frac esg edig dot mark) {m : Nat}
    (hm : expMagnitude p (expParts sg int frac esg edig) = .ok m) : numeral p imm str = .ok (valueUnder sg m) := by
  have hform : expForm str = some (expParts sg int frac esg edig) := expForm_of_expString h
  simp only [numeral, if_pos hi, hform, hm, ← signed_eq_valueUnder]
  rfl

theorem numeral_of_expString_raise (hi : imm = 0 ∨ imm = 10) (h : ExpString str sg int frac esg edig dot mark)
    {err : ErrCode} {info : Nat} (hm : expMagnitude p (expParts sg int frac esg edig) = raise err info) :
    numeral p imm str = raise err info := by
  have hform : expForm str = some (expParts sg int frac esg edig) := expForm_of_expString h
  simp only [numeral, if_pos hi, hform, hm]
  rfl

end

/-- Settles O43: the sign of k decides between the product and the quotient. -/
theorem parseExponentialNumeral : Obligations.ParseExponentialNumeral := by
  intro s c vd radix str sg int frac esg edig dot mark k hc hsrc hlen hin hi hx hk
  have hr : ¬(radix.toNat = 1 ∨ 36 < radix.toNat) := by omega
  have hd : IsDigits (int ++ frac) := isDigits_append hx.intDigits.2 hx.fracDigits.1
  have hshift : (expParts sg int frac esg edig).shift = k := by rw [expParts_shift, hk]
  have hquot := fun hneg : k < 0 => expMagnitude_of_neg_shift (p := s.params) (e := expParts sg int frac esg edig) hd
    (k := (-k).toNat) (by omega) (by omega)
  refine ⟨fun h0 => ?_, fun hneg hdvd => ?_, fun hneg hdvd => ?_⟩
  · obtain hm | ⟨hm, hbig⟩ := expMagnitude_of_nonneg_shift (p := s.params) (e := expParts sg int frac esg edig)
      (k := k.toNat) (by omega)
    · exact exec_parse_of_ok hc hsrc hlen hin hr (numeral_of_expString hi hx hm)
    · rw [afterResult_of_not_fits (by rw [valueUnder_natAbs]; exact hbig)]
      exact exec_parse_of_raise hc hsrc hlen hin hr (numeral_of_expString_raise hi hx hm)
  · exact exec_parse_of_ok hc hsrc hlen hin hr
      (numeral_of_expString hi hx ((hquot hneg).trans (if_pos hdvd)))
  · exact exec_parse_of_raise hc hsrc hlen hin hr
      (numeral_of_expString_raise hi hx ((hquot hneg).trans (if_neg hdvd)))

end Sys2Proof.Machine
end

section
/-! PROOFS. The statements of 41_parse_format.md: what TOSTR leaves, and PARSE of it (R89, R90). -/

namespace Sys2Proof.Machine

/-! ### The text of a value (R89) -/

/-- The sign TOSTR writes: '-' for a negative value, else none. -/
def textSign (v : Int) : List Byte := if v < 0 then [0x2D] else []

theorem textSign_isSign (v : Int) : IsSign (textSign v) := by
  unfold textSign
  split
  · exact .inr (.inr rfl)
  · exact .inl rfl

theorem valueUnder_textSign (v : Int) : valueUnder (textSign v) v.natAbs = v := by
  unfold valueUnder textSign
  by_cases h : v < 0
  · rw [if_pos h, if_pos rfl]; omega
  · rw [if_neg h, if_neg nofun]; omega

section
variable {r : Nat} {v : Int}

/-- The bytes of the text are an optional '-' and digits '0'..'9', 'A'..'Z' (R89). -/
theorem text_toNat (hr : 2 ≤ r) (h36 : r ≤ 36) :
    (text r v).map (·.toNat) =
      (if v < 0 then [0x2D] else []) ++ (shown r v).map (fun d => if d < 10 then 0x30 + d else 0x41 + (d - 10)) := by
  rw [text_eq, List.map_append, List.map_map]
  congr 1
  · split <;> rfl
  · exact List.map_congr_left fun d hd => sym_toNat d ((shown_lt hr v d hd).trans_le h36)

/-- The symbols of the text read back as the digits shown. -/
theorem digval_shown (hr : 2 ≤ r) (h36 : r ≤ 36) : ((shown r v).map sym).map digval = (shown r v).map some := by
  rw [List.map_map]
  exact List.map_congr_left fun d hd => digval_sym d ((shown_lt hr v d hd).trans_le h36)

end

/-! ### TOSTR (R89) -/

section
variable {s t : State} {c : InFlight} {vs : VReg} {radix : BitVec 8}

theorem exec_tostr_invalidRadix (hc : s.inflight = some c)
    (hin : c.args.dst.toNat + c.args.cap.toNat ≤ s.params.bufBytes) (hr : radix.toNat = 1 ∨ 36 < radix.toNat) :
    exec (.tostr vs radix) s = .next (s.afterError .invalidRadix radix.toNat) := by
  have h0 : radix.toNat ≠ 0 := by omega
  rw [exec, execTostr, State.command_eq hc]
  simp only [withDest_pos hin, if_neg h0, if_pos hr, complete_raise_eq]

/-- TOSTR in a legal radix r emits the text. -/
theorem exec_tostr_text (hc : s.inflight = some c) (hin : c.args.dst.toNat + c.args.cap.toNat ≤ s.params.bufBytes)
    {r : Nat} (hr : r = if radix.toNat = 0 then 10 else radix.toNat) (h2 : 2 ≤ r) (h36 : r ≤ 36) :
    exec (.tostr vs radix) s =
      if c.args.cap.toNat < (text r (c.v.read vs)).length then
        .next (s.afterError .outputSpace (text r (c.v.read vs)).length)
      else .next (s.afterStore c.args.dst.toNat (text r (c.v.read vs))) := by
  have hlegal : ¬(r = 1 ∨ 36 < r) := by omega
  rw [exec, execTostr, State.command_eq hc]
  simp only [← hr, withDest_pos hin, if_neg hlegal, complete_emit]

/-- TOSTR in a legal radix succeeds only with its range in bounds and room for the text, and then has stored it. -/
theorem tostr_success (hc : s.inflight = some c) (h2 : 2 ≤ radix.toNat) (h36 : radix.toNat ≤ 36)
    (h : exec (.tostr vs radix) s = .next t) (he : t.errCode = .noError) :
    c.args.dst.toNat + c.args.cap.toNat ≤ s.params.bufBytes ∧
      (text radix.toNat (c.v.read vs)).length ≤ c.args.cap.toNat ∧
      t = s.afterStore c.args.dst.toNat (text radix.toNat (c.v.read vs)) := by
  obtain ⟨-, hout, -⟩ := bufferRangesAreChecked (.tostr vs radix) s c hc
  have hin : c.args.dst.toNat + c.args.cap.toNat ≤ s.params.bufBytes := by
    by_contra hb
    cases h.symm.trans (hout nofun rfl (Nat.lt_of_not_le hb))
    cases he
  have hnz : radix.toNat ≠ 0 := by omega
  have hexec := h.symm.trans (exec_tostr_text hc hin (if_neg hnz).symm h2 h36)
  split at hexec
  · cases hexec
    cases he
  · next hcap =>
    cases hexec
    exact ⟨hin, Nat.le_of_not_lt hcap, rfl⟩

end

/-- Settles O44: the digits are those `shown`, the text their symbols under the sign. -/
theorem tostrResult : Obligations.TostrResult := by
  refine ⟨encodes_row (.tostr 0 0) fun _ => rfl, fun s c vs radix hc hin => ⟨exec_tostr_invalidRadix hc hin,
    fun r h1 h36 hr => ?_⟩⟩
  have hlegal : 2 ≤ r ∧ r ≤ 36 := by split at hr <;> omega
  obtain ⟨hr2, hr36⟩ := hlegal
  have hexec := exec_tostr_text (vs := vs) hc hin hr hr2 hr36
  exact ⟨shown r (c.v.read vs), text r (c.v.read vs), shown_lt hr2 _, shown_value hr2 _, fun h0 => if_pos h0,
    shown_head hr2 _, text_toNat hr2 hr36, fun hcap => hexec.trans (if_pos hcap),
    fun hcap => hexec.trans (if_neg hcap.not_gt)⟩

/-! ### PARSE of TOSTR's output (R90) -/

section
variable {r : Nat} {v : Int}

theorem digit_of_mem_symbols (hr : 2 ≤ r) (h36 : r ≤ 36) {ch : Byte} (h : ch ∈ (shown r v).map sym) :
    ∃ d, d < r ∧ digval ch = some d := by
  obtain ⟨d, hd, rfl⟩ := List.mem_map.mp h
  have hlt := shown_lt hr v d hd
  exact ⟨d, hlt, digval_sym d (hlt.trans_le h36)⟩

theorem text_mem (hr : 2 ≤ r) (h36 : r ≤ 36) {ch : Byte} (h : ch ∈ text r v) :
    ch = 0x2D ∨ ∃ d, d < r ∧ digval ch = some d := by
  rw [text_eq, List.mem_append] at h
  rcases h with h | h
  · split at h
    · exact .inl (List.mem_singleton.mp h)
    · cases h
  · exact .inr (digit_of_mem_symbols hr h36 h)

/-- A string in exponential form contains the first byte of a MARK (R85). -/
theorem mark_mem_of_isExponential {str : List Byte} (h : IsExponential str) :
    ∃ ch ∈ str, ch = 0x65 ∨ ch = 0x45 ∨ ch = 0x2A := by
  obtain ⟨sg, int, frac, esg, edig, dot, mark, hx⟩ := h
  have hsub : ∀ ch ∈ mark, ch ∈ str := fun ch hch => by
    rw [hx.whole]
    simp [hch]
  rcases hx.markForm with rfl | rfl | rfl
  · exact ⟨0x65, hsub _ (by simp), .inl rfl⟩
  · exact ⟨0x45, hsub _ (by simp), .inr (.inl rfl)⟩
  · exact ⟨0x2A, hsub _ (by simp), .inr (.inr rfl)⟩

/-- A decimal text has no MARK, so it is not in exponential form (R90). -/
theorem text_ten_not_exponential : ¬ IsExponential (text 10 v) := by
  intro h
  obtain ⟨ch, hch, hmark⟩ := mark_mem_of_isExponential h
  rcases text_mem (by norm_num) (by norm_num) hch with rfl | ⟨d, hd, hval⟩
  · revert hmark; decide
  · have hnum := (digval_eq_some ch d).mp hval
    have hch : ch.toNat = 0x65 ∨ ch.toNat = 0x45 ∨ ch.toNat = 0x2A := hmark.imp (congrArg _) (.imp (congrArg _) (congrArg _))
    omega

/-- The text is laid out as its sign and its digits: an explicit base takes nothing else off the front (R89, R90). -/
theorem text_layout (hr : 2 ≤ r) (h36 : r ≤ 36) : PlainString (text r v) r (textSign v) [] ((shown r v).map sym) r where
  whole := by rw [List.append_nil]; exact text_eq r v
  sign := textSign_isSign v
  noSign h ch tail hw := by
    have hdigits : text r v = textSign v ++ (shown r v).map sym := text_eq r v
    rw [h, List.nil_append, hw] at hdigits
    obtain ⟨d, -, hd⟩ := digit_of_mem_symbols hr h36 (hdigits ▸ List.mem_cons_self)
    constructor <;> rintro rfl <;> cases hd
  explicitBase _ := ⟨rfl, rfl⟩
  omittedBase h := by omega

end

/-- Settles O45: PARSE reads the text TOSTR stored (`Memory.read_write`), which is a plain numeral with the digits shown. -/
theorem parseInvertsTostr : Obligations.ParseInvertsTostr := by
  intro s t s' c c' vs vd radix hc h2 h36 h he hc' hp hbuf hsrc hlen hfits
  obtain ⟨hin, hcap, rfl⟩ := tostr_success hc h2 h36 h he
  generalize c.v.read vs = v at *
  have hn : c'.args.len.toNat = (text radix.toNat v).length := by rw [hlen]; exact toNat_ofNat_of_le hcap
  have hsource : c'.Source (text radix.toNat v) := by
    rw [source_iff_read, hbuf, hsrc]
    exact Memory.read_write _ _ _
  have hplain : ¬((radix.toNat = 0 ∨ radix.toNat = 10) ∧ IsExponential (text radix.toNat v)) := by
    rintro ⟨h0 | h10, hexp⟩
    · omega
    · exact text_ten_not_exponential (h10 ▸ hexp)
  rw [exec_parse_of_ok hc' hsource hn.symm (by rw [hp, hsrc, hn]; omega) (by omega)
      (numeral_of_digits hplain (text_layout h2 h36) (digval_shown h2 h36) (shown_lt h2 v)),
    shown_value h2, valueUnder_textSign, afterResult_of_fits (hp ▸ hfits)]

end Sys2Proof.Machine
end

section
/-! PROOFS. The statements of 42_add_sub.md: what ADD, SUB and NEG leave, when a result does not fit, and the two laws (R91 to
R95). -/

namespace Sys2Proof.Machine

/-! ### The results (R92 to R94) -/

section
variable {s : State} {c : InFlight}

theorem exec_add (hc : s.inflight = some c) (vd va vb : VReg) :
    exec (.add vd va vb) s = .next (s.afterResult vd (c.v.read va + c.v.read vb)) := by
  rw [exec, execAdd, State.command_eq hc, complete_storeValue]

theorem exec_sub (hc : s.inflight = some c) (vd va vb : VReg) :
    exec (.sub vd va vb) s = .next (s.afterResult vd (c.v.read va - c.v.read vb)) := by
  rw [exec, execSub, State.command_eq hc, complete_storeValue]

theorem exec_neg (hc : s.inflight = some c) (vd vs : VReg) :
    exec (.neg vd vs) s = .next (s.afterWrite vd (-(c.v.read vs))) := by
  rw [exec, execNeg, State.command_eq hc, complete_setReg]

end

/-! ### Results that do not fit (R92, R93) -/

theorem fits_eq_false_iff (p : Params) (v : Int) : fits p v = false ↔ p.maxLimbs < nlimbs v := by
  rw [fits, decide_eq_false_iff_not, not_le]

section
variable {p : Params} {a b : Int} (ha : fits p a = true) (hb : fits p b = true)
include ha hb

/-- A sum is below twice the bound its operands obey, so one limb more holds it. -/
theorem nlimbs_add_le : nlimbs (a + b) ≤ p.maxLimbs + 1 := by
  rw [fits_iff] at ha hb
  rw [nlimbs_le]
  calc (a + b).natAbs ≤ a.natAbs + b.natAbs := Int.natAbs_add_le a b
    _ < 10 ^ (7 * p.maxLimbs) * 10 ^ 7 := by omega
    _ = 10 ^ (7 * (p.maxLimbs + 1)) := by rw [← pow_add, mul_add_one]

theorem nlimbs_add_of_not_fits (h : fits p (a + b) = false) : nlimbs (a + b) = p.maxLimbs + 1 :=
  (nlimbs_add_le ha hb).antisymm ((fits_eq_false_iff p _).mp h)

/-- Of operands that are not of opposite signs, the difference is no larger in magnitude than one of them. -/
theorem fits_sub_of_mul_nonneg (h : 0 ≤ a * b) : fits p (a - b) = true := by
  have hle : (a - b).natAbs ≤ a.natAbs ∨ (a - b).natAbs ≤ b.natAbs := by
    rcases mul_nonneg_iff.mp h with ⟨h1, h2⟩ | ⟨h1, h2⟩ <;> omega
  exact hle.elim (fits_of_natAbs_le ha) (fits_of_natAbs_le hb)

theorem sign_mul_sign_of_sub_not_fits (h : fits p (a - b) = false) : a.sign * b.sign = -1 := by
  rw [← Int.sign_mul, Int.sign_eq_neg_one_iff_neg]
  by_contra hn
  rw [fits_sub_of_mul_nonneg ha hb (not_lt.mp hn)] at h
  cases h

end

/-- Settles O46: the rows by `encodes_row`, the results by the completion of one checked or unchecked register write. -/
theorem addSubNegResults : Obligations.AddSubNegResults :=
  ⟨encodes_row (.add 0 0 0) fun _ => rfl, encodes_row (.sub 0 0 0) fun _ => rfl, encodes_row (.neg 0 0) fun _ => rfl,
    fun s _ hc => ⟨fun vd va vb => ⟨exec_add hc vd va vb, exec_sub hc vd va vb,
      fun ha hb => ⟨nlimbs_add_of_not_fits ha hb, sign_mul_sign_of_sub_not_fits ha hb⟩⟩,
      fun vd vs => ⟨exec_neg hc vd vs, fits_neg s.params _⟩⟩⟩

/-! ### The laws (R95) -/

/-- A capacity-checked result that raised nothing was written: CapacityExceeded is a real error (R132). -/
theorem afterResult_v_of_noError {s : State} {r : VReg} {x : Int} (he : (s.afterResult r x).errCode = .noError) :
    (s.afterResult r x).v = s.v.write r x := by
  unfold State.afterResult at he ⊢
  split at he
  · next h => rw [if_pos h]; rfl
  · cases he

section
variable {s t : State} {c : InFlight} {vd va vb : VReg}

theorem exec_add_noError (hc : s.inflight = some c) (h : exec (.add vd va vb) s = .next t) (he : t.errCode = .noError) :
    t.v = s.v.write vd (c.v.read va + c.v.read vb) := by
  rw [exec_add hc] at h
  cases h
  exact afterResult_v_of_noError he

theorem exec_sub_noError (hc : s.inflight = some c) (h : exec (.sub vd va vb) s = .next t) (he : t.errCode = .noError) :
    t.v = s.v.write vd (c.v.read va - c.v.read vb) := by
  rw [exec_sub hc] at h
  cases h
  exact afterResult_v_of_noError he

theorem exec_neg_v (hc : s.inflight = some c) (h : exec (.neg vd va) s = .next t) :
    t.v = s.v.write vd (-(c.v.read va)) := by
  rw [exec_neg hc] at h
  cases h
  rfl

end

/-- Settles O47: the operand the first command leaves alone keeps its value, so the laws are (a + b) − b = a and
a + (−b) = a − b. -/
theorem addSubLaws : Obligations.AddSubLaws := by
  constructor
  · intro s t s' u c c' vt va vb vu hc hv hne hadd het hc' hv' hsub heu
    rw [exec_sub_noError hc' hsub heu, Regs.read_write_same, hv', exec_add_noError hc hadd het, Regs.read_write_same,
      Regs.read_write_other _ _ hne.symm, hv, add_sub_cancel_right]
  · intro s t s' u w c c' vn va vb vu hc hv hne hneg hc' hv' hadd heu hsub hew
    rw [exec_add_noError hc' hadd heu, exec_sub_noError hc hsub hew, Regs.read_write_same, Regs.read_write_same, hv',
      exec_neg_v hc hneg, Regs.read_write_same, Regs.read_write_other _ _ hne.symm, hv, ← sub_eq_add_neg]

end Sys2Proof.Machine
end

section
/-! PROOFS. The statement of 43_multiply.md: what MUL and SQR leave (R96 to R98). -/

namespace Sys2Proof.Machine

section
variable {s : State} {c : InFlight}

theorem exec_mul (hc : s.inflight = some c) (vd va vb : VReg) :
    exec (.mul vd va vb) s = .next (s.afterResult vd (c.v.read va * c.v.read vb)) := by
  rw [exec, execMul, State.command_eq hc, complete_storeValue]

theorem exec_sqr (hc : s.inflight = some c) (vd vs : VReg) :
    exec (.sqr vd vs) s = .next (s.afterResult vd (c.v.read vs * c.v.read vs)) := by
  rw [exec, execSqr, State.command_eq hc, complete_storeValue]

end

/-- Settles O48: the rows by `encodes_row`, the results by the completion of one capacity-checked register write. -/
theorem mulSqrResults : Obligations.MulSqrResults :=
  ⟨encodes_row (.mul 0 0 0) fun _ => rfl, encodes_row (.sqr 0 0) fun _ => rfl,
    fun _ _ hc => ⟨exec_mul hc, exec_sqr hc⟩⟩

end Sys2Proof.Machine
end

section
/-! PROOFS. The statement of 44_divide.md: the row of DIVREM, and what DIVREM, DIV and REM leave (R71, R100 to R102). -/

namespace Sys2Proof

/-- A word that matches the row of DIVREM is illegal exactly when RD = RD2 (R71). -/
theorem decode_divrem_row {w : Word} (h : w &&& 0xFF0000FF = 0x20) :
    decode w = if rdField w = rs3Field w then none
      else some (.divrem (rdField w) (rs3Field w) (rs1Field w) (rs2Field w)) := by
  rw [decode_of_matches (i := .divrem 0 0 0 0) h]
  by_cases hd : rdField w = rs3Field w <;> simp [Instr.reread, Instr.wf, hd]

namespace Machine

section
variable {s : State} {c : InFlight} {vb : VReg}

theorem exec_div_zero (hc : s.inflight = some c) (vd va : VReg) (hb : c.v.read vb = 0) :
    exec (.div vd va vb) s = .next (s.afterError .divideByZero 0) := by
  rw [exec, execDiv, State.command_eq hc, if_pos hb, complete_raise_eq]

theorem exec_rem_zero (hc : s.inflight = some c) (vd va : VReg) (hb : c.v.read vb = 0) :
    exec (.rem vd va vb) s = .next (s.afterError .divideByZero 0) := by
  rw [exec, execRem, State.command_eq hc, if_pos hb, complete_raise_eq]

end

/-- Settles O49: the row of DIVREM by `decode_divrem_row`, the other two by `encodes_row`; the results by whether the divisor
is zero, with tdiv and trem as R10 writes them (`truncQuot_eq`, `truncRem_eq`). -/
theorem divideResults : Obligations.DivideResults := by
  refine ⟨fun w hw => ⟨fun hne => ?_, fun he => ?_⟩, encodes_row (.div 0 0 0) fun _ => rfl,
    encodes_row (.rem 0 0 0) fun _ => rfl, fun s c va vb hc => ⟨fun hb => ?_, fun hb => ?_⟩⟩
  · exact (decode_divrem_row hw).trans (if_neg hne)
  · exact (decode_divrem_row hw).trans (if_pos he)
  · refine ⟨fun vq vr hne => ?_, fun vd => exec_div_zero hc vd va hb, fun vd => exec_rem_zero hc vd va hb⟩
    rw [exec_divrem hc hne, if_pos hb]
    rfl
  · rw [truncQuot_eq, truncRem_eq]
    refine ⟨fun vq vr hne => ?_, fun vd => exec_div hc vd va hb, fun vd => exec_rem hc vd va hb⟩
    rw [exec_divrem hc hne, if_neg hb]
    rfl

end Machine
end Sys2Proof
end

section
/-! PROOFS. The statements of 45_exponent.md: what POW and MODPOW leave, and their errors in order (R104 to R106). -/

namespace Sys2Proof.Machine

/-! ### POW (R105) -/

theorem maxExp_eq : maxExp = 2 ^ 31 - 1 := by norm_num [maxExp]

section
variable {s : State} {c : InFlight} {va vn : VReg}

theorem exec_pow_exponentTooLarge (hc : s.inflight = some c) (vd va : VReg) (hn : maxExp < (c.v.read vn).natAbs) :
    exec (.pow vd va vn) s = .next (s.afterError .exponentTooLarge 0) := by
  rw [exec, execPow, State.command_eq hc, if_pos hn, complete_raise_eq]

theorem exec_pow_divideByZero (hc : s.inflight = some c) (vd : VReg) (hn : (c.v.read vn).natAbs ≤ maxExp)
    (hneg : c.v.read vn < 0) (ha : c.v.read va = 0) :
    exec (.pow vd va vn) s = .next (s.afterError .divideByZero 0) := by
  rw [exec, execPow, State.command_eq hc, if_neg hn.not_gt, if_neg hneg.ne, if_pos hneg, if_pos ha, complete_raise_eq]

/-- A negative exponent gives the truncated reciprocal of the power (`reciprocalPower_eq`). -/
theorem exec_pow_negative (hc : s.inflight = some c) (vd : VReg) (hn : (c.v.read vn).natAbs ≤ maxExp)
    (hneg : c.v.read vn < 0) (ha : c.v.read va ≠ 0) :
    exec (.pow vd va vn) s = .next (s.afterResult vd (tdiv 1 (c.v.read va ^ (c.v.read vn).natAbs))) := by
  rw [exec, execPow, State.command_eq hc, if_neg hn.not_gt, if_neg hneg.ne, if_pos hneg, if_neg ha,
    reciprocalPower_eq ha (Int.natAbs_pos.mpr hneg.ne), complete_storeValue]

/-- An exponent of 0 or more gives the power, 0^0 = 1 included; the capacity check is on the result (`storePower_eq`). -/
theorem exec_pow_nonneg (hc : s.inflight = some c) (vd va : VReg) (hn : (c.v.read vn).natAbs ≤ maxExp)
    (hpos : 0 ≤ c.v.read vn) :
    exec (.pow vd va vn) s = .next (s.afterResult vd (c.v.read va ^ (c.v.read vn).natAbs)) := by
  rw [exec, execPow, State.command_eq hc, if_neg hn.not_gt]
  by_cases h0 : c.v.read vn = 0
  · rw [if_pos h0, h0, Int.natAbs_zero, pow_zero, complete_storeValue]
  · rw [if_neg h0, if_neg hpos.not_gt, storePower_eq _ _ _ (Int.natAbs_ne_zero.mpr h0), complete_storeValue]

end

/-- Settles O51: the row by `encodes_row`; the results by the size of the exponent, then its sign, then whether the base is
zero. -/
theorem powResult : Obligations.PowResult := by
  refine ⟨encodes_row (.pow 0 0 0) fun _ => rfl, fun s c vd va vn hc => ?_⟩
  rw [← maxExp_eq, truncQuot_eq]
  exact ⟨exec_pow_exponentTooLarge hc vd va, fun hn => ⟨exec_pow_divideByZero hc vd hn, exec_pow_negative hc vd hn,
    exec_pow_nonneg hc vd va hn⟩⟩

/-! ### MODPOW (R106) -/

section
variable {s : State} {c : InFlight} {ve vm : VReg}

theorem exec_modpow_negativeOperand (hc : s.inflight = some c) (vd va vm : VReg) (he : c.v.read ve < 0) :
    exec (.modpow vd va ve vm) s = .next (s.afterError .negativeOperand 0) := by
  rw [exec, execModpow, State.command_eq hc, if_pos he, complete_raise_eq]

theorem exec_modpow_divideByZero (hc : s.inflight = some c) (vd va : VReg) (he : 0 ≤ c.v.read ve)
    (hm : c.v.read vm = 0) : exec (.modpow vd va ve vm) s = .next (s.afterError .divideByZero 0) := by
  rw [exec, execModpow, State.command_eq hc, if_neg he.not_gt, if_pos hm, complete_raise_eq]

/-- The remainder is of the full power, although the model reduces after every step (`modularPowerUpTo_eq`). -/
theorem exec_modpow_remainder (hc : s.inflight = some c) (vd va : VReg) (he : 0 ≤ c.v.read ve) (hm : c.v.read vm ≠ 0) :
    exec (.modpow vd va ve vm) s =
      .next (s.afterWrite vd (trem (c.v.read va ^ (c.v.read ve).natAbs) (c.v.read vm))) := by
  rw [exec, execModpow, State.command_eq hc, if_neg he.not_gt, if_neg hm,
    modularPowerUpTo_eq _ _ _ _ Nat.lt_log2_self, complete_setReg]

end

/-- Settles O52: the row by `encodes_row`; the results by the sign of the exponent, then whether the modulus is zero. -/
theorem modpowResult : Obligations.ModpowResult := by
  refine ⟨encodes_row (.modpow 0 0 0 0) fun _ => rfl, fun s c vd va ve vm hc => ?_⟩
  rw [truncRem_eq]
  exact ⟨exec_modpow_negativeOperand hc vd va vm, exec_modpow_divideByZero hc vd va, exec_modpow_remainder hc vd va⟩

end Sys2Proof.Machine
end

section
/-! PROOFS. The statements of 46_compare.md: the signs of CMP, CMPABS and SGN, and the flags of the six predicates (R108 to
R116). -/

namespace Sys2Proof.Machine

section
variable {s : State} {c : InFlight} (hc : s.inflight = some c)
include hc

/-- A command that writes the sign of an integer to R_VAL (R30). -/
theorem command_sign (x : InFlight → Int) :
    (s.command fun c => setVal (sext32 (x c).sign)) = .next (s.afterVal (signWord (x c))) := by
  rw [State.command_eq hc, complete_setVal, sext32_sign]

/-- A command that writes a predicate's flag to R_VAL, the predicate said in any equivalent way (R42). -/
theorem command_flag {q : InFlight → Prop} [DecidablePred q] {r : Prop} [Decidable r] (h : q c ↔ r) :
    (s.command fun c => setVal (flagWord (decide (q c)))) = .next (s.afterVal (if r then 1 else 0)) := by
  rw [State.command_eq hc, complete_setVal, flagWord, if_congr (decide_eq_true_iff.trans h) rfl rfl]

/-! ### The signs (R108 to R110) -/

theorem exec_cmp (va vb : VReg) :
    exec (.cmp va vb) s = .next (s.afterVal (signWord (c.v.read va - c.v.read vb))) :=
  command_sign hc fun c => c.v.read va - c.v.read vb

theorem exec_cmpabs (va vb : VReg) :
    exec (.cmpabs va vb) s = .next (s.afterVal (signWord (|c.v.read va| - |c.v.read vb|))) := by
  rw [exec, execCmpabs, command_sign hc, Int.abs_eq_natAbs, Int.abs_eq_natAbs]

theorem exec_sgn (va : VReg) : exec (.sgn va) s = .next (s.afterVal (signWord (c.v.read va))) :=
  command_sign hc fun c => c.v.read va

end

/-- Settles O53: the rows by `encodes_row`, the results by the completion of one write of a sign to R_VAL. -/
theorem compareResults : Obligations.CompareResults :=
  ⟨encodes_row (.cmp 0 0) fun _ => rfl, encodes_row (.cmpabs 0 0) fun _ => rfl, encodes_row (.sgn 0) fun _ => rfl,
    fun _ _ va vb hc => ⟨exec_cmp hc va vb, exec_cmpabs hc va vb, exec_sgn hc va⟩⟩

/-! ### The predicates (R111 to R116) -/

theorem natAbs_eq_one_iff_abs (x : Int) : x.natAbs = 1 ↔ |x| = 1 := by
  rw [Int.abs_eq_natAbs, Nat.cast_eq_one]

/-- The parity of a value is that of its magnitude (R113). -/
theorem natAbs_mod_two_eq_zero_iff (x : Int) : x.natAbs % 2 = 0 ↔ 2 ∣ x := by
  rw [← Nat.dvd_iff_mod_eq_zero, ← Int.natCast_dvd, Nat.cast_ofNat]

theorem natAbs_mod_two_eq_one_iff (x : Int) : x.natAbs % 2 = 1 ↔ ¬ 2 ∣ x := by
  rw [← natAbs_mod_two_eq_zero_iff, Nat.mod_two_not_eq_zero]

section
variable {s : State} {c : InFlight} (hc : s.inflight = some c)
include hc

theorem exec_iszero (va : VReg) :
    exec (.iszero va) s = .next (s.afterVal (if c.v.read va = 0 then 1 else 0)) :=
  command_flag hc Iff.rfl

theorem exec_isunit (va : VReg) :
    exec (.isunit va) s = .next (s.afterVal (if |c.v.read va| = 1 then 1 else 0)) :=
  command_flag hc (natAbs_eq_one_iff_abs (c.v.read va))

theorem exec_iseven (va : VReg) :
    exec (.iseven va) s = .next (s.afterVal (if 2 ∣ c.v.read va then 1 else 0)) :=
  command_flag hc (natAbs_mod_two_eq_zero_iff (c.v.read va))

theorem exec_isodd (va : VReg) :
    exec (.isodd va) s = .next (s.afterVal (if 2 ∣ c.v.read va then 0 else 1)) := by
  rw [exec, execIsodd, command_flag hc (natAbs_mod_two_eq_one_iff (c.v.read va)), ite_not]

theorem exec_ispos (va : VReg) :
    exec (.ispos va) s = .next (s.afterVal (if 0 < c.v.read va then 1 else 0)) :=
  command_flag hc Iff.rfl

theorem exec_isneg (va : VReg) :
    exec (.isneg va) s = .next (s.afterVal (if c.v.read va < 0 then 1 else 0)) :=
  command_flag hc Iff.rfl

end

/-- Settles O54: the rows by `encodes_row`, the results by the completion of one write of a flag to R_VAL, with magnitudes
and parities as the spec says them. -/
theorem predicateResults : Obligations.PredicateResults :=
  ⟨encodes_row (.iszero 0) fun _ => rfl, encodes_row (.isunit 0) fun _ => rfl, encodes_row (.iseven 0) fun _ => rfl,
    encodes_row (.isodd 0) fun _ => rfl, encodes_row (.ispos 0) fun _ => rfl, encodes_row (.isneg 0) fun _ => rfl,
    fun _ _ va hc => ⟨exec_iszero hc va, exec_isunit hc va, exec_iseven hc va, exec_isodd hc va, exec_ispos hc va,
      exec_isneg hc va⟩⟩

end Sys2Proof.Machine
end

section
/-! PROOFS. The statements of 47_base58.md: what ENC58B, DEC58B, ENC58 and DEC58 leave, and that ENC58 and DEC58
undo each other (R118 to R126). -/

namespace Sys2Proof.Machine

/-! ### Completions of a codec run -/

theorem complete_emitRun_raise (s : State) (c : InFlight) (e : ErrCode) (info : Nat) :
    s.complete (emitRun c (raise e info)) = .next (s.afterError e info) := rfl

section
variable {s t : State} {c : InFlight} {out : List Byte}

theorem complete_emitRun_outputSpace (hcap : c.args.cap.toNat < out.length) :
    s.complete (emitRun c (.ok out)) = .next (s.afterError .outputSpace out.length) := by
  rw [emitRun, complete_emit, if_pos hcap]

theorem complete_emitRun_stores (hcap : out.length ≤ c.args.cap.toNat) :
    s.complete (emitRun c (.ok out)) = .next (s.afterStore c.args.dst.toNat out) := by
  rw [emitRun, complete_emit, if_neg hcap.not_gt]

/-- A codec run that completes without error has given an output, and it is stored. -/
theorem complete_emitRun_noError {r : Run (List Byte)} (hr : RaisesOnly realErrors r)
    (h : s.complete (emitRun c r) = .next t) (he : t.errCode = .noError) :
    ∃ out, r = .ok out ∧ out.length ≤ c.args.cap.toNat ∧ t = s.afterStore c.args.dst.toNat out := by
  rcases State.complete_next h with ⟨w, hw, rfl⟩ | ⟨e, info, hraise, rfl⟩
  · obtain ⟨out, rfl, hemit⟩ := emitRun_ok.mp hw
    obtain ⟨hcap, rfl⟩ := emit_ok.mp hemit
    exact ⟨out, rfl, hcap, rfl⟩
  · exact absurd he ((mem_realErrors e).mp (raisesOnly_emitRun (by decide) hr e info hraise))

/-- A command that succeeds has its ranges in bounds. -/
theorem ranges_of_success {i : Instr} (hc : s.inflight = some c) (h : exec i s = .next t) (he : t.errCode = .noError) :
    (∀ span, i.sourceSpan c.args = some span → c.args.src.toNat + span ≤ s.params.bufBytes) ∧
      (i.storing = true → c.args.dst.toNat + c.args.cap.toNat ≤ s.params.bufBytes) := by
  obtain ⟨hsrcOut, hdstOut, -⟩ := bufferRangesAreChecked i s c hc
  have hsrc : ∀ span, i.sourceSpan c.args = some span → c.args.src.toNat + span ≤ s.params.bufBytes := by
    intro span hspan
    by_contra hout
    cases h.symm.trans (hsrcOut span hspan (Nat.lt_of_not_le hout))
    cases he
  refine ⟨hsrc, fun hs => ?_⟩
  by_contra hout
  cases h.symm.trans (hdstOut hsrc hs (Nat.lt_of_not_le hout))
  cases he

/-- A later command whose source range is what an earlier one stored reads those bytes, in bounds. -/
theorem source_of_stored {c' : InFlight} {p : Params} (hdstIn : c.args.dst.toNat + c.args.cap.toNat ≤ p.bufBytes)
    (hcap : out.length ≤ c.args.cap.toNat) (hbuf : c'.buf = (s.afterStore c.args.dst.toNat out).buf)
    (hsrc : c'.args.src = c.args.dst) (hlen : c'.args.len = (s.afterStore c.args.dst.toNat out).rLen) :
    c'.Source out ∧ out.length = c'.args.len.toNat ∧ c'.args.src.toNat + c'.args.len.toNat ≤ p.bufBytes := by
  have hcount : c'.args.len.toNat = out.length := hlen ▸ toNat_ofNat_of_le hcap
  rw [source_iff_read, hbuf, hsrc, hcount]
  exact ⟨Memory.read_write _ _ _, rfl, by omega⟩

end

/-! ### The run of each command, its ranges in bounds and its source written (R122 to R125) -/

section
variable {s : State} {c : InFlight} (hc : s.inflight = some c)
  (hsrcIn : c.args.src.toNat + c.args.len.toNat ≤ s.params.bufBytes)
  (hdstIn : c.args.dst.toNat + c.args.cap.toNat ≤ s.params.bufBytes)
include hc hsrcIn hdstIn

theorem exec_enc58b_badLength (hn : c.args.len.toNat < 1 ∨ 8 < c.args.len.toNat) :
    exec .enc58b s = .next (s.afterError .invalidBlockLength c.args.len.toNat) := by
  rw [exec, execEnc58b, State.command_eq hc]
  simp only [withSource_pos hsrcIn, withDest_pos hdstIn, if_pos hn, complete_raise_eq]

theorem exec_dec58_badLength (hn : c.args.len.toNat % 11 ∈ [1, 4, 8]) :
    exec .dec58 s = .next (s.afterError .invalidBlockLength (c.args.len.toNat % 11)) := by
  have hn' : c.args.len.toNat % 11 = 1 ∨ c.args.len.toNat % 11 = 4 ∨ c.args.len.toNat % 11 = 8 := by simpa using hn
  rw [exec, execDec58, State.command_eq hc]
  simp only [withSource_pos hsrcIn, withDest_pos hdstIn, if_pos hn', complete_raise_eq]

variable {bs : List Byte} (hsrc : c.Source bs) (hlen : bs.length = c.args.len.toNat)
include hsrc hlen

theorem exec_enc58b_run (h1 : 1 ≤ bs.length) (h8 : bs.length ≤ 8) :
    exec .enc58b s = s.complete (emitRun c (encodeBlock s.params bs)) := by
  have hn : ¬(c.args.len.toNat < 1 ∨ 8 < c.args.len.toNat) := by omega
  rw [exec, execEnc58b, State.command_eq hc]
  simp only [withSource_pos hsrcIn, withDest_pos hdstIn, if_neg hn, readSource_source hsrc hlen]

theorem exec_dec58b_run : exec .dec58b s = s.complete (emitRun c (decodeBlock s.params bs 0)) := by
  rw [exec, execDec58b, State.command_eq hc]
  simp only [withSource_pos hsrcIn, withDest_pos hdstIn, readSource_source hsrc hlen]

theorem exec_enc58_run :
    exec .enc58 s = s.complete (emitRun c (encodeBlocks s.params (bs.length / 8) bs)) := by
  rw [exec, execEnc58, State.command_eq hc]
  simp only [withSource_pos hsrcIn, withDest_pos hdstIn, readSource_source hsrc hlen, hlen]

theorem exec_dec58_run (hn : bs.length % 11 ∉ [1, 4, 8]) :
    exec .dec58 s = s.complete (emitRun c (decodeBlocks s.params (bs.length / 11) 0 bs)) := by
  have hn' : ¬(c.args.len.toNat % 11 = 1 ∨ c.args.len.toNat % 11 = 4 ∨ c.args.len.toNat % 11 = 8) := by
    simpa [hlen] using hn
  rw [exec, execDec58, State.command_eq hc]
  simp only [withSource_pos hsrcIn, withDest_pos hdstIn, if_neg hn', readSource_source hsrc hlen, hlen]

end

/-! ### One block (R122, R123) -/

/-- The length of a block that is not empty is that of at least one raw byte (R119). -/
theorem one_le_of_encLen_mem {m : Nat} (h : encLenTable.getD m 0 ∈ [2, 3, 5, 6, 7, 9, 10, 11]) : 1 ≤ m := by
  cases m with
  | zero => revert h; decide
  | succ m => exact m.succ_pos

/-- Settles O55: a block of 1 to 8 bytes has an encoding (`encodeBlock_ok`). -/
theorem enc58bResult : Obligations.Enc58bResult := by
  refine ⟨encodes_row .enc58b fun _ => rfl, fun s c hc hsrcIn hdstIn => ⟨exec_enc58b_badLength hc hsrcIn hdstIn,
    fun raw hsrc hlen h1 h8 => ?_⟩⟩
  obtain ⟨enc, hrun, henc⟩ := encodeBlock_ok (p := s.params) h1 h8
  rw [exec_enc58b_run hc hsrcIn hdstIn hsrc hlen h1 h8, hrun]
  exact ⟨enc, henc, complete_emitRun_outputSpace, complete_emitRun_stores⟩

/-- Settles O56: the length is in the table or not; a block of such a length is symbols (`decodeBlock_symbols`) or
holds a byte that is none (`decodeBlock_invalid`). -/
theorem dec58bResult : Obligations.Dec58bResult := by
  refine ⟨encodes_row .dec58b fun _ => rfl, fun s c t hc hp hsrcIn hdstIn hsrc hlen => ?_⟩
  rw [exec_dec58b_run hc hsrcIn hdstIn hsrc hlen]
  refine ⟨fun hbad => by rw [decodeBlock_badLength hbad, complete_emitRun_raise], fun hlength => ⟨?_, ?_⟩⟩
  · rintro head bad tail rfl hb htail
    obtain ⟨m, h1, h8, hm⟩ := table_of_length hlength
    rw [decodeBlock_invalid hp h1 h8 hm hb htail, complete_emitRun_raise, Nat.zero_add]
  · intro ds m hds h8 hm
    have h1 : 1 ≤ m := one_le_of_encLen_mem (hm ▸ hlength)
    rw [decodeBlock_symbols hp h1 h8 hm hds]
    refine ⟨fun hover => by rw [if_pos hover, complete_emitRun_raise], fun hfits => ?_⟩
    rw [if_neg hfits.not_ge]
    refine ⟨beBytes m (sumOf 58 ds), beBytes_length _ _, ?_, fun hcap => ?_, fun hcap => ?_⟩
    · rw [← beValue_eq_sumOf, beValue_beBytes _ _ hfits]
    · rw [complete_emitRun_outputSpace (by rwa [beBytes_length]), beBytes_length]
    · exact complete_emitRun_stores (by rwa [beBytes_length])

/-! ### Whole strings (R124, R125) -/

/-- Settles O57: the blocks by `encodeBlocks_ok`, the length by `encodeBlocks_length`. -/
theorem enc58Result : Obligations.Enc58Result := by
  refine ⟨encodes_row .enc58 fun _ => rfl, fun s c raw hc hsrcIn hdstIn hsrc hlen => ?_⟩
  obtain ⟨encs, hcount, hblocks, hrun⟩ := encodeBlocks_ok s.params (raw.length / 8) raw rfl
  rw [exec_enc58_run hc hsrcIn hdstIn hsrc hlen, hrun]
  exact ⟨encs, hcount, hblocks, encodeBlocks_length _ _ _ rfl hrun, complete_emitRun_outputSpace,
    complete_emitRun_stores⟩

theorem blockAt_length (k j : Nat) (bs : List Byte) : (blockAt k j bs).length = min k (bs.length - k * j) := by
  rw [blockAt, List.length_take, List.length_drop]

/-- With no illegal last length, every block has the length of an encoding (R125). -/
theorem blockAt_length_mem {t : List Byte} {j : Nat} (hlast : t.length % 11 ∉ [1, 4, 8])
    (hj : j < (t.length + 10) / 11) : (blockAt 11 j t).length ∈ [2, 3, 5, 6, 7, 9, 10, 11] := by
  rw [blockAt_length]
  simp only [List.mem_cons, List.not_mem_nil, or_false] at hlast ⊢
  omega

/-- Settles O58: a string of encodings decodes (`decodeBlocks_ok`); the lowest block that is none fails
(`decodeBlocks_error`) with the error that block alone has. -/
theorem dec58Result : Obligations.Dec58Result := by
  refine ⟨encodes_row .dec58 fun _ => rfl, fun s c hc hp hsrcIn hdstIn =>
    ⟨exec_dec58_badLength hc hsrcIn hdstIn, fun t hsrc hlen hlast => ?_⟩⟩
  rw [exec_dec58_run hc hsrcIn hdstIn hsrc hlen hlast]
  constructor
  · intro raws hcount hblocks
    rw [decodeBlocks_ok hp _ 0 t raws rfl hcount hblocks]
    exact ⟨complete_emitRun_outputSpace, complete_emitRun_stores⟩
  · intro j hj hlow
    have hlength := blockAt_length_mem hlast hj
    obtain ⟨m, h1, h8, hm⟩ := table_of_length hlength
    have hfail {e : ErrCode} {info : Nat} (he : decodeBlock s.params (blockAt 11 j t) (0 + 11 * j) = raise e info) :
        s.complete (emitRun c (decodeBlocks s.params (t.length / 11) 0 t)) = .next (s.afterError e info) := by
      rw [decodeBlocks_error hp _ 0 j t _ rfl hj hlow he]
      rfl
    constructor
    · intro head bad tail hblock hb htail
      rw [hblock] at hm hfail
      exact hfail (by rw [decodeBlock_invalid hp h1 h8 hm hb htail, Nat.zero_add])
    · intro ds m' hds h8' hm' hover
      have h1' : 1 ≤ m' := one_le_of_encLen_mem (hm' ▸ hlength)
      exact hfail (by rw [decodeBlock_symbols hp h1' h8' hm' hds, if_pos hover, Nat.zero_add])

/-! ### ENC58 and DEC58 undo each other (R126) -/

/-- A block of at most 7 bytes has an encoding shorter than 11 symbols. -/
theorem encLen_lt {m : Nat} (h7 : m ≤ 7) : encLenTable.getD m 0 < 11 := by
  interval_cases m <;> decide

/-- Decoding a whole encoding gives the bytes back (R126.2). -/
theorem decodeBlocks_of_encode {p : Params} (hp : p.wf = true) (q base : Nat) (raw out : List Byte)
    (hq : q = raw.length / 8) (h : encodeBlocks p q raw = .ok out) :
    decodeBlocks p (out.length / 11) base out = .ok raw := by
  induction q generalizing base raw out with
  | zero =>
    unfold encodeBlocks at h
    split at h
    · next hraw =>
      cases h
      rw [hraw]
      rfl
    · next hraw =>
      have hpos := List.length_pos_of_ne_nil hraw
      obtain ⟨enc, henc, hblock⟩ := encodeBlock_ok (p := p) (b := raw) hpos (by omega)
      cases henc.symm.trans h
      have hne : out ≠ [] := List.ne_nil_of_length_pos (by
        rw [encodedBlock_length hblock]
        exact Nat.pos_of_ne_zero (encLen_pos hblock.1 hblock.2.1))
      have hlt : out.length < 11 := by
        rw [encodedBlock_length hblock]
        exact encLen_lt (by omega)
      rw [Nat.div_eq_of_lt hlt, decodeBlocks, if_neg hne, decodeBlock_encoded hp hblock]
  | succ q ih =>
    have h8 : (raw.take 8).length = 8 := by rw [List.length_take]; omega
    obtain ⟨enc, henc, hblock⟩ := encodeBlock_ok (p := p) (b := raw.take 8) (by omega) (by omega)
    have h11 : enc.length = 11 := by rw [encodedBlock_length hblock, h8]; rfl
    rw [encodeBlocks, henc] at h
    dsimp only at h
    split at h
    · cases h
    · next rest hrest =>
      cases h
      have hdrop : q = (raw.drop 8).length / 8 := by rw [List.length_drop]; omega
      have hcount : (enc ++ rest).length / 11 = rest.length / 11 + 1 := by rw [List.length_append, h11]; omega
      rw [hcount, decodeBlocks, List.take_left' h11, List.drop_left' h11, decodeBlock_encoded hp hblock]
      dsimp only
      rw [ih (base + 11) _ _ hdrop hrest]
      dsimp only
      rw [List.take_append_drop]

/-- A whole encoding has a legal length (R125, R126.1). -/
theorem encodeBlocks_length_mod {p : Params} {raw out : List Byte}
    (h : encodeBlocks p (raw.length / 8) raw = .ok out) : out.length % 11 ∉ [1, 4, 8] := by
  have hlt : raw.length % 8 < 8 := Nat.mod_lt _ (by decide)
  rw [encodeBlocks_length _ _ _ rfl h, Nat.mul_add_mod]
  generalize raw.length % 8 = m at hlt
  interval_cases m <;> decide

section
variable {s t : State} {c : InFlight} {bs : List Byte}

theorem enc58_success (hc : s.inflight = some c) (hsrc : c.Source bs) (hlen : bs.length = c.args.len.toNat)
    (h : exec .enc58 s = .next t) (he : t.errCode = .noError) :
    ∃ out, encodeBlocks s.params (bs.length / 8) bs = .ok out ∧ out.length ≤ c.args.cap.toNat ∧
      t = s.afterStore c.args.dst.toNat out := by
  obtain ⟨hsrcIn, hdstIn⟩ := ranges_of_success hc h he
  rw [exec_enc58_run hc (hsrcIn _ rfl) (hdstIn rfl) hsrc hlen] at h
  exact complete_emitRun_noError (raisesOnly_encodeBlocks rfl) h he

theorem dec58_success (hc : s.inflight = some c) (hsrc : c.Source bs) (hlen : bs.length = c.args.len.toNat)
    (h : exec .dec58 s = .next t) (he : t.errCode = .noError) :
    ∃ out, decodeBlocks s.params (bs.length / 11) 0 bs = .ok out ∧ out.length ≤ c.args.cap.toNat ∧
      t = s.afterStore c.args.dst.toNat out := by
  obtain ⟨hsrcIn, hdstIn⟩ := ranges_of_success hc h he
  by_cases hlast : bs.length % 11 ∈ [1, 4, 8]
  · cases h.symm.trans (exec_dec58_badLength hc (hsrcIn _ rfl) (hdstIn rfl) (hlen ▸ hlast))
    cases he
  · rw [exec_dec58_run hc (hsrcIn _ rfl) (hdstIn rfl) hsrc hlen hlast] at h
    exact complete_emitRun_noError (raisesOnly_decodeBlocks (by decide) (by decide) (by decide) _ _ _ _) h he

end

/-- Settles O59: DEC58 reads the symbols ENC58 stored (`source_of_stored`), and they decode to the bytes
(`decodeBlocks_of_encode`). -/
theorem dec58InvertsEnc58 : Obligations.Dec58InvertsEnc58 := by
  intro s t s' c c' raw hc hp hsrc hlen h he hc' hparams hbuf hsrc' hlen' hdstIn' hroom
  obtain ⟨-, hdstIn⟩ := ranges_of_success hc h he
  obtain ⟨out, hrun, hcap, rfl⟩ := enc58_success hc hsrc hlen h he
  obtain ⟨hsource, hcount, hsrcIn'⟩ := source_of_stored (hparams ▸ hdstIn rfl) hcap hbuf hsrc' hlen'
  rw [exec_dec58_run hc' hsrcIn' hdstIn' hsource hcount (encodeBlocks_length_mod hrun), hparams,
    decodeBlocks_of_encode hp _ 0 raw out rfl hrun, complete_emitRun_stores hroom]

/-- Settles O60: ENC58 reads the bytes DEC58 stored (`source_of_stored`), and the symbols are their encoding
(`encodeBlocks_of_decode`). -/
theorem enc58InvertsDec58 : Obligations.Enc58InvertsDec58 := by
  intro s t s' c c' syms hc hp hsrc hlen h he hc' hparams hbuf hsrc' hlen' hdstIn' hroom
  obtain ⟨-, hdstIn⟩ := ranges_of_success hc h he
  obtain ⟨out, hrun, hcap, rfl⟩ := dec58_success hc hsrc hlen h he
  obtain ⟨hsource, hcount, hsrcIn'⟩ := source_of_stored (hparams ▸ hdstIn rfl) hcap hbuf hsrc' hlen'
  obtain ⟨hencode, -⟩ := encodeBlocks_of_decode hp _ 0 syms out rfl hrun
  rw [exec_enc58_run hc' hsrcIn' hdstIn' hsource hcount, hparams, hencode, complete_emitRun_stores hroom]

end Sys2Proof.Machine
end

section
/-! PROOFS. The statements of 60_exceptions.md: what a completion leaves of STATUS, which errors a command raises, and the
interrupt output (R127 to R137). -/

namespace Sys2Proof.Machine

/-! ### Completions (R131, R133) -/

/-- Settles O27: the completion is a success, which has the code of no error, or `State.fail`. -/
theorem errorCompletionChangesOnlyStatus : Obligations.ErrorCompletionChangesOnlyStatus := by
  intro s t hne h he
  rcases completeInFlight_ends hne h with ⟨w, rfl⟩ | ⟨e, info, -, rfl⟩
  · exact absurd rfl he
  · exact ⟨rfl, fun _ => rfl⟩

/-- Settles O28: the completion is a success or carries a real error (`completeInFlight_ends`). -/
theorem completionSetsStatus : Obligations.CompletionSetsStatus := by
  intro s t hne h
  rcases completeInFlight_ends hne h with ⟨w, rfl⟩ | ⟨e, info, hreal, rfl⟩
  · exact ⟨rfl, rfl, rfl, rfl, rfl, rfl, rfl, rfl, rfl, rfl, rfl, fun _ => rfl⟩
  · exact ⟨rfl, rfl, rfl, rfl, rfl, rfl, rfl, rfl, rfl, rfl, rfl, fun he => absurd he hreal⟩

/-! ### The errors of each command (R128) -/

section
variable {s t : State} {body : InFlight → Run Writes}

/-- A command completes with no error or with one its run can raise. -/
theorem command_errCode_mem {es : List ErrCode} (hb : ∀ c, RaisesOnly es (body c)) (h : s.command body = .next t) :
    t.errCode ∈ .noError :: es := by
  obtain ⟨c, -, hn⟩ := command_next h
  exact List.mem_cons.mpr (complete_errCode (hb c) hn)

theorem command_errCode_noError (hb : ∀ c, RaisesOnly [] (body c)) (h : s.command body = .next t) :
    t.errCode = .noError := List.mem_singleton.mp (command_errCode_mem hb h)

end

/-- Settles O33: the cases follow the shape of each command's pseudocode, with the codes the table gives the command. -/
theorem commandsRaiseOnlyTabledErrors : Obligations.CommandsRaiseOnlyTabledErrors := by
  refine ⟨rfl, fun i s t hwf h => ?_⟩
  cases i
  case nop | ldk | mov | neg | cmp | cmpabs | sgn | iszero | isunit | iseven | isodd | ispos | isneg =>
    exact command_errCode_noError (fun _ => raisesOnly_ok) h
  all_goals refine command_errCode_mem (fun c => ?_) h
  case add | sub | mul | sqr => exact raisesOnly_storeValue (by decide)
  case div | rem => exact raisesOnly_ite (raisesOnly_raise (by decide)) raisesOnly_ok
  case divrem vq vr va vb =>
    have hne : vq ≠ vr := of_decide_eq_true hwf
    rw [if_neg hne]
    exact raisesOnly_ite (raisesOnly_raise (by decide)) raisesOnly_ok
  case modpow =>
    exact raisesOnly_ite (raisesOnly_raise (by decide)) (raisesOnly_ite (raisesOnly_raise (by decide)) raisesOnly_ok)
  case pow =>
    exact raisesOnly_ite (raisesOnly_raise (by decide)) (raisesOnly_ite (raisesOnly_storeValue (by decide))
      (raisesOnly_ite (raisesOnly_ite (raisesOnly_raise (by decide)) (raisesOnly_storeValue (by decide)))
        (raisesOnly_storePower (by decide) _ _ _ _)))
  case ldraw =>
    refine raisesOnly_withSource (by decide) (raisesOnly_readSource fun bs _ => ?_)
    dsimp only
    split
    · exact raisesOnly_raise (by decide)
    · exact raisesOnly_storeValue (by decide)
  case straw =>
    exact raisesOnly_withDest (by decide) (raisesOnly_ite (raisesOnly_raise (by decide)) raisesOnly_ok)
  case frombe =>
    exact raisesOnly_withSource (by decide) (raisesOnly_readSource fun _ _ => raisesOnly_storeValue (by decide))
  case tobe =>
    exact raisesOnly_withDest (by decide) (raisesOnly_ite (raisesOnly_raise (by decide))
      (raisesOnly_ite (raisesOnly_raise (by decide)) raisesOnly_ok))
  case parse =>
    refine raisesOnly_withSource (by decide) (raisesOnly_ite (raisesOnly_raise (by decide))
      (raisesOnly_readSource fun bs _ => ?_))
    split
    · exact raisesOnly_storeValue (by decide)
    · next he => exact raisesOnly_error (raisesOnly_numeral (by decide) (by decide) (by decide) _ _ _) he
  case tostr =>
    exact raisesOnly_withDest (by decide) (raisesOnly_ite (raisesOnly_raise (by decide)) (raisesOnly_emit (by decide)))
  case enc58 =>
    exact raisesOnly_withSource (by decide) (raisesOnly_withDest (by decide)
      (raisesOnly_readSource fun _ hb => raisesOnly_emitRun (by decide) (raisesOnly_encodeBlocks hb)))
  case dec58 =>
    exact raisesOnly_withSource (by decide) (raisesOnly_withDest (by decide)
      (raisesOnly_ite (raisesOnly_raise (by decide)) (raisesOnly_readSource fun _ _ => raisesOnly_emitRun (by decide)
        (raisesOnly_decodeBlocks (by decide) (by decide) (by decide) _ _ _ _))))
  case enc58b =>
    exact raisesOnly_withSource (by decide) (raisesOnly_withDest (by decide)
      (raisesOnly_ite (raisesOnly_raise (by decide)) (raisesOnly_readSource fun _ _ => raisesOnly_emitRun (by decide)
        (raisesOnly_encodeBlock (by decide) _ _))))
  case dec58b =>
    exact raisesOnly_withSource (by decide) (raisesOnly_withDest (by decide) (raisesOnly_readSource fun _ _ =>
      raisesOnly_emitRun (by decide) (raisesOnly_decodeBlock (by decide) (by decide) (by decide) _ _ _)))

/-! ### The interrupt output (R137) -/

section
variable {s t : State} {w : Word} {rest : List Event}

theorem irq_of_done_eq_false (h : t.done = false) : t.irq = false := by
  rw [State.irq, h, Bool.false_and]

theorem irq_of_ie_eq_false (h : t.ie = false) : t.irq = false := by
  rw [State.irq, h, Bool.and_false]

/-- A CTRL write without SRST writes IE (R26). -/
theorem step_ctrl_ie (h : s.inputs = .access 32 0x00004 (.write w) :: rest) (hr : s.resetLine = false)
    (hw : w.getLsbD 1 = false) : step s = .next { s with inputs := rest, ie := w.getLsbD 0 } := by
  rw [step_writeReg (r := .ctrl) h hr (by decide) (by decide), hostWrite, hw]
  rfl

/-- A CTRL write with SRST is the soft reset (R26, R147). -/
theorem step_ctrl_softReset (h : s.inputs = .access 32 0x00004 (.write w) :: rest) (hr : s.resetLine = false)
    (hw : w.getLsbD 1 = true) : step s = .next (State.softReset { s with inputs := rest } (w.getLsbD 0)) := by
  rw [step_writeReg (r := .ctrl) h hr (by decide) (by decide), hostWrite, if_pos hw]

end

/-- Settles O26: a completion sets DONE and keeps IE (`completionSetsStatus`); each write is its own arm of `hostWrite`. -/
theorem interruptFollowsDoneAndEnable : Obligations.InterruptFollowsDoneAndEnable := by
  refine ⟨fun _ => rfl, fun s t hne hie h => ?_, fun s t w rest hr h => ⟨fun hin hw => ?_, fun hin hidle => ?_,
    fun hin hw => ?_, fun hin hw => ?_⟩⟩
  · obtain ⟨-, hdone, -, hie', -⟩ := completionSetsStatus s t hne h
    rw [State.irq, hdone, hie', hie, Bool.and_self]
  · rw [step_writeReg (r := .status) hin hr (by decide) (by decide), hostWrite, hw] at h
    cases h
    exact irq_of_done_eq_false (Bool.and_false _)
  · rw [step_cmd_idle hin hr hidle] at h
    obtain ⟨rfl, -⟩ := issue_next h
    exact irq_of_done_eq_false rfl
  · cases hsrst : w.getLsbD 1 with
    | true =>
      cases (step_ctrl_softReset hin hr hsrst).symm.trans h
      exact irq_of_done_eq_false rfl
    | false =>
      cases (step_ctrl_ie hin hr hsrst).symm.trans h
      exact irq_of_ie_eq_false (hw.resolve_right (by rw [hsrst]; exact nofun))
  · cases (step_ctrl_ie hin hr hw).symm.trans h
    rfl

end Sys2Proof.Machine
end

section
/-! PROOFS. The statements of 70_reset_and_hazards.md: what the resets leave, and that reads do not delay a completion
(R146 to R154). -/

namespace Sys2Proof.Machine

/-! ### Resets (R146 to R150) -/

theorem default_wf : Params.default.wf = true := by decide

theorem resetOf_inv {p : Params} (h : p.wf = true) : (State.resetOf p).Inv :=
  State.inv_of_idle rfl h (fun r => by simpa [State.resetOf] using fits_zero p) rfl rfl (fun _ => rfl) fun _ => rfl

/-- Settles O12: nothing is in flight, every value is 0 and no byte is written. -/
theorem resetMeetsTheInvariant : Obligations.ResetMeetsTheInvariant :=
  ⟨fun _ => resetOf_inv, resetOf_inv default_wf⟩

/-- The reset input asserted, or released, is the hard reset at that level (R146). -/
theorem setResetLine_of_edge {s : State} {level : Bool} (h : level = true ∨ s.resetLine = true) :
    setResetLine level s = { s.hardReset with resetLine := level } := if_pos (by simpa using h)

/-- With no error, DONE, OVR or command in flight, STATUS reads 0 (R27). -/
theorem statusWord_of_clear {t : State} (he : t.errCode = .noError) (hi : t.inflight = none) (hd : t.done = false)
    (ho : t.ovr = false) : t.statusWord = 0 := by
  simp [State.statusWord, State.busy, State.irq, err_eq, he, hi, hd, ho]

theorem limbs_zero : limbs 0 = [] := (digits_eq_nil (by decide) _).mpr rfl

/-- Settles O15: both edges by `setResetLine_of_edge`, the soft reset by `step_ctrl_softReset`; the reads are those of
zeros. -/
theorem resetsLeaveTheTabledState : Obligations.ResetsLeaveTheTabledState := by
  refine fun s rest => ⟨fun level hin hedge => ?_, fun w hin hr hw => ?_, fun t he hi hd ho hv => ?_⟩
  · rw [step_event hin, handle, setResetLine_of_edge (s := { s with inputs := rest }) hedge]
    rfl
  · rw [step_ctrl_softReset hin hr hw]
    simp only [State.softReset, State.hardReset, State.resetOf, hr]
  · have hzero (r : VReg) : t.v.read r = 0 := by rw [hv, Regs.read_replicate]
    refine ⟨?_, irq_of_done_eq_false hd, ?_, ?_, fun k => ?_, rfl, rfl, rfl, rfl, fun w hw => ?_⟩
    · rw [State.readReg, statusWord_of_clear he hi hd ho]
    · rw [State.readReg, hzero]
      rfl
    · rw [State.readReg, hzero, nlimbs, limbs_zero]
      rfl
    · rw [State.readReg, hzero, limbs_zero]
      rfl
    · cases hw
      exact ctrlWord_bits t 1

/-! ### Reads while a command is in flight (R48, R50, R154) -/

/-- The state with the fields of the model's own at these values: no block state (log entries 2, 3 and 4). -/
def State.withOwn (s : State) (rdata : Word) (freeCount : Nat) (inputs : List Event) : State :=
  { s with rdata := rdata, freeCount := freeCount, inputs := inputs }

section
variable {s u : State}

/-- The completion does not depend on the fields of the model's own, and keeps them. -/
theorem completeInFlight_withOwn (hne : s.inflight ≠ none) (h : completeInFlight s = .next u) (rdata : Word)
    (freeCount : Nat) (inputs : List Event) :
    completeInFlight (s.withOwn rdata freeCount inputs) = .next (u.withOwn rdata freeCount inputs) := by
  obtain ⟨c, hc⟩ := Option.ne_none_iff_exists'.mp hne
  obtain ⟨r, hr⟩ := completeInFlight_run s.params c
  rw [hr s hc rfl] at h
  rw [hr (s.withOwn rdata freeCount inputs) hc rfl]
  rcases State.complete_next h with ⟨w, rfl, rfl⟩ | ⟨e, info, rfl, rfl⟩ <;> rfl

/-- Only a buffer word can be without a value, and the buffer window is volatile. -/
theorem readReg_of_not_volatile {r : HostReg} (h : r.volatile = false) (s : State) : ∃ w, s.readReg r = some w := by
  cases r
  case bufWin => cases h
  all_goals exact ⟨_, rfl⟩

/-- A legal read while a command is in flight answers, and changes the fields of the model's own alone. -/
theorem step_read_busy {o : BitVec 17} {rest : List Event} (h : s.inputs = .access 32 o .read :: rest)
    (hr : s.resetLine = false) (ho : o.toNat % 4 = 0) (hne : s.inflight ≠ none) :
    ∃ rdata freeCount, step s = .next (s.withOwn rdata freeCount rest) := by
  cases hvol : (regAt s.params o.toNat).volatile with
  | true => exact ⟨_, _, step_read_free h hr ho hne hvol⟩
  | false =>
    obtain ⟨w, hw⟩ := readReg_of_not_volatile hvol s
    exact ⟨w, s.freeCount, step_read_exact h hr ho hvol hw⟩

theorem run_succ_of_step {M : Host.Core} {s t : M.State} (h : M.step s = .next t) (k : Nat) :
    M.run (k + 1) s = M.run k t := by
  rw [Host.Core.run, h]

/-- After a list of legal reads and one step more the completion has happened, as it would happen now. -/
theorem run_reads_completes {es : List Event}
    (hes : ∀ e ∈ es, ∃ o : BitVec 17, o.toNat % 4 = 0 ∧ e = .access 32 o .read) (hin : s.inputs = es)
    (hr : s.resetLine = false) (hne : s.inflight ≠ none) (h : completeInFlight s = .next u) :
    ∃ rdata freeCount, core.run (es.length + 1) s = .next (u.withOwn rdata freeCount []) := by
  induction es generalizing s u with
  | nil =>
    have hstep : step s = .next (u.withOwn s.rdata s.freeCount []) := by
      rw [step_idle hin, ← hin]
      exact completeInFlight_withOwn hne h s.rdata s.freeCount s.inputs
    exact ⟨_, _, run_succ_of_step (M := core) hstep 0⟩
  | cons e es ih =>
    obtain ⟨o, ho, rfl⟩ := hes e List.mem_cons_self
    obtain ⟨rdata, freeCount, hstep⟩ := step_read_busy hin hr ho hne
    obtain ⟨rdata', freeCount', hrun⟩ := ih (s := s.withOwn rdata freeCount es)
      (fun e he => hes e (List.mem_cons_of_mem _ he)) rfl hr hne (completeInFlight_withOwn hne h rdata freeCount es)
    exact ⟨rdata', freeCount', (run_succ_of_step (M := core) hstep _).trans hrun⟩

end

/-- Settles O14: the reads leave the completion as it is (`run_reads_completes`), and it ends the command and sets DONE
(`completionSetsStatus`). -/
theorem inFlightCommandCompletesAfterReads : Obligations.InFlightCommandCompletesAfterReads := by
  intro s u hr hne h hes
  obtain ⟨rdata, freeCount, hrun⟩ := run_reads_completes hes rfl hr hne h
  obtain ⟨hidle, hdone, -⟩ := completionSetsStatus s u hne h
  exact ⟨_, hrun, hidle, rfl, rfl, rfl, rfl, rfl, rfl, rfl, hdone⟩

end Sys2Proof.Machine
end
